-- ==== Sys2Proof/Word.lean ====
section
/-! DEFINITION. The word types of the INTQ CORE: a byte of the data space, a 16-bit element, and a 32-bit register,
address or accumulator (00_scope.md rules R8, R12). -/

namespace Sys2Proof

/-- One byte of the data space. -/
abbrev Byte := BitVec 8

/-- A 16-bit element: an activation, a threshold, a decoder output, a lane of the dual multiply-accumulate. -/
abbrev Half := BitVec 16

/-- A 32-bit register, data-space address or accumulator. -/
abbrev Word := BitVec 32

end Sys2Proof
end

