-- ==== Sys2Proof/Machine/Arith.lean ====
section
/-! DEFINITION. The arithmetic primitives of 00_scope.md rule R13, exact on mathematical integers and narrowed
explicitly. A signed value of N bits is held as a `BitVec N` and read with `toInt`. -/

namespace Sys2Proof.Machine

/-- `wrap32(v)`: the 32-bit value congruent to `v` (rule R13). -/
def wrap32 (v : Int) : Word := BitVec.ofInt 32 v

/-- `trunc16(v)`: the low 16 bits of a 32-bit value, two's complement (rule R13; 43_requant.md rule R219). -/
def trunc16 (s : Word) : Half := s.setWidth 16

/-- `shl32(v, n)`: the wrapping 32-bit left shift, 0 for every `n >= 32` (rule R13). -/
def shl32 (s : Word) (n : Nat) : Word := wrap32 (s.toInt * 2 ^ n)

/-- `asr(v, n)`: the arithmetic right shift, rounding toward minus infinity (rule R13). -/
def asr (v : Int) (n : Nat) : Int := v / 2 ^ n

/-- `clamp(v, lo, hi)` (rule R13). -/
def clamp (v lo hi : Int) : Int := if v < lo then lo else if hi < v then hi else v

/-- `cdiv(a, b)` for `b > 0` (rule R13). -/
def cdiv (a b : Nat) : Nat := (a + b - 1) / b

/-- An element address: `base + offset` modulo 2^32 (20_memory.md rule R83). -/
def addr (base : Word) (off : Nat) : Word := base + BitVec.ofNat 32 off

end Sys2Proof.Machine
end

