-- ==== Sys2Proof/Config.lean ====
section
/-! DEFINITION. What the spec fixes for every CORE, what it leaves open as a value (free values: constants with no body),
and the values State.reset gives to the platform's parameters. -/

namespace Sys2Proof.Config

/-- The ID register's constant, the bytes "INTQ" in little-endian order (10_state.md rule R31). -/
def idValue : Word := 0x51544E49

/-- What a byte of the data space that nothing has written reads as. DESIGN CHOICE, unsafe (log entry 1); the spec's own
test programs take unlisted memory as 0x00 (95_test_vectors.md, part L3). -/
def unlistedByte : Byte := 0x00

/-- A free byte: the value that draw `n` gives to the byte at an address, wherever the spec says "any value"
(20_memory.md rules R103, R105; 60_exceptions.md rule R296; 70_reset_and_hazards.md rule R321). Log entry 5. -/
opaque freeByte : (draw : Nat) → (address : Nat) → Byte

/-- A free choice between the HOST's value (true) and the CORE's value (false) of a byte of WS that the HOST wrote while
the CORE was BUSY (20_memory.md rule R103). Log entry 8. -/
opaque freeChoice : (draw : Nat) → (address : Nat) → Bool

/-- A free index: which of several refused bytes FAULT_ADDR receives (10_state.md rule R54). Log entry 7. -/
opaque freeIndex : (draw : Nat) → Nat

/-- Bits 31:8 of CORE_BASE in State.reset. CORE_BASE is OPEN (00_scope.md rule R8): DESIGN CHOICE, log entry 2. -/
def resetCorePage : BitVec 24 := 0x400000

/-- IRQ_LINE in State.reset. IRQ_LINE is OPEN (00_scope.md rule R8): DESIGN CHOICE, log entry 2. -/
def resetIrqLine : Nat := 0

end Sys2Proof.Config
end

