-- ==== Sys2Proof/Syntax.lean ====
section
/-! DEFINITION. The instructions of the INTQ CORE: the 13 command words of spec/opcode_table.json (30_encoding.md rule
R129). No command word holds an operand: every operand is a register value (rules R128, R132). -/

namespace Sys2Proof

/-- One constructor per row of spec/opcode_table.json. -/
inductive Instr where
  /-- MM.FOLD.W8.O4 (45_matmul.md rule R255). -/
  | mmFoldW8O4
  /-- MM.FOLD.W8.O2 (rule R256). -/
  | mmFoldW8O2
  /-- MM.FOLD.W4.O4 (rule R257). -/
  | mmFoldW4O4
  /-- MM.FOLD.W4.O2 (rule R258). -/
  | mmFoldW4O2
  /-- MM.THR.W8.O4 (rule R259). -/
  | mmThrW8O4
  /-- MM.THR.W8.O2 (rule R260). -/
  | mmThrW8O2
  /-- MM.THR.W4.O4 (rule R261). -/
  | mmThrW4O4
  /-- MM.THR.W4.O2 (rule R262). -/
  | mmThrW4O2
  /-- DW.THR.O2 (46_depthwise.md rule R281). -/
  | dwThrO2
  /-- UNPACK.B2 (41_decoder.md rule R179). -/
  | unpackB2
  /-- UNPACK.B2.R (rule R180). -/
  | unpackB2R
  /-- UNPACK.B4 (rule R181). -/
  | unpackB4
  /-- UNPACK.B8 (rule R182). -/
  | unpackB8
deriving DecidableEq, Repr

end Sys2Proof
end

