-- ==== Sys2Proof/WellFormed.lean ====
section
/-! DEFINITION. The fields of a command word and when they are well formed (30_encoding.md rules R122 to R127, R130). An
instruction holds no operand (rule R128), so its well-formedness is that of the fields its row gives it. -/

namespace Sys2Proof

/-- A command word cut into the fields of rules R125 to R127. `b4`, `b5`, `b6` are bits 4, 5 and 6: POL, W4, O2 in
format MM; KB[0], KB[1], REO in format UNPACK; reserved in format DW. -/
structure CmdFields where
  /-- OP, bits [3:0]. -/
  op : BitVec 4
  /-- Bit [4]. -/
  b4 : Bool
  /-- Bit [5]. -/
  b5 : Bool
  /-- Bit [6]. -/
  b6 : Bool
  /-- Bits [31:7], reserved in every format. -/
  hi : BitVec 25
deriving DecidableEq, Repr

/-- OP names an operation: 1 MM, 2 DW, 3 UNPACK (rule R123). -/
def CmdFields.opKnown (f : CmdFields) : Bool := f.op == 1 || f.op == 2 || f.op == 3

/-- Bits [31:7] are 0 (rules R125, R126, R127). -/
def CmdFields.hiZero (f : CmdFields) : Bool := f.hi == 0

/-- Format DW: bits [6:4] are reserved too (rule R126). -/
def CmdFields.dwReservedZero (f : CmdFields) : Bool := f.op != 2 || (!f.b4 && !f.b5 && !f.b6)

/-- Format UNPACK: KB = 11 is reserved (rule R127). -/
def CmdFields.unpackWidthKnown (f : CmdFields) : Bool := f.op != 3 || !(f.b4 && f.b5)

/-- Format UNPACK: REO = 1 is legal only with KB = 00 (rule R127). -/
def CmdFields.unpackReorderLegal (f : CmdFields) : Bool := f.op != 3 || !f.b6 || (!f.b4 && !f.b5)

/-- Every check of rules R123 to R127 together. -/
def CmdFields.wellFormed (f : CmdFields) : Bool :=
  f.opKnown && f.hiZero && f.dwReservedZero && f.unpackWidthKnown && f.unpackReorderLegal

/-- The fields each row of the opcode table gives its word (rules R125 to R127, R129). -/
def Instr.fields : Instr → CmdFields
  | .mmFoldW8O4 => ⟨1, false, false, false, 0⟩
  | .mmFoldW8O2 => ⟨1, false, false, true, 0⟩
  | .mmFoldW4O4 => ⟨1, false, true, false, 0⟩
  | .mmFoldW4O2 => ⟨1, false, true, true, 0⟩
  | .mmThrW8O4 => ⟨1, true, false, false, 0⟩
  | .mmThrW8O2 => ⟨1, true, false, true, 0⟩
  | .mmThrW4O4 => ⟨1, true, true, false, 0⟩
  | .mmThrW4O2 => ⟨1, true, true, true, 0⟩
  | .dwThrO2 => ⟨2, false, false, false, 0⟩
  | .unpackB2 => ⟨3, false, false, false, 0⟩
  | .unpackB2R => ⟨3, false, false, true, 0⟩
  | .unpackB4 => ⟨3, true, false, false, 0⟩
  | .unpackB8 => ⟨3, false, true, false, 0⟩

/-- An instruction is well formed when its row's fields are. -/
def Instr.wellFormed (i : Instr) : Bool := i.fields.wellFormed

end Sys2Proof
end

