-- ==== Sys2Proof/Decode.lean ====
section
/-! DEFINITION. The two decodings of the CORE (30_encoding.md rule R120): a command word to an instruction, total on every
word and on any bytes and rejecting by name, with the encoder; and a window offset to a register. -/

namespace Sys2Proof

/-- Why a word is no command (30_encoding.md rule R130). Each completes with ILLEGAL_CMD at START (rule R124). -/
inductive DecodeError where
  /-- OP is 0 or 4 to 15 (rule R123). -/
  | reservedOp
  /-- An MM word with a nonzero bit in [31:7] (rule R125). -/
  | mmReserved
  /-- A DW word with a nonzero bit in [31:4] (rule R126). -/
  | dwReserved
  /-- An UNPACK word with a nonzero bit in [31:7] (rule R127). -/
  | unpackReserved
  /-- UNPACK with KB = 11 (rule R127). -/
  | unpackWidth
  /-- UNPACK with REO = 1 and KB not 00 (rule R127). -/
  | unpackReorder
  /-- Not the four bytes of one word (rule R122: one length). -/
  | length
deriving DecidableEq, Repr

/-- A command word cut into its fields (rules R125 to R127). -/
def splitWord (w : Word) : CmdFields where
  op := w.extractLsb' 0 4
  b4 := w.getLsbD 4
  b5 := w.getLsbD 5
  b6 := w.getLsbD 6
  hi := w.extractLsb' 7 25

/-- Fields joined back into a command word. -/
def joinFields (f : CmdFields) : Word :=
  f.hi ++ BitVec.ofBool f.b6 ++ BitVec.ofBool f.b5 ++ BitVec.ofBool f.b4 ++ f.op

/-- Format MM by POL, W4 and O2: every combination is legal (rule R125). -/
def mmRow : (pol w4 o2 : Bool) → Instr
  | false, false, false => .mmFoldW8O4
  | false, false, true => .mmFoldW8O2
  | false, true, false => .mmFoldW4O4
  | false, true, true => .mmFoldW4O2
  | true, false, false => .mmThrW8O4
  | true, false, true => .mmThrW8O2
  | true, true, false => .mmThrW4O4
  | true, true, true => .mmThrW4O2

/-- Format UNPACK by KB and REO (rule R127). -/
def unpackRow : (kb0 kb1 reo : Bool) → Except DecodeError Instr
  | false, false, false => .ok .unpackB2
  | false, false, true => .ok .unpackB2R
  | true, false, false => .ok .unpackB4
  | false, true, false => .ok .unpackB8
  | true, true, _ => .error .unpackWidth
  | true, false, true => .error .unpackReorder
  | false, true, true => .error .unpackReorder

/-- The instruction of a word's fields (rules R123 to R127). -/
def decodeFields (f : CmdFields) : Except DecodeError Instr :=
  if f.op = 1 then
    if f.hi = 0 then .ok (mmRow f.b4 f.b5 f.b6) else .error .mmReserved
  else if f.op = 2 then
    if f.hi = 0 ∧ f.b4 = false ∧ f.b5 = false ∧ f.b6 = false then .ok .dwThrO2 else .error .dwReserved
  else if f.op = 3 then
    if f.hi = 0 then unpackRow f.b4 f.b5 f.b6 else .error .unpackReserved
  else .error .reservedOp

/-- The instruction a command word names (rule R122). No mode bit enters (rule R131). -/
def decodeWord (w : Word) : Except DecodeError Instr := decodeFields (splitWord w)

/-- The word the CORE holds for four bytes as a bus lays them out, the least significant first (20_memory.md rule R84). -/
def wordOfBytes (b0 b1 b2 b3 : Byte) : Word := b3 ++ b2 ++ b1 ++ b0

/-- Decoding of any bytes: exactly one word of four bytes (rule R122: there is one length). -/
def decodeBytes : List Byte → Except DecodeError Instr
  | [b0, b1, b2, b3] => decodeWord (wordOfBytes b0 b1 b2 b3)
  | _ => .error .length

/-- The word of an instruction (rule R129). -/
def encode (i : Instr) : Word := joinFields i.fields

/-- The low `n` bytes of a number, the least significant first. -/
def bytesLE : (n : Nat) → Nat → List Byte
  | 0, _ => []
  | n + 1, v => BitVec.ofNat 8 v :: bytesLE n (v / 256)

/-- The instruction read from bits numbered as spec/opcode_table.json numbers them. The bits above `nbits` are 0; a row of
more than 32 bits is no command (rule R122). -/
def decodeTableWord (nbits w : Nat) : Option Instr :=
  if 32 < nbits then none
  else
    match decodeBytes (bytesLE 4 (w % 2 ^ nbits)) with
    | .ok i => some i
    | .error _ => none

/-- The 24 registers of the window (10_state.md rule R30). -/
inductive RegName where
  | id | ctrl | status | cmd | src0 | src1 | bias | out | thr | col | scrb | mmDim | dwCh | dwDim | dwKs | dwPad
  | zp | foldM | foldN | thrStride | unpackCnt | unpackOfs | result | faultAddr
deriving DecidableEq, Repr

/-- Bits [7:2] of a window offset select the register; 0x18 to 0x3F are reserved (30_encoding.md rule R121). -/
def RegName.ofIndex (x : BitVec 6) : Option RegName :=
  match x.toNat with
  | 0x00 => some .id
  | 0x01 => some .ctrl
  | 0x02 => some .status
  | 0x03 => some .cmd
  | 0x04 => some .src0
  | 0x05 => some .src1
  | 0x06 => some .bias
  | 0x07 => some .out
  | 0x08 => some .thr
  | 0x09 => some .col
  | 0x0A => some .scrb
  | 0x0B => some .mmDim
  | 0x0C => some .dwCh
  | 0x0D => some .dwDim
  | 0x0E => some .dwKs
  | 0x0F => some .dwPad
  | 0x10 => some .zp
  | 0x11 => some .foldM
  | 0x12 => some .foldN
  | 0x13 => some .thrStride
  | 0x14 => some .unpackCnt
  | 0x15 => some .unpackOfs
  | 0x16 => some .result
  | 0x17 => some .faultAddr
  | _ => none

/-- The byte offset of a register in the window (10_state.md rule R30). -/
def RegName.offset : RegName → BitVec 8
  | .id => 0x00
  | .ctrl => 0x04
  | .status => 0x08
  | .cmd => 0x0C
  | .src0 => 0x10
  | .src1 => 0x14
  | .bias => 0x18
  | .out => 0x1C
  | .thr => 0x20
  | .col => 0x24
  | .scrb => 0x28
  | .mmDim => 0x2C
  | .dwCh => 0x30
  | .dwDim => 0x34
  | .dwKs => 0x38
  | .dwPad => 0x3C
  | .zp => 0x40
  | .foldM => 0x44
  | .foldN => 0x48
  | .thrStride => 0x4C
  | .unpackCnt => 0x50
  | .unpackOfs => 0x54
  | .result => 0x58
  | .faultAddr => 0x5C

end Sys2Proof
end

