-- ==== Sys2Proof/Machine/State.lean ====
section
/-! DEFINITION. The state of the INTQ CORE and of the agents around it, as plain data, and the state after reset
(10_state.md; 70_reset_and_hazards.md rule R322). -/

namespace Sys2Proof.Machine

/-- CMD and the operand registers SRC0 .. UNPACK_OFS: the registers an accepted START copies into the snapshot
(10_state.md rules R34 to R52, R59). -/
structure OperandRegs where
  cmd : Word
  src0 : Word
  src1 : Word
  bias : Word
  out : Word
  thr : Word
  col : Word
  scrb : Word
  mmDim : Word
  dwCh : Word
  dwDim : Word
  dwKs : Word
  dwPad : Word
  zp : Word
  foldM : Word
  foldN : Word
  thrStride : Word
  unpackCnt : Word
  unpackOfs : Word
deriving DecidableEq, Repr

/-- Every operand register 0 (rule R67). -/
def OperandRegs.zero : OperandRegs :=
  ⟨0, 0, 0, 0, 0, 0, 0, 0, 0, 0, 0, 0, 0, 0, 0, 0, 0, 0, 0⟩

/-- The phase of the CORE, mirrored in STATUS.BUSY (rule R58). -/
inductive Phase where
  | idle
  | busy
deriving DecidableEq, Repr

/-- The completion codes; codes 4 to 15 are never produced (60_exceptions.md rule R291). -/
inductive CompletionCode where
  | ok
  | sizeMismatch
  | illegalCmd
  | busError
deriving DecidableEq, Repr

/-- The four 32-bit accumulators `acc[i][j]` of the MAC array (rule R60). -/
structure MacArray where
  a00 : Word
  a01 : Word
  a10 : Word
  a11 : Word
deriving DecidableEq, Repr

/-- The four 32-bit lane accumulators of the depthwise engine (rule R61). -/
structure LaneAccs where
  l0 : Word
  l1 : Word
  l2 : Word
  l3 : Word
deriving DecidableEq, Repr

/-- A packer's byte buffer and its slot counter (rule R62). -/
structure PackBuf where
  buf : Byte
  slot : Nat
deriving DecidableEq, Repr

/-- The sequencer's loop indices (rule R63): MM row pair and column; DW output row, column, channel and kernel cell;
UNPACK element. -/
structure Sequencer where
  row : Nat
  col : Nat
  oy : Nat
  ox : Nat
  chan : Nat
  ky : Nat
  kx : Nat
  elem : Nat
deriving DecidableEq, Repr

/-- Data memory: the listed bytes, addresses strictly rising, none equal to what an unlisted address reads as
(20_memory.md rule R80). -/
structure Memory where
  cells : List Host.Cell
deriving DecidableEq, Repr

/-- The bytes `base, base + 1, ..` of a range, modulo 2^32 (00_scope.md rule R17). -/
structure ByteRange where
  base : Word
  len : Nat
deriving DecidableEq, Repr

/-- The read set and the separately filled regions of the write set of an operation (20_memory.md rule R100). -/
structure OpSets where
  rs : List ByteRange
  ws : List ByteRange
deriving DecidableEq, Repr

/-- The platform's parameters, OPEN in the spec (00_scope.md rule R8), as plain data. -/
structure Platform where
  /-- Bits 31:8 of CORE_BASE, so that the base is aligned to 256 bytes. -/
  corePage : BitVec 24
  /-- IRQ_LINE (60_exceptions.md rule R300). -/
  irqLine : Nat
  /-- The bytes, besides the CORE's own window, that fail MEM_OK (20_memory.md rule R82). -/
  refused : List ByteRange
  /-- The bytes with read side effects (20_memory.md rule R88). -/
  sideEffect : List ByteRange
deriving DecidableEq, Repr

/-- The width of a HOST access. -/
inductive AccessSize where
  | byte
  | half
  | word
deriving DecidableEq, Repr

/-- One step of the HOST or of the platform (00_scope.md rule R9; 30_encoding.md rule R133). -/
inductive HostStep where
  /-- A write of `size` at a bus address: a register write in the window, a data-memory write elsewhere. -/
  | write (addr : Word) (size : AccessSize) (value : Word)
  /-- A read of `size` at a bus address into a HOST temporary. -/
  | read (addr : Word) (size : AccessSize) (temp : Nat)
  /-- BNZ t & mask, label. -/
  | bnz (temp : Nat) (mask : Word) (target : Nat)
  /-- BZ t & mask, label. -/
  | bz (temp : Nat) (mask : Word) (target : Nat)
  /-- The HOST's own wait on one input of its interrupt controller (40_control.md rule R159). -/
  | waitIrq (line : Nat)
  /-- The platform asserts the CORE's reset input (70_reset_and_hazards.md rule R320). -/
  | assertReset
  /-- The platform changes MEM_OK, which it can only while no operation is BUSY (20_memory.md rule R82). -/
  | remap (refused : List ByteRange)
deriving DecidableEq, Repr

/-- The HOST: the steps of its program, its position, and its temporaries (a canonical list, unlisted ones 0). -/
structure HostAgent where
  prog : List HostStep
  pos : Nat
  temps : List (Nat × Word)
deriving DecidableEq, Repr

/-- The whole state. The fields from `schedule` on are the model's own (INVENTORY.md, State). -/
structure State where
  /-- The live registers CMD, SRC0 .. UNPACK_OFS. -/
  ops : OperandRegs
  /-- CTRL.IRQ_EN (rule R32). -/
  irqEn : Bool
  /-- STATUS.BUSY (rules R33, R58). -/
  phase : Phase
  /-- STATUS.DONE (rule R33). -/
  done : Bool
  /-- STATUS.OVERRUN (rule R33). -/
  overrun : Bool
  /-- STATUS.ERRCODE (rule R33). -/
  errcode : CompletionCode
  /-- RESULT (rule R53). -/
  result : Word
  /-- FAULT_ADDR (rule R54). -/
  faultAddr : Word
  /-- The snapshot taken at the accepted START (rule R59). -/
  snap : OperandRegs
  /-- The MAC array's accumulators (rule R60). -/
  mac : MacArray
  /-- The depthwise engine's lane accumulators (rule R61). -/
  lanes : LaneAccs
  /-- The packer's buffer of the first output region (rule R62). -/
  packer0 : PackBuf
  /-- The packer's buffer of the second output region (rule R62). -/
  packer1 : PackBuf
  /-- The sequencer's indices (rule R63). -/
  seq : Sequencer
  /-- The reset input (60_exceptions.md rule R310). -/
  resetIn : Bool
  /-- Data memory (20_memory.md rule R80). -/
  mem : Memory
  /-- The platform's parameters (00_scope.md rule R8). -/
  platform : Platform
  /-- The HOST's remaining program. -/
  host : HostAgent
  /-- For each operation still to start, how many HOST steps it stays BUSY (rule R333; log entry 4). -/
  schedule : List Nat
  /-- How many HOST steps the running operation still stays BUSY (rule R333; log entry 4). -/
  delay : Nat
  /-- A START was accepted and the HOST has not observed the completion yet (20_memory.md rule R103; log entry 9). -/
  unobserved : Bool
  /-- The HOST wrote a byte of the running operation's RS (20_memory.md rule R103; log entry 8). -/
  rsWritten : Bool
  /-- The bytes of the running operation's WS that the HOST wrote (20_memory.md rule R103; log entry 8). -/
  hostWrote : List Word
  /-- The number of draws of free values made so far (log entry 5). -/
  draws : Nat
deriving DecidableEq, Repr

/-- Why the machine stops with a fault. -/
inductive Fault where
  /-- A HOST access that touches the register window and is not a 32-bit transfer to a word-aligned offset: the HOST step
  faults (20_memory.md rule R113; 93_implementation_defined.md U9). Raised by the HOST's read and write steps. Safe: the
  spec gives such an access no effect. -/
  | windowAccess
deriving DecidableEq, Repr

/-- Why a step is refused. -/
inductive Refusal where
  /-- An instruction without a meaning yet, by its mnemonic. No arm of exec answers it: every instruction has a meaning.
  Safe. -/
  | notModelled (mnemonic : String)
  /-- An operation whose read or write set holds a byte with read side effects, or a HOST data access to such a byte
  (20_memory.md rule R88; 93_implementation_defined.md U10). Raised by every operation's meaning and by the HOST's read
  and write steps. Safe: the spec leaves the device's behaviour outside. -/
  | sideEffectMemory
deriving DecidableEq, Repr

/-- What one step answers. -/
abbrev StepOutcome := Host.Outcome State Fault Refusal

/-- The machine right after reset (70_reset_and_hazards.md rule R322), with no HOST program placed, memory with nothing
listed, and the platform's parameters at the values log entries 2 and 3 name. -/
def State.reset : State where
  ops := OperandRegs.zero
  irqEn := false
  phase := .idle
  done := false
  overrun := false
  errcode := .ok
  result := 0
  faultAddr := 0
  snap := OperandRegs.zero
  mac := ⟨0, 0, 0, 0⟩
  lanes := ⟨0, 0, 0, 0⟩
  packer0 := ⟨0, 0⟩
  packer1 := ⟨0, 0⟩
  seq := ⟨0, 0, 0, 0, 0, 0, 0, 0⟩
  resetIn := false
  mem := ⟨[]⟩
  platform := ⟨Config.resetCorePage, Config.resetIrqLine, [], []⟩
  host := ⟨[], 0, []⟩
  schedule := []
  delay := 0
  unobserved := false
  rsWritten := false
  hostWrote := []
  draws := 0

end Sys2Proof.Machine
end

