-- ==== Sys2Proof/Machine/Ops.lean ====
section
/-! DEFINITION. The named operations over memory and registers: byte memory in canonical form, little-endian loads, byte
ranges and MEM_OK, the free values of a write set, the completion of an operation (the CORE's "exception entry", 60_exceptions.md
rules R292, R298), what returns from it (the acknowledge, rule R299), and reset. -/

namespace Sys2Proof.Machine

/-! Canonical cell lists: keys strictly rising, no value equal to the default `d`. -/

/-- The value at a key; `d` where the list has none. -/
def cellGet {α : Type} (d : α) : List (Nat × α) → Nat → α
  | [], _ => d
  | (k, v) :: l, a => if a < k then d else if a = k then v else cellGet d l a

/-- The list with a value put at a key; putting the default removes the entry. -/
def cellSet {α : Type} [DecidableEq α] (d : α) : List (Nat × α) → Nat → α → List (Nat × α)
  | [], a, v => if v = d then [] else [(a, v)]
  | (k, w) :: l, a, v =>
    if a < k then (if v = d then (k, w) :: l else (a, v) :: (k, w) :: l)
    else if a = k then (if v = d then l.dropWhile (fun c => c.1 ≤ a) else (a, v) :: l)
    else (k, w) :: cellSet d l a v

/-- The canonical form: keys strictly rising and no entry equal to the default. -/
abbrev cellsWf {α : Type} [DecidableEq α] (d : α) (l : List (Nat × α)) : Prop :=
  (l.map Prod.fst).Pairwise (· < ·) ∧ ∀ c ∈ l, c.2 ≠ d

/-- The byte at an address (20_memory.md rule R88: a read returns the last value written). -/
def Memory.read (m : Memory) (a : Word) : Byte := cellGet Config.unlistedByte m.cells a.toNat

/-- Memory with a byte written. -/
def Memory.write (m : Memory) (a : Word) (v : Byte) : Memory := ⟨cellSet Config.unlistedByte m.cells a.toNat v⟩

/-- The canonical form of memory: addresses below 2^32 and strictly rising, no entry equal to what an unlisted address
reads as. -/
abbrev Memory.wf (m : Memory) : Prop :=
  cellsWf Config.unlistedByte m.cells ∧ ∀ c ∈ m.cells, c.1 < 2 ^ 32

/-- `MemRead(addr, 2)`, little-endian (00_scope.md rule R14; 20_memory.md rule R84). -/
def Memory.loadHalf (m : Memory) (a : Word) : Half := m.read (addr a 1) ++ m.read a

/-- `MemRead(addr, 4)`, little-endian. -/
def Memory.loadWord (m : Memory) (a : Word) : Word :=
  m.read (addr a 3) ++ m.read (addr a 2) ++ m.read (addr a 1) ++ m.read a

/-- Byte writes done in the order of a list. -/
def Memory.writeAll (m : Memory) (l : List (Word × Byte)) : Memory := l.foldl (fun m w => m.write w.1 w.2) m

/-- The writes of consecutive bytes from a base address. -/
def byteWrites (base : Word) (l : List Byte) : List (Word × Byte) := l.zipIdx.map fun b => (addr base b.2, b.1)

/-- `MemWrite(addr, 2, v)`, little-endian (00_scope.md rule R14). -/
def halfWrites (a : Word) (v : Half) : List (Word × Byte) := byteWrites a [v.setWidth 8, (v >>> 8).setWidth 8]

/-! Byte ranges (00_scope.md rule R17). -/

/-- The addresses of a range, in order. -/
def ByteRange.bytes (r : ByteRange) : List Word := (List.range r.len).map (addr r.base)

/-- `a` lies in the range. -/
def ByteRange.contains (r : ByteRange) (a : Word) : Bool := decide ((a - r.base).toNat < r.len)

/-- `a` lies in one of the ranges. -/
def covers (l : List ByteRange) (a : Word) : Bool := l.any (·.contains a)

/-- The addresses of several ranges, in order. -/
def allBytes (l : List ByteRange) : List Word := l.flatMap ByteRange.bytes

/-- Some byte of a list of ranges has a property. -/
def anyByte (p : Word → Bool) (l : List ByteRange) : Bool := l.any fun r => r.bytes.any p

/-- Two ranges of the list share a byte. -/
def regionsMeet : List ByteRange → Bool
  | [] => false
  | r :: l => anyByte (covers l) [r] || regionsMeet l

/-- WS meets RS, or two separately filled regions of WS overlap (20_memory.md rule R105). -/
def OpSets.overlap (c : OpSets) : Bool := anyByte (covers c.rs) c.ws || regionsMeet c.ws

/-! The platform (00_scope.md rule R8). -/

/-- `a` lies in the register window: `CORE_BASE <= a < CORE_BASE + 0x100` (30_encoding.md rule R121). -/
def Platform.inWindow (p : Platform) (a : Word) : Bool := a.extractLsb' 8 24 == p.corePage

/-- CORE_BASE. -/
def Platform.coreBase (p : Platform) : Word := p.corePage ++ (0 : BitVec 8)

/-- `MEM_OK(a)`: false inside the CORE's own window and on the platform's refused bytes (20_memory.md rule R82). -/
def Platform.memOk (p : Platform) (a : Word) : Bool := !p.inWindow a && !covers p.refused a

/-- A byte the CORE may access whose reads have side effects (20_memory.md rule R88). -/
def Platform.hasSideEffect (p : Platform) (a : Word) : Bool := p.memOk a && covers p.sideEffect a

/-- The bytes of RS ∪ WS that fail MEM_OK (60_exceptions.md rule R296). -/
def refusedBytes (p : Platform) (c : OpSets) : List Word := (allBytes (c.rs ++ c.ws)).filter fun a => !p.memOk a

/-! Free values of a write set (log entries 5, 7, 8). -/

/-- Every listed byte holds any value: draw `n`. -/
def Memory.havoc (n : Nat) (l : List Word) (m : Memory) : Memory :=
  l.foldl (fun m a => m.write a (Config.freeByte n a.toNat)) m

/-- Each listed byte, which the HOST wrote while the CORE was BUSY, holds either the HOST's value, as it stands in
`before`, or the CORE's (20_memory.md rule R103). -/
def Memory.settle (n : Nat) (l : List Word) (before after : Memory) : Memory :=
  l.foldl (fun m a => if Config.freeChoice n a.toNat then m.write a (before.read a) else m) after

/-! Completion (60_exceptions.md rule R292). -/

/-- `complete(code)`: the part every completion shares. ERRCODE is recorded, the phase becomes IDLE and DONE is set;
OVERRUN, CTRL, CMD and the operand registers are not changed. The rest forgets the model's own record of the operation. -/
def complete (code : CompletionCode) (s : State) : State :=
  { s with
    errcode := code
    phase := .idle
    done := true
    delay := 0
    rsWritten := false
    hostWrote := [] }

/-- Some byte of RS ∪ WS has read side effects (20_memory.md rule R88). -/
def touchesSideEffect (c : OpSets) (s : State) : Bool := anyByte s.platform.hasSideEffect (c.rs ++ c.ws)

/-- The values WS takes are free at a successful completion: RS and WS overlap (20_memory.md rule R105), or the HOST wrote
a byte of RS while the CORE was BUSY (rule R103). -/
def writesFree (c : OpSets) (s : State) : Bool := c.overlap || s.rsWritten

/-- Memory after a successful completion whose own writes are `writes`. -/
def okMemory (c : OpSets) (writes : List (Word × Byte)) (s : State) : Memory :=
  if writesFree c s then s.mem.havoc s.draws (allBytes c.ws)
  else Memory.settle s.draws s.hostWrote s.mem (s.mem.writeAll writes)

/-- Completion with OK: WS holds what the rules give, RESULT the operation's result address (rule R292). -/
def completeOk (c : OpSets) (writes : List (Word × Byte)) (result : Word) (s : State) : State :=
  complete .ok { s with mem := okMemory c writes s, result := result, draws := s.draws + 1 }

/-- Completion with BUS_ERROR: FAULT_ADDR receives one refused byte of RS ∪ WS, every byte of WS that satisfies MEM_OK
holds any value, RESULT is unchanged (rules R292, R296). -/
def completeBusError (c : OpSets) (s : State) : State :=
  let bad := refusedBytes s.platform c
  complete .busError
    { s with
      mem := s.mem.havoc s.draws ((allBytes c.ws).filter s.platform.memOk)
      faultAddr := bad.getD (Config.freeIndex s.draws % bad.length) s.faultAddr
      draws := s.draws + 1 }

/-- One operation run to its completion step, given its read and write sets, its own writes, its result address and what
it leaves in the hidden working registers (rules R9, R292, R296). -/
def runOp (c : OpSets) (writes : List (Word × Byte)) (result : Word) (hidden : State → State) (s : State) : StepOutcome :=
  if touchesSideEffect c s then .refused .sideEffectMemory
  else if refusedBytes s.platform c = [] then .next (hidden (completeOk c writes result s))
  else .next (completeBusError c s)

/-- Return from a completion: a write of 1 to DONE and to OVERRUN clears them; ERRCODE, RESULT and FAULT_ADDR stay
(40_control.md rule R154; 60_exceptions.md rule R299). -/
def acknowledge (v : Word) (s : State) : State :=
  { s with done := s.done && !v.getLsbD 1, overrun := s.overrun && !v.getLsbD 2 }

end Sys2Proof.Machine
end

