-- ==== Sys2Proof/Machine/Packer.lean ====
section
/-! DEFINITION. sub_byte_output_packer (44_packer.md): a byte buffer and a slot counter per region; each byte is assembled
in the buffer and written once. -/

namespace Sys2Proof.Machine

/-- A level put into the next slot of the buffer, which is cleared when a byte is begun; the byte is emitted when its last
slot is filled (rule R233). The level keeps its low `k` bits (rule R232). -/
def PackBuf.push (k level : Nat) (p : PackBuf) : PackBuf × List Byte :=
  let start : Byte := if p.slot = 0 then 0 else p.buf
  let b := start ||| BitVec.ofNat 8 (level % 2 ^ k * 2 ^ (k * p.slot))
  if p.slot + 1 = 8 / k then (⟨b, 0⟩, [b]) else (⟨b, p.slot + 1⟩, [])

/-- The end of a region: a byte that was begun is written, its upper slots 0 (rule R233). -/
def PackBuf.flush (p : PackBuf) : PackBuf × List Byte := if p.slot = 0 then (p, []) else (⟨p.buf, 0⟩, [p.buf])

/-- The levels pushed in order, then the region's end: the buffer left and the bytes emitted. -/
def PackBuf.run (k : Nat) : List Nat → PackBuf → PackBuf × List Byte
  | [], p => p.flush
  | l :: ls, p =>
    let (p1, out) := p.push k l
    let (p2, rest) := PackBuf.run k ls p1
    (p2, out ++ rest)

/-- `PACK` of a region (rule R231): a region begins a byte, whatever the buffer held. -/
def packRegion (k : Nat) (levels : List Nat) (p : PackBuf) : PackBuf × List Byte := PackBuf.run k levels { p with slot := 0 }

end Sys2Proof.Machine
end

