-- ==== Sys2Proof/Machine/Operands.lean ====
section
/-! DEFINITION. Operand assembly from the snapshot registers (30_encoding.md rule R128; 10_state.md rules R42 to R52), every
tensor layout of 20_memory.md (rules R89 to R99), and the variants a command word selects (45_matmul.md rule R245,
41_decoder.md rule R175). -/

namespace Sys2Proof.Machine

/-- A field of 16 bits of a register, zero-extended. -/
def field16 (w : Word) (lo : Nat) : Nat := (w.extractLsb' lo 16).toNat

/-- A field of 8 bits of a register, zero-extended. -/
def field8 (w : Word) (lo : Nat) : Nat := (w.extractLsb' lo 8).toNat

/-- MM_DIM.ROWS, `R` (rule R42). -/
def OperandRegs.rows (o : OperandRegs) : Nat := field16 o.mmDim 0
/-- MM_DIM.COLS, `N` (rule R42). -/
def OperandRegs.cols (o : OperandRegs) : Nat := field16 o.mmDim 16
/-- DW_CH.CH_IN (rule R43). -/
def OperandRegs.chIn (o : OperandRegs) : Nat := field16 o.dwCh 0
/-- DW_CH.CH_OUT (rule R43). -/
def OperandRegs.chOut (o : OperandRegs) : Nat := field16 o.dwCh 16
/-- DW_DIM.IN_DIM, `D` (rule R44). -/
def OperandRegs.inDim (o : OperandRegs) : Nat := field16 o.dwDim 0
/-- DW_DIM.OUT_DIM, `OD` (rule R44). -/
def OperandRegs.outDim (o : OperandRegs) : Nat := field16 o.dwDim 16
/-- DW_KS.KDIM, `K` (rule R45). -/
def OperandRegs.kdim (o : OperandRegs) : Nat := field8 o.dwKs 0
/-- DW_KS.STRIDE, `S` (rule R45). -/
def OperandRegs.stride (o : OperandRegs) : Nat := field8 o.dwKs 8
/-- DW_PAD.PAD_LEFT, `PL` (rule R46). PAD_RIGHT and PAD_BOTTOM enter no computation (46_depthwise.md rule R273). -/
def OperandRegs.padLeft (o : OperandRegs) : Nat := field8 o.dwPad 0
/-- DW_PAD.PAD_TOP, `PT` (rule R46). -/
def OperandRegs.padTop (o : OperandRegs) : Nat := field8 o.dwPad 16
/-- ZP.Z_A (rule R47). -/
def OperandRegs.zA (o : OperandRegs) : Nat := field8 o.zp 0
/-- ZP.Z_OUT (rule R47). -/
def OperandRegs.zOut (o : OperandRegs) : Nat := field8 o.zp 8
/-- ZP.Z_IN (rule R47). -/
def OperandRegs.zIn (o : OperandRegs) : Nat := field8 o.zp 16
/-- ZP.Z_WT (rule R47). -/
def OperandRegs.zWt (o : OperandRegs) : Nat := field8 o.zp 24
/-- `m = sext_32(FOLD_M)` (rule R48). -/
def OperandRegs.m (o : OperandRegs) : Int := o.foldM.toInt
/-- `n_zero = sext_8(FOLD_N[7:0])` (rule R49). -/
def OperandRegs.nZero (o : OperandRegs) : Int := (o.foldN.extractLsb' 0 8).toInt
/-- UNPACK_CNT.COUNT (rule R51). -/
def OperandRegs.count (o : OperandRegs) : Nat := o.unpackCnt.toNat
/-- UNPACK_OFS.OFFSET (rule R52). -/
def OperandRegs.offset (o : OperandRegs) : Nat := field8 o.unpackOfs 0

/-- The stride of the threshold table for output width `k`: THR_STRIDE, or the dense `2^k - 1` when it is 0
(20_memory.md rule R95). -/
def OperandRegs.thrStep (o : OperandRegs) (k : Nat) : Nat :=
  if field16 o.thrStride 0 = 0 then 2 ^ k - 1 else field16 o.thrStride 0

/-! Variants. -/

/-- The requantization policy, POL of format MM (30_encoding.md rule R125). -/
inductive Policy where
  /-- Policy A, affine folding. -/
  | fold
  /-- Policy B, threshold classification. -/
  | thr
deriving DecidableEq, Repr

/-- The weight width, W4 of format MM. -/
inductive WeightWidth where
  | w8
  | w4
deriving DecidableEq, Repr

/-- The output width, O2 of format MM. -/
inductive LevelWidth where
  | o4
  | o2
deriving DecidableEq, Repr

/-- `k`: the number of bits of a level. -/
def LevelWidth.bits : LevelWidth → Nat
  | .o4 => 4
  | .o2 => 2

/-- What an MM command word selects (45_matmul.md rule R245). -/
structure MmVariant where
  pol : Policy
  wb : WeightWidth
  width : LevelWidth
deriving DecidableEq, Repr

/-- The element width of UNPACK, KB (30_encoding.md rule R127). -/
inductive ElementWidth where
  | b2
  | b4
  | b8
deriving DecidableEq, Repr

/-- `k`: the number of bits of a packed element. -/
def ElementWidth.bits : ElementWidth → Nat
  | .b2 => 2
  | .b4 => 4
  | .b8 => 8

/-- What an UNPACK command word selects (41_decoder.md rule R175). -/
structure UnpackVariant where
  width : ElementWidth
  reo : Bool
deriving DecidableEq, Repr

/-- What an instruction asks for. -/
inductive Operation where
  | mm (v : MmVariant)
  | dw
  | unpack (v : UnpackVariant)
deriving DecidableEq, Repr

/-- The operation each row selects (30_encoding.md rule R129). -/
def operationOf : Instr → Operation
  | .mmFoldW8O4 => .mm ⟨.fold, .w8, .o4⟩
  | .mmFoldW8O2 => .mm ⟨.fold, .w8, .o2⟩
  | .mmFoldW4O4 => .mm ⟨.fold, .w4, .o4⟩
  | .mmFoldW4O2 => .mm ⟨.fold, .w4, .o2⟩
  | .mmThrW8O4 => .mm ⟨.thr, .w8, .o4⟩
  | .mmThrW8O2 => .mm ⟨.thr, .w8, .o2⟩
  | .mmThrW4O4 => .mm ⟨.thr, .w4, .o4⟩
  | .mmThrW4O2 => .mm ⟨.thr, .w4, .o2⟩
  | .dwThrO2 => .dw
  | .unpackB2 => .unpack ⟨.b2, false⟩
  | .unpackB2R => .unpack ⟨.b2, true⟩
  | .unpackB4 => .unpack ⟨.b4, false⟩
  | .unpackB8 => .unpack ⟨.b8, false⟩

/-! Layouts. -/

/-- The byte of the MM weight `W(r, c)` (20_memory.md rules R90, R91). -/
def weightAddr (wb : WeightWidth) (o : OperandRegs) (r c : Nat) : Word :=
  match wb with
  | .w8 => addr o.src0 (r * o.cols + c)
  | .w4 => addr o.src0 (r * cdiv o.cols 2 + c / 2)

/-- The MM weight `W(r, c)`, unsigned (rules R90, R91). -/
def weight (wb : WeightWidth) (m : Memory) (o : OperandRegs) (r c : Nat) : Nat :=
  match wb with
  | .w8 => (m.read (weightAddr .w8 o r c)).toNat
  | .w4 => (m.read (weightAddr .w4 o r c)).toNat / 2 ^ (4 * (c % 2)) % 16

/-- The address of the activation `B_j[c]` (rule R93). -/
def actAddr (o : OperandRegs) (j c : Nat) : Word := addr o.src1 (2 * (j * o.cols) + 2 * c)

/-- The activation `B_j[c]`, signed 16-bit (rule R93). -/
def activation (m : Memory) (o : OperandRegs) (j c : Nat) : Half := m.loadHalf (actAddr o j c)

/-- `bias(r)`, signed 32-bit (rule R94). -/
def bias (m : Memory) (o : OperandRegs) (r : Nat) : Word := m.loadWord (addr o.bias (4 * r))

/-- The threshold `T(ch, i)`, signed 16-bit (rule R95). -/
def threshold (m : Memory) (o : OperandRegs) (k ch i : Nat) : Half :=
  m.loadHalf (addr o.thr (2 * (ch * o.thrStep k + i)))

/-- A channel's slice `T(ch, 0 .. 2^k - 2)` (rules R95, R220). -/
def thresholds (m : Memory) (o : OperandRegs) (k ch : Nat) : List Half :=
  (List.range (2 ^ k - 1)).map (threshold m o k ch)

/-- The byte of the DW input `X(y, x, c)` (rule R96). -/
def inputAddr (o : OperandRegs) (y x c : Nat) : Word := addr o.src1 ((y * o.inDim + x) * o.chIn + c)

/-- The DW input `X(y, x, c)`, unsigned. -/
def input (m : Memory) (o : OperandRegs) (y x c : Nat) : Byte := m.read (inputAddr o y x c)

/-- The DW weight `Wd(ky, kx, c)`, unsigned (rule R97). -/
def dwWeight (m : Memory) (o : OperandRegs) (ky kx c : Nat) : Byte :=
  m.read (addr o.src0 ((ky * o.kdim + kx) * o.chIn + c))

/-- The byte of the DW column buffer for cell `(ky, kx)`, channel `c` (rule R98). -/
def colAddr (o : OperandRegs) (ky kx c : Nat) : Word := addr o.col ((ky * o.kdim + kx) * o.chIn + c)

/-- The packed element `e` of a `k`-bit stream at base `p`: `field(p, k, e)` (41_decoder.md rule R172; 20_memory.md
rules R89, R99). -/
def packedField (m : Memory) (p : Word) (k e : Nat) : Nat :=
  (m.read (addr p (e * k / 8))).toNat / 2 ^ (e * k % 8) % 2 ^ k

end Sys2Proof.Machine
end

