-- ==== Sys2Proof/Machine/Requant.lean ====
section
/-! DEFINITION. affine_requantizer (Policy A) and per_channel_threshold_requantizer (Policy B) (43_requant.md). A level is
a number below `2^k`. -/

namespace Sys2Proof.Machine

/-- The left pre-shift `n1` (rule R211). -/
def preShift (nZero : Int) : Nat := if nZero < 0 then (-nZero).toNat else 0

/-- The right post-shift `n2` (rule R211). -/
def postShift (nZero : Int) : Nat := if 0 < nZero then nZero.toNat else 0

/-- The fixed-point multiply `t ⊗ m`: the upper 32 bits of the exact 64-bit product (rule R213). -/
def mulHigh (t : Word) (m : Int) : Int := asr (t.toInt * m) 32

/-- `sat_u(k)`: the clamp into `0 .. 2^k - 1` (rule R214). -/
def satU (k : Nat) (u : Int) : Int := clamp u 0 (2 ^ k - 1)

/-- `AFFINE(s, m, n_zero, k, z_out)` (rule R212); `z_out` is added after saturation and the level keeps the low `k` bits
(rule R214). -/
def affine (s : Word) (m nZero : Int) (k zOut : Nat) : Nat :=
  let t := shl32 s (preShift nZero)
  let u := asr (mulHigh t m) (postShift nZero)
  ((satU k u + zOut) % 2 ^ k).toNat

/-- The first index whose threshold exceeds `s16`, else the slice's length (rule R218). -/
def firstAbove (s16 : Half) (ts : List Half) : Nat := ts.findIdx fun t => decide (s16.toInt < t.toInt)

/-- `THRESH(s, ch, k)` (rule R218), the slice read from memory (rule R220). -/
def thresh (m : Memory) (o : OperandRegs) (s : Word) (ch k : Nat) : Nat := firstAbove (trunc16 s) (thresholds m o k ch)

end Sys2Proof.Machine
end

