-- ==== Sys2Proof/Machine/Sets.lean ====
section
/-! DEFINITION. The read and write sets of every operation, computed from its snapshot (20_memory.md rule R100;
41_decoder.md rule R176, 45_matmul.md rule R252, 46_depthwise.md rule R278). -/

namespace Sys2Proof.Machine

/-- The empty sets. -/
def OpSets.empty : OpSets := ⟨[], []⟩

/-- `P = cdiv(R*k, 8)`: the bytes of one MM output region (45_matmul.md rule R247). -/
def mmRegionLen (v : MmVariant) (o : OperandRegs) : Nat := cdiv (o.rows * v.width.bits) 8

/-- The base of region `O_j`: `OUT + j*P` (rule R247). -/
def mmRegion (v : MmVariant) (o : OperandRegs) (j : Nat) : Word := addr o.out (j * mmRegionLen v o)

/-- The bytes of the weight matrix: `R*N`, or `R*cdiv(N, 2)` for 4-bit weights (rule R252). -/
def mmWeightLen (v : MmVariant) (o : OperandRegs) : Nat :=
  match v.wb with
  | .w8 => o.rows * o.cols
  | .w4 => o.rows * cdiv o.cols 2

/-- The slices of the threshold table of channels `0 .. n-1` (rules R252, R278). -/
def thresholdSlices (o : OperandRegs) (k n : Nat) : List ByteRange :=
  (List.range n).map fun ch => ⟨addr o.thr (2 * (ch * o.thrStep k)), 2 * (2 ^ k - 1)⟩

/-- RS and WS of MM (rule R252). The write set is the two regions, filled separately (20_memory.md rule R105). -/
def mmSets (v : MmVariant) (o : OperandRegs) : OpSets :=
  if o.rows = 0 then OpSets.empty
  else
    { rs := [⟨o.src0, mmWeightLen v o⟩, ⟨o.src1, 4 * o.cols⟩, ⟨o.bias, 4 * o.rows⟩] ++
        (match v.pol with
        | .fold => []
        | .thr => thresholdSlices o v.width.bits o.rows)
      ws := [⟨mmRegion v o 0, mmRegionLen v o⟩, ⟨mmRegion v o 1, mmRegionLen v o⟩] }

/-- The output pixels `(oy, ox)`, row-major (46_depthwise.md rule R280). -/
def dwPixels (o : OperandRegs) : List (Nat × Nat) :=
  (List.range o.outDim).flatMap fun oy => (List.range o.outDim).map fun ox => (oy, ox)

/-- The kernel cells `(ky, kx)`, row-major (rule R280). -/
def dwCells (o : OperandRegs) : List (Nat × Nat) :=
  (List.range o.kdim).flatMap fun ky => (List.range o.kdim).map fun kx => (ky, kx)

/-- `iy = oy*S + ky - PT`, signed and exact (rule R273). -/
def dwY (o : OperandRegs) (oy ky : Nat) : Int := (oy * o.stride + ky : Nat) - (o.padTop : Int)

/-- `ix = ox*S + kx - PL`, signed and exact (rule R273). -/
def dwX (o : OperandRegs) (ox kx : Nat) : Int := (ox * o.stride + kx : Nat) - (o.padLeft : Int)

/-- The cell is in bounds: `0 <= iy < D` and `0 <= ix < D` (rule R273). -/
def dwInBounds (o : OperandRegs) (p cell : Nat × Nat) : Bool :=
  decide (0 ≤ dwY o p.1 cell.1 ∧ dwY o p.1 cell.1 < o.inDim ∧ 0 ≤ dwX o p.2 cell.2 ∧ dwX o p.2 cell.2 < o.inDim)

/-- `PB = cdiv(C, 4)`: the bytes of one output pixel (rule R275). -/
def dwPixelLen (o : OperandRegs) : Nat := cdiv o.chIn 4

/-- The input bytes DW reads: the `C` bytes of every in-bounds cell of every pixel (rule R278). -/
def dwInputRanges (o : OperandRegs) : List ByteRange :=
  (dwPixels o).flatMap fun p =>
    ((dwCells o).filter (dwInBounds o p)).map fun cell =>
      ⟨inputAddr o (dwY o p.1 cell.1).toNat (dwX o p.2 cell.2).toNat 0, o.chIn⟩

/-- RS and WS of DW after the channel check of rule R271 (rule R278); no set before it. The write set is the output and
the column buffer. -/
def dwSets (o : OperandRegs) : OpSets :=
  if o.chIn ≠ o.chOut ∨ o.outDim = 0 ∨ o.chIn = 0 then OpSets.empty
  else
    { rs := dwInputRanges o ++ [⟨o.src0, o.kdim * o.kdim * o.chIn⟩, ⟨o.bias, 4 * o.chIn⟩] ++ thresholdSlices o 2 o.chIn
      ws := [⟨o.out, o.outDim * o.outDim * dwPixelLen o⟩, ⟨o.col, o.kdim * o.kdim * o.chIn⟩] }

/-- RS and WS of UNPACK (41_decoder.md rule R176). -/
def unpackSets (v : UnpackVariant) (o : OperandRegs) : OpSets :=
  { rs := [⟨o.src1, cdiv (o.count * v.width.bits) 8⟩]
    ws := [⟨o.out, 2 * o.count⟩] }

/-- RS and WS of an operation (20_memory.md rule R100). -/
def operationSets (p : Operation) (o : OperandRegs) : OpSets :=
  match p with
  | .mm v => mmSets v o
  | .dw => dwSets o
  | .unpack v => unpackSets v o

/-- The address just past the output of an operation, which RESULT receives on OK: MM past region `O_1` (45_matmul.md rule
R253), DW past the last pixel (46_depthwise.md rule R279), UNPACK past the last element (41_decoder.md rule R178). -/
def operationResult (p : Operation) (o : OperandRegs) : Word :=
  match p with
  | .mm v => addr o.out (2 * mmRegionLen v o)
  | .dw => addr o.out (o.outDim * o.outDim * dwPixelLen o)
  | .unpack _ => addr o.out (2 * o.count)

/-- RS and WS of the operation a snapshot names; a word that is no command touches nothing (30_encoding.md rule R124). -/
def snapshotSets (o : OperandRegs) : OpSets :=
  match decodeWord o.cmd with
  | .ok i => operationSets (operationOf i) o
  | .error _ => OpSets.empty

end Sys2Proof.Machine
end

