-- ==== Sys2Proof/Machine/Depthwise.lean ====
section
/-! DEFINITION. depthwise_conv_engine and the command DW.THR.O2 (46_depthwise.md). -/

namespace Sys2Proof.Machine

/-- Every lane accumulator updated by a function of its lane and its value (10_state.md rule R61). -/
def LaneAccs.update (f : Nat → Word → Word) (a : LaneAccs) : LaneAccs := ⟨f 0 a.l0, f 1 a.l1, f 2 a.l2, f 3 a.l3⟩

/-- The four lanes in order. -/
def LaneAccs.toList (a : LaneAccs) : List Word := [a.l0, a.l1, a.l2, a.l3]

/-- One cell of one lane: `wrap32(a + (X - z_in) * (Wd - z_wt))` (rule R280). -/
def laneMac (a : Word) (x : Byte) (zIn : Nat) (w : Byte) (zWt : Nat) : Word :=
  wrap32 (a.toInt + ((x.toNat : Int) - zIn) * ((w.toNat : Int) - zWt))

/-- The byte staged for a cell: the input byte in bounds, 0 in the padding (rule R276). -/
def stagedByte (m : Memory) (o : OperandRegs) (p cell : Nat × Nat) (c : Nat) : Byte :=
  if dwInBounds o p cell then input m o (dwY o p.1 cell.1).toNat (dwX o p.2 cell.2).toNat c else 0

/-- The im2col writes of one pixel (rules R276, R280). -/
def im2colWrites (m : Memory) (o : OperandRegs) (p : Nat × Nat) : List (Word × Byte) :=
  (dwCells o).flatMap fun cell =>
    (List.range o.chIn).map fun c => (colAddr o cell.1 cell.2 c, stagedByte m o p cell c)

/-- One kernel cell accumulated into the lanes of group `g`: a padding cell contributes 0 (rules R274, R276). Lane `l` is
channel `4g + l`; lanes past the last channel are not touched. -/
def laneCell (m : Memory) (o : OperandRegs) (p : Nat × Nat) (g : Nat) (a : LaneAccs) (cell : Nat × Nat) : LaneAccs :=
  if dwInBounds o p cell then
    a.update fun l v =>
      if 4 * g + l < o.chIn then
        laneMac v (stagedByte m o p cell (4 * g + l)) o.zIn (dwWeight m o cell.1 cell.2 (4 * g + l)) o.zWt
      else v
  else a

/-- The lanes of group `g`: initialised with the bias, then every cell (rules R61, R274, R280). -/
def laneGroup (m : Memory) (o : OperandRegs) (p : Nat × Nat) (g : Nat) (a : LaneAccs) : LaneAccs :=
  (dwCells o).foldl (laneCell m o p g)
    (a.update fun l v => if 4 * g + l < o.chIn then bias m o (4 * g + l) else v)

/-- The levels of the channels of group `g` (rule R275). -/
def groupLevels (m : Memory) (o : OperandRegs) (g : Nat) (a : LaneAccs) : List Nat :=
  (a.toList.take (o.chIn - 4 * g)).zipIdx.map fun v => thresh m o v.1 (4 * g + v.2) 2

/-- The channels of one pixel in groups of four: the lanes left and the levels in channel order (rule R274). -/
def pixelLevels (m : Memory) (o : OperandRegs) (p : Nat × Nat) (a : LaneAccs) : LaneAccs × List Nat :=
  (List.range (cdiv o.chIn 4)).foldl
    (fun e g => let b := laneGroup m o p g e.1; (b, e.2 ++ groupLevels m o g b)) (a, [])

/-- The engine between pixels: the lanes, the packer's buffer and the writes so far. -/
structure DwRun where
  lanes : LaneAccs
  pack : PackBuf
  writes : List (Word × Byte)
deriving DecidableEq, Repr

/-- The first byte of an output pixel: `OUT + (oy*OD + ox)*PB` (rule R275). -/
def dwPixelAddr (o : OperandRegs) (p : Nat × Nat) : Word := addr o.out ((p.1 * o.outDim + p.2) * dwPixelLen o)

/-- One output pixel: im2col, accumulation and classification, packing (rule R280). -/
def dwPixel (m : Memory) (o : OperandRegs) (e : DwRun) (p : Nat × Nat) : DwRun :=
  let lv := pixelLevels m o p e.lanes
  let pk := packRegion 2 lv.2 e.pack
  { lanes := lv.1
    pack := pk.1
    writes := e.writes ++ im2colWrites m o p ++ byteWrites (dwPixelAddr o p) pk.2 }

/-- Every output pixel, row-major (rule R280). -/
def dwRun (m : Memory) (o : OperandRegs) (a : LaneAccs) (b : PackBuf) : DwRun :=
  (dwPixels o).foldl (dwPixel m o) ⟨a, b, []⟩

/-- What DW leaves in the hidden working registers (10_state.md rules R61, R62, R63; unspecified and unread between
operations, log entry 11). -/
def leaveDw (o : OperandRegs) (e : DwRun) (t : State) : State :=
  { t with
    lanes := e.lanes
    packer0 := e.pack
    seq := { t.seq with oy := o.outDim, ox := o.outDim, chan := o.chIn, ky := o.kdim, kx := o.kdim } }

/-- The whole DW operation: the channel check of rule R271, then rule R280; RESULT as rule R279. With `C = 0` or `OD = 0`
its sets and its writes are empty (rule R278). -/
def runDw (s : State) : StepOutcome :=
  let o := s.snap
  if o.chIn ≠ o.chOut then .next (complete .sizeMismatch s)
  else
    let e := dwRun s.mem o s.lanes s.packer0
    runOp (dwSets o) e.writes (operationResult .dw o) (leaveDw o e) s

/-- DW.THR.O2 (rule R281). -/
def execDwThrO2 (s : State) : StepOutcome := runDw s

end Sys2Proof.Machine
end

