-- ==== Sys2Proof/Machine/Mac.lean ====
section
/-! DEFINITION. packed_dot_product_accumulator and tiled_mac_array (42_mac.md). -/

namespace Sys2Proof.Machine

/-- `DMAC(acc, a, b) = wrap32(acc + a_lo*b_lo + a_hi*b_hi)` (rule R190). -/
def dmac (acc : Word) (aLo aHi bLo bHi : Half) : Word :=
  wrap32 (acc.toInt + aLo.toInt * bLo.toInt + aHi.toInt * bHi.toInt)

/-- A weight's lane: zero-extended to 16 bits (rule R193). -/
def weightLane (wb : WeightWidth) (m : Memory) (o : OperandRegs) (r c : Nat) : Half :=
  BitVec.ofNat 16 (weight wb m o r c)

/-- Every accumulator `acc[i][j]` updated by a function of `i`, `j` and its value. -/
def MacArray.update (f : Nat → Nat → Word → Word) (a : MacArray) : MacArray :=
  ⟨f 0 0 a.a00, f 0 1 a.a01, f 1 0 a.a10, f 1 1 a.a11⟩

/-- The sum of column `B_j` modulo 2^32 (rule R196). -/
def columnSum (m : Memory) (o : OperandRegs) (j : Nat) : Word :=
  (List.range o.cols).foldl (fun s c => wrap32 (s.toInt + (activation m o j c).toInt)) 0

/-- The weight zero-point pre-sum `zoff[j]` (rule R196). -/
def zeroOffset (m : Memory) (o : OperandRegs) (j : Nat) : Word := wrap32 (o.zA * (columnSum m o j).toInt)

/-- Row `r + i` of the row pair `r` exists; the last pair of an odd `R` has only row `r` (rule R194). -/
def rowActive (o : OperandRegs) (r i : Nat) : Bool := decide (r + i < o.rows)

/-- Initialisation of a row pair: bias minus the pre-sum (rule R195). The accumulators of an absent row are not touched. -/
def macInit (m : Memory) (o : OperandRegs) (z0 z1 : Word) (r : Nat) : MacArray → MacArray :=
  MacArray.update fun i j a =>
    if rowActive o r i then wrap32 ((bias m o (r + i)).toInt - (if j = 0 then z0 else z1).toInt) else a

/-- Accumulation step `t`: columns `2t` and `2t + 1` (rule R197). -/
def macStep (wb : WeightWidth) (m : Memory) (o : OperandRegs) (r t : Nat) : MacArray → MacArray :=
  MacArray.update fun i j a =>
    if rowActive o r i then
      dmac a (weightLane wb m o (r + i) (2 * t)) (weightLane wb m o (r + i) (2 * t + 1))
        (activation m o j (2 * t)) (activation m o j (2 * t + 1))
    else a

/-- The tail step of an odd `N`: the last column with a zero lane (rule R198). -/
def macTail (wb : WeightWidth) (m : Memory) (o : OperandRegs) (r : Nat) : MacArray → MacArray :=
  if o.cols % 2 = 1 then
    MacArray.update fun i j a =>
      if rowActive o r i then dmac a (weightLane wb m o (r + i) (o.cols - 1)) 0 (activation m o j (o.cols - 1)) 0 else a
  else id

/-- The array run over one row pair (rules R195, R197, R198). -/
def macPair (wb : WeightWidth) (m : Memory) (o : OperandRegs) (z0 z1 : Word) (r : Nat) (a : MacArray) : MacArray :=
  macTail wb m o r ((List.range (o.cols / 2)).foldl (fun a t => macStep wb m o r t a) (macInit m o z0 z1 r a))

end Sys2Proof.Machine
end

