-- ==== Sys2Proof/Machine/MatMul.lean ====
section
/-! DEFINITION. quantized_matmul_engine and the eight MM commands (45_matmul.md). -/

namespace Sys2Proof.Machine

/-- `level(r, j)` from the accumulator (rule R249). For the threshold policy the channel id is the row. -/
def requantize (v : MmVariant) (m : Memory) (o : OperandRegs) (acc : Word) (r : Nat) : Nat :=
  match v.pol with
  | .fold => affine acc o.m o.nZero v.width.bits o.zOut
  | .thr => thresh m o acc r v.width.bits

/-- The engine between row pairs: the array and the levels of both columns so far. -/
structure MmRun where
  mac : MacArray
  lv0 : List Nat
  lv1 : List Nat
deriving DecidableEq, Repr

/-- One row pair (rule R251): the array runs, then the rows that exist are requantized in order. -/
def mmPair (v : MmVariant) (m : Memory) (o : OperandRegs) (z0 z1 : Word) (e : MmRun) (r : Nat) : MmRun :=
  let a := macPair v.wb m o z0 z1 r e.mac
  { mac := a
    lv0 := e.lv0 ++ requantize v m o a.a00 r :: (if rowActive o r 1 then [requantize v m o a.a10 (r + 1)] else [])
    lv1 := e.lv1 ++ requantize v m o a.a01 r :: (if rowActive o r 1 then [requantize v m o a.a11 (r + 1)] else []) }

/-- The row pairs `r = 0, 2, 4, ..` while `r < R` (rules R246, R251). -/
def mmRows (v : MmVariant) (m : Memory) (o : OperandRegs) (a : MacArray) : MmRun :=
  (List.range (cdiv o.rows 2)).foldl
    (fun e i => mmPair v m o (zeroOffset m o 0) (zeroOffset m o 1) e (2 * i)) ⟨a, [], []⟩

/-- What MM leaves in the hidden working registers (10_state.md rules R60, R62, R63; unspecified and unread between
operations, log entry 11). -/
def leaveMm (o : OperandRegs) (a : MacArray) (p0 p1 : PackBuf) (t : State) : State :=
  { t with
    mac := a
    packer0 := p0
    packer1 := p1
    seq := { t.seq with row := o.rows, col := o.cols } }

/-- The whole MM operation (rule R251): both regions packed, RESULT past the second (rule R253). -/
def runMm (v : MmVariant) (s : State) : StepOutcome :=
  let o := s.snap
  let e := mmRows v s.mem o s.mac
  let p0 := packRegion v.width.bits e.lv0 s.packer0
  let p1 := packRegion v.width.bits e.lv1 s.packer1
  runOp (mmSets v o) (byteWrites (mmRegion v o 0) p0.2 ++ byteWrites (mmRegion v o 1) p1.2)
    (operationResult (.mm v) o) (leaveMm o e.mac p0.1 p1.1) s

/-- MM.FOLD.W8.O4 (rule R255). -/
def execMmFoldW8O4 (s : State) : StepOutcome := runMm ⟨.fold, .w8, .o4⟩ s

/-- MM.FOLD.W8.O2 (rule R256). -/
def execMmFoldW8O2 (s : State) : StepOutcome := runMm ⟨.fold, .w8, .o2⟩ s

/-- MM.FOLD.W4.O4 (rule R257). -/
def execMmFoldW4O4 (s : State) : StepOutcome := runMm ⟨.fold, .w4, .o4⟩ s

/-- MM.FOLD.W4.O2 (rule R258). -/
def execMmFoldW4O2 (s : State) : StepOutcome := runMm ⟨.fold, .w4, .o2⟩ s

/-- MM.THR.W8.O4 (rule R259). -/
def execMmThrW8O4 (s : State) : StepOutcome := runMm ⟨.thr, .w8, .o4⟩ s

/-- MM.THR.W8.O2 (rule R260). -/
def execMmThrW8O2 (s : State) : StepOutcome := runMm ⟨.thr, .w8, .o2⟩ s

/-- MM.THR.W4.O4 (rule R261). -/
def execMmThrW4O4 (s : State) : StepOutcome := runMm ⟨.thr, .w4, .o4⟩ s

/-- MM.THR.W4.O2 (rule R262). -/
def execMmThrW4O2 (s : State) : StepOutcome := runMm ⟨.thr, .w4, .o2⟩ s

end Sys2Proof.Machine
end

