-- ==== Sys2Proof/Machine/Unpack.lean ====
section
/-! DEFINITION. packed_lane_decoder_with_zp_subtract and the four UNPACK commands (41_decoder.md). -/

namespace Sys2Proof.Machine

/-- The packed element that output element `i` takes (rule R173). -/
def laneIndex (reo : Bool) (i : Nat) : Nat := if reo then 4 * (i / 4) + 3 - i % 4 else i

/-- The output value `v(i)`: the field minus the offset, exact, stored as 16 bits (rule R174). -/
def unpackValue (v : UnpackVariant) (m : Memory) (o : OperandRegs) (i : Nat) : Half :=
  BitVec.ofInt 16 ((packedField m o.src1 v.width.bits (laneIndex v.reo i) : Int) - o.offset)

/-- The writes of the whole decode, element by element (rules R175, R177). -/
def unpackWrites (v : UnpackVariant) (m : Memory) (o : OperandRegs) : List (Word × Byte) :=
  (List.range o.count).flatMap fun i => halfWrites (addr o.out (2 * i)) (unpackValue v m o i)

/-- What UNPACK leaves in the sequencer (10_state.md rule R63; unspecified and unread between operations, log entry 11). -/
def leaveUnpack (o : OperandRegs) (t : State) : State := { t with seq := { t.seq with elem := o.count } }

/-- The whole UNPACK operation (rule R175); RESULT as rule R178. -/
def runUnpack (v : UnpackVariant) (s : State) : StepOutcome :=
  let o := s.snap
  runOp (unpackSets v o) (unpackWrites v s.mem o) (operationResult (.unpack v) o)
    (leaveUnpack o) s

/-- UNPACK.B2 (rule R179). -/
def execUnpackB2 (s : State) : StepOutcome := runUnpack ⟨.b2, false⟩ s

/-- UNPACK.B2.R (rule R180). -/
def execUnpackB2R (s : State) : StepOutcome := runUnpack ⟨.b2, true⟩ s

/-- UNPACK.B4 (rule R181). -/
def execUnpackB4 (s : State) : StepOutcome := runUnpack ⟨.b4, false⟩ s

/-- UNPACK.B8 (rule R182). -/
def execUnpackB8 (s : State) : StepOutcome := runUnpack ⟨.b8, false⟩ s

end Sys2Proof.Machine
end

