-- ==== Sys2Proof/Machine/Dispatch.lean ====
section
/-! DEFINITION. The dispatch of an instruction to its meaning. -/

namespace Sys2Proof.Machine

def exec (i : Instr) (s : State) : Host.Outcome State Fault Refusal :=
  match i with
  | .mmFoldW8O4 => Sys2Proof.Machine.execMmFoldW8O4 s
  | .mmFoldW8O2 => Sys2Proof.Machine.execMmFoldW8O2 s
  | .mmFoldW4O4 => Sys2Proof.Machine.execMmFoldW4O4 s
  | .mmFoldW4O2 => Sys2Proof.Machine.execMmFoldW4O2 s
  | .mmThrW8O4 => Sys2Proof.Machine.execMmThrW8O4 s
  | .mmThrW8O2 => Sys2Proof.Machine.execMmThrW8O2 s
  | .mmThrW4O4 => Sys2Proof.Machine.execMmThrW4O4 s
  | .mmThrW4O2 => Sys2Proof.Machine.execMmThrW4O2 s
  | .dwThrO2 => Sys2Proof.Machine.execDwThrO2 s
  | .unpackB2 => Sys2Proof.Machine.execUnpackB2 s
  | .unpackB2R => Sys2Proof.Machine.execUnpackB2R s
  | .unpackB4 => Sys2Proof.Machine.execUnpackB4 s
  | .unpackB8 => Sys2Proof.Machine.execUnpackB8 s

end Sys2Proof.Machine
end

