-- ==== Sys2Proof/Machine/Flags.lean ====
section
/-! DEFINITION. The status bits of the CORE and the `irq` level. The CORE has no condition codes and no arithmetic flags
(10_state.md rule R66). -/

namespace Sys2Proof.Machine

/-- The number of a completion code in STATUS.ERRCODE (60_exceptions.md rule R291). -/
def CompletionCode.bits : CompletionCode → BitVec 4
  | .ok => 0
  | .sizeMismatch => 1
  | .illegalCmd => 2
  | .busError => 3

/-- STATUS.BUSY (10_state.md rule R58). -/
def State.busy (s : State) : Bool := s.phase == .busy

/-- STATUS as read: ERRCODE in [7:4], OVERRUN in [2], DONE in [1], BUSY in [0]; the rest 0 (10_state.md rule R33). -/
def State.statusWord (s : State) : Word :=
  (0 : BitVec 24) ++ s.errcode.bits ++ (0 : BitVec 1) ++ BitVec.ofBool s.overrun ++ BitVec.ofBool s.done
    ++ BitVec.ofBool s.busy

/-- CTRL as read: IRQ_EN in [1], START reads 0 (10_state.md rule R32). -/
def State.ctrlWord (s : State) : Word := (0 : BitVec 30) ++ BitVec.ofBool s.irqEn ++ (0 : BitVec 1)

/-- The `irq` output: `IRQ_EN AND DONE` at all times (60_exceptions.md rule R300). -/
def State.irq (s : State) : Bool := s.irqEn && s.done

/-- The level at one input of the HOST's interrupt controller: `irq` is wired to input IRQ_LINE (rule R300). Every other
input is 0: DESIGN CHOICE (log entry 28), since other sources are outside the CORE (rule R301). -/
def State.irqAt (s : State) (line : Nat) : Bool := decide (line = s.platform.irqLine) && s.irq

end Sys2Proof.Machine
end

