-- ==== Sys2Proof/Machine/Control.lean ====
section
/-! DEFINITION. The register operations of the window (40_control.md) and reset (70_reset_and_hazards.md). -/

namespace Sys2Proof.Machine

/-- Register read: RAZ fields and START read 0; a read changes nothing (40_control.md rule R150). -/
def regRead (s : State) : RegName → Word
  | .id => Config.idValue
  | .ctrl => s.ctrlWord
  | .status => s.statusWord
  | .cmd => s.ops.cmd
  | .src0 => s.ops.src0
  | .src1 => s.ops.src1
  | .bias => s.ops.bias
  | .out => s.ops.out
  | .thr => s.ops.thr
  | .col => s.ops.col
  | .scrb => s.ops.scrb
  | .mmDim => s.ops.mmDim
  | .dwCh => s.ops.dwCh
  | .dwDim => s.ops.dwDim
  | .dwKs => s.ops.dwKs
  | .dwPad => s.ops.dwPad
  | .zp => s.ops.zp
  | .foldM => s.ops.foldM
  | .foldN => s.ops.foldN
  | .thrStride => s.ops.thrStride
  | .unpackCnt => s.ops.unpackCnt
  | .unpackOfs => s.ops.unpackOfs
  | .result => s.result
  | .faultAddr => s.faultAddr

/-- The bits an operand or command register holds; reserved fields are forced to 0 (10_state.md rules R45, R49, R50, R52,
R56). A register that is not written this way holds none. -/
def writableBits : RegName → Word
  | .id => 0
  | .ctrl => 0
  | .status => 0
  | .cmd => 0xFFFFFFFF
  | .src0 => 0xFFFFFFFF
  | .src1 => 0xFFFFFFFF
  | .bias => 0xFFFFFFFF
  | .out => 0xFFFFFFFF
  | .thr => 0xFFFFFFFF
  | .col => 0xFFFFFFFF
  | .scrb => 0xFFFFFFFF
  | .mmDim => 0xFFFFFFFF
  | .dwCh => 0xFFFFFFFF
  | .dwDim => 0xFFFFFFFF
  | .dwKs => 0x0000FFFF
  | .dwPad => 0xFFFFFFFF
  | .zp => 0xFFFFFFFF
  | .foldM => 0xFFFFFFFF
  | .foldN => 0x000000FF
  | .thrStride => 0x0000FFFF
  | .unpackCnt => 0xFFFFFFFF
  | .unpackOfs => 0x000000FF
  | .result => 0
  | .faultAddr => 0

/-- Operand and command write: `reg[NAME] <- v` with reserved fields 0; the other registers are not stored to (rule R155). -/
def OperandRegs.put (o : OperandRegs) (r : RegName) (v : Word) : OperandRegs :=
  let x := v &&& writableBits r
  match r with
  | .id => o
  | .ctrl => o
  | .status => o
  | .cmd => { o with cmd := x }
  | .src0 => { o with src0 := x }
  | .src1 => { o with src1 := x }
  | .bias => { o with bias := x }
  | .out => { o with out := x }
  | .thr => { o with thr := x }
  | .col => { o with col := x }
  | .scrb => { o with scrb := x }
  | .mmDim => { o with mmDim := x }
  | .dwCh => { o with dwCh := x }
  | .dwDim => { o with dwDim := x }
  | .dwKs => { o with dwKs := x }
  | .dwPad => { o with dwPad := x }
  | .zp => { o with zp := x }
  | .foldM => { o with foldM := x }
  | .foldN => { o with foldN := x }
  | .thrStride => { o with thrStride := x }
  | .unpackCnt => { o with unpackCnt := x }
  | .unpackOfs => { o with unpackOfs := x }
  | .result => o
  | .faultAddr => o

/-- The code a snapshot completes with at once, if any: ILLEGAL_CMD before SIZE_MISMATCH (40_control.md rule R151;
60_exceptions.md rules R293, R294). -/
def immediateCode (o : OperandRegs) : Option CompletionCode :=
  match decodeWord o.cmd with
  | .error _ => some .illegalCmd
  | .ok i => if operationOf i = .dw ∧ o.chIn ≠ o.chOut then some .sizeMismatch else none

/-- START, accepted: snapshot, DONE and ERRCODE cleared, phase BUSY (rule R151). DESIGN CHOICE (log entry 27): the contract of
20_memory.md rule R103 is from here on the new operation's; where the HOST had not observed the completion before, its reads
of the earlier WS become exact. -/
def acceptStart (s : State) : State :=
  { s with
    snap := s.ops
    done := false
    errcode := .ok
    phase := .busy
    unobserved := true
    rsWritten := false
    hostWrote := []
    delay := 0 }

/-- A START request (rules R151, R152): ignored with OVERRUN while BUSY; else accepted, and completed at once where the
snapshot alone decides the code; else the operation runs, BUSY for as many HOST steps as the schedule gives it (rule R333). -/
def requestStart (s : State) : State :=
  match s.phase with
  | .busy => { s with overrun := true }
  | .idle =>
    match immediateCode s.ops with
    | some code => complete code (acceptStart s)
    | none => { acceptStart s with delay := s.schedule.headD 0, schedule := s.schedule.tail }

/-- A write to CTRL: IRQ_EN first, then START if bit [0] is 1 (10_state.md rule R32; 40_control.md rule R153). -/
def writeCtrl (v : Word) (s : State) : State :=
  let t := { s with irqEn := v.getLsbD 1 }
  if v.getLsbD 0 then requestStart t else t

/-- A register write (rules R151 to R156). -/
def regWrite (r : RegName) (v : Word) (s : State) : State :=
  match r with
  | .id => s
  | .ctrl => writeCtrl v s
  | .status => acknowledge v s
  | .cmd => { s with ops := s.ops.put .cmd v }
  | .src0 => { s with ops := s.ops.put .src0 v }
  | .src1 => { s with ops := s.ops.put .src1 v }
  | .bias => { s with ops := s.ops.put .bias v }
  | .out => { s with ops := s.ops.put .out v }
  | .thr => { s with ops := s.ops.put .thr v }
  | .col => { s with ops := s.ops.put .col v }
  | .scrb => { s with ops := s.ops.put .scrb v }
  | .mmDim => { s with ops := s.ops.put .mmDim v }
  | .dwCh => { s with ops := s.ops.put .dwCh v }
  | .dwDim => { s with ops := s.ops.put .dwDim v }
  | .dwKs => { s with ops := s.ops.put .dwKs v }
  | .dwPad => { s with ops := s.ops.put .dwPad v }
  | .zp => { s with ops := s.ops.put .zp v }
  | .foldM => { s with ops := s.ops.put .foldM v }
  | .foldN => { s with ops := s.ops.put .foldN v }
  | .thrStride => { s with ops := s.ops.put .thrStride v }
  | .unpackCnt => { s with ops := s.ops.put .unpackCnt v }
  | .unpackOfs => { s with ops := s.ops.put .unpackOfs v }
  | .result => s
  | .faultAddr => s

/-- A read of the window at a word index; reserved offsets read 0 (10_state.md rule R55; 40_control.md rule R150). -/
def windowRead (s : State) (x : BitVec 6) : Word :=
  match RegName.ofIndex x with
  | some r => regRead s r
  | none => 0

/-- A write of the window at a word index; reserved offsets ignore it (10_state.md rule R55; 40_control.md rule R156). -/
def windowWrite (x : BitVec 6) (v : Word) (s : State) : State :=
  match RegName.ofIndex x with
  | some r => regWrite r v s
  | none => s

/-- The HOST has observed the end of the operation: the contract of 20_memory.md rule R103 is closed. -/
def observe (s : State) : State := { s with unobserved := false }

/-- Reading STATUS with BUSY = 0 observes the completion; no other read does (20_memory.md rules R103, R104; 40_control.md
rule R157). Only the model's own record changes: the read has no side effect on the CORE (rule R150). -/
def afterRead (x : BitVec 6) (s : State) : State :=
  if RegName.ofIndex x = some .status ∧ s.phase = .idle then observe s else s

/-- The CORE's reset (70_reset_and_hazards.md rules R320 to R322): every register at its reset value, phase IDLE. A running
operation is abandoned and every byte of its WS holds any value; data memory is not changed otherwise. Hidden state is
unspecified and unread: left as it is (log entry 11). The platform and the HOST are not reset. -/
def coreReset (s : State) : State :=
  { s with
    ops := OperandRegs.zero
    irqEn := false
    phase := .idle
    done := false
    overrun := false
    errcode := .ok
    result := 0
    faultAddr := 0
    resetIn := false
    mem := match s.phase with
      | .busy => s.mem.havoc s.draws (allBytes (snapshotSets s.snap).ws)
      | .idle => s.mem
    delay := 0
    unobserved := false
    rsWritten := false
    hostWrote := []
    draws := s.draws + 1 }

end Sys2Proof.Machine
end

