-- ==== Sys2Proof/Machine/HostPort.lean ====
section
/-! DEFINITION. The HOST's steps: accesses to the register window and to data memory, branches on its temporaries, waiting
on `irq` (00_scope.md rule R9; 20_memory.md rules R101 to R104, R113; 30_encoding.md rules R121, R133, R134). -/

namespace Sys2Proof.Machine

/-- The bytes of an access. -/
def AccessSize.bytes : AccessSize → Nat
  | .byte => 1
  | .half => 2
  | .word => 4

/-- A HOST temporary; one that nothing has written is 0 (log entry 14). -/
def HostAgent.temp (h : HostAgent) (t : Nat) : Word := cellGet 0 h.temps t

/-- A HOST temporary written. -/
def HostAgent.setTemp (h : HostAgent) (t : Nat) (v : Word) : HostAgent := { h with temps := cellSet 0 h.temps t v }

/-- The HOST goes on with its next step. -/
def advance (s : State) : State := { s with host := { s.host with pos := s.host.pos + 1 } }

/-- The HOST branches. -/
def jumpTo (target : Nat) (s : State) : State := { s with host := { s.host with pos := target } }

/-- The addresses of an access, modulo 2^32. -/
def accessBytes (a : Word) (n : Nat) : List Word := (List.range n).map (addr a)

/-- Some byte of an access lies in the register window. -/
def touchesWindow (p : Platform) (a : Word) (n : Nat) : Bool := (accessBytes a n).any p.inWindow

/-- A window access this spec defines: a 32-bit transfer to a word-aligned offset (20_memory.md rule R113). -/
def legalWindowAccess (a : Word) (size : AccessSize) : Bool := size == .word && a.extractLsb' 0 2 == 0

/-- Bits [7:2] of the offset select the register (30_encoding.md rule R121). -/
def windowIndex (a : Word) : BitVec 6 := a.extractLsb' 2 6

/-- The host contract is open: an operation is BUSY, or has ended without the HOST having observed it (20_memory.md rule
R103). -/
def contractOpen (s : State) : Bool := s.busy || s.unobserved

/-- A HOST read of one byte: any value for a byte of WS while the contract is open (20_memory.md rule R103). WS is that of
the last accepted START alone (log entry 27). -/
def hostLoadByte (s : State) (a : Word) : Byte :=
  if contractOpen s && covers (snapshotSets s.snap).ws a then Config.freeByte s.draws a.toNat else s.mem.read a

/-- A HOST read of data memory, little-endian, zero-extended. -/
def hostLoad (s : State) (a : Word) : AccessSize → Word
  | .byte => (hostLoadByte s a).setWidth 32
  | .half => (hostLoadByte s (addr a 1) ++ hostLoadByte s a).setWidth 32
  | .word =>
    hostLoadByte s (addr a 3) ++ hostLoadByte s (addr a 2) ++ hostLoadByte s (addr a 1) ++ hostLoadByte s a

/-- A HOST write of one byte. While BUSY the model records a byte written in RS, and which bytes of WS were written
(20_memory.md rule R103). -/
def hostStoreByte (s : State) (w : Word × Byte) : State :=
  { s with
    mem := s.mem.write w.1 w.2
    rsWritten := s.rsWritten || (s.busy && covers (snapshotSets s.snap).rs w.1)
    hostWrote :=
      if s.busy && covers (snapshotSets s.snap).ws w.1 && !s.hostWrote.contains w.1 then s.hostWrote ++ [w.1]
      else s.hostWrote }

/-- A HOST write to data memory, little-endian. -/
def hostStore (s : State) (a : Word) (size : AccessSize) (v : Word) : State :=
  (byteWrites a (bytesLE size.bytes v.toNat)).foldl hostStoreByte s

/-- A HOST write. -/
def hostWrite (a : Word) (size : AccessSize) (v : Word) (s : State) : StepOutcome :=
  if touchesWindow s.platform a size.bytes then
    if legalWindowAccess a size then .next (advance (windowWrite (windowIndex a) v s)) else .fault .windowAccess
  else if (accessBytes a size.bytes).any (covers s.platform.sideEffect) then .refused .sideEffectMemory
  else .next (advance (hostStore s a size v))

/-- The state with a temporary written. -/
def setTemp (t : Nat) (v : Word) (s : State) : State := { s with host := s.host.setTemp t v }

/-- A HOST read into a temporary. A read of data memory draws the free values it needs. -/
def hostRead (a : Word) (size : AccessSize) (t : Nat) (s : State) : StepOutcome :=
  if touchesWindow s.platform a size.bytes then
    if legalWindowAccess a size then
      .next (advance (setTemp t (windowRead s (windowIndex a)) (afterRead (windowIndex a) s)))
    else .fault .windowAccess
  else if (accessBytes a size.bytes).any (covers s.platform.sideEffect) then .refused .sideEffectMemory
  else .next (advance (setTemp t (hostLoad s a size) { s with draws := s.draws + 1 }))

/-- One step of the HOST. A HOST whose program has ended does nothing. -/
def hostStep (s : State) : StepOutcome :=
  match s.host.prog[s.host.pos]? with
  | none => .next s
  | some (.write a size v) => hostWrite a size v s
  | some (.read a size t) => hostRead a size t s
  | some (.bnz t mask target) => .next (if s.host.temp t &&& mask ≠ 0 then jumpTo target s else advance s)
  | some (.bz t mask target) => .next (if s.host.temp t &&& mask = 0 then jumpTo target s else advance s)
  | some (.waitIrq line) => .next (if s.irqAt line then advance (observe s) else s)
  | some .assertReset => .next (advance { s with resetIn := true })
  | some (.remap l) =>
    .next (if s.busy then s else advance { s with platform := { s.platform with refused := l } })

/-! The host-program notation (30_encoding.md rules R133, R134). -/

/-- The bus address of a register. -/
def regAddr (p : Platform) (r : RegName) : Word := p.corePage ++ r.offset

/-- `WR NAME, v`. -/
def wr (p : Platform) (r : RegName) (v : Word) : HostStep := .write (regAddr p r) .word v

/-- `RD NAME -> t`. -/
def rd (p : Platform) (r : RegName) (t : Nat) : HostStep := .read (regAddr p r) .word t

/-- `START`: `WR CTRL, 0x1 | (IRQ_EN << 1)`. -/
def startStep (p : Platform) (irqEn : Bool) : HostStep := wr p .ctrl (if irqEn then 3 else 1)

/-- `WAIT` placed at position `here`: `w: RD STATUS -> t ; BZ t & 0x2, w`. -/
def waitSteps (p : Platform) (here t : Nat) : List HostStep := [rd p .status t, .bz t 2 here]

/-- `RUN cmd` placed at position `here`: `WR CMD, word(cmd) ; START ; WAIT`. -/
def runSteps (p : Platform) (here t : Nat) (irqEn : Bool) (i : Instr) : List HostStep :=
  [wr p .cmd (encode i), startStep p irqEn] ++ waitSteps p (here + 2) t

/-- `ACK`: `WR STATUS, 0x2`. -/
def ackStep (p : Platform) : HostStep := wr p .status 2

/-- `MEM a: b0 b1 ..` of a start state: bytes from address `a` upward. -/
def placeBytes (a : Word) (l : List Byte) (m : Memory) : Memory := m.writeAll (byteWrites a l)

end Sys2Proof.Machine
end

