-- ==== Sys2Proof/Machine/Fetch.lean ====
section
/-! DEFINITION. The CORE's own step: the command word of the snapshot is decoded and its operation completes
(00_scope.md rule R9; 30_encoding.md rules R122, R124). -/

namespace Sys2Proof.Machine

/-- The command word the running operation was started with, where the CORE takes it from (20_memory.md rule R109). -/
def fetchWord (s : State) : Word := s.snap.cmd

/-- The CORE's completion step. A word that is no command completes with ILLEGAL_CMD (30_encoding.md rule R124). -/
def coreStep (s : State) : StepOutcome :=
  match decodeWord (fetchWord s) with
  | .ok i => exec i s
  | .error _ => .next (complete .illegalCmd s)

/-- One step of the whole machine: an asserted reset input first (70_reset_and_hazards.md rule R320); while BUSY the HOST for
as long as the delay lasts, then the CORE's completion (rule R333); while IDLE the HOST. -/
def machineStep (s : State) : StepOutcome :=
  if s.resetIn then .next (coreReset s)
  else
    match s.phase, s.delay with
    | .busy, 0 => coreStep s
    | .busy, d + 1 => hostStep { s with delay := d }
    | .idle, _ => hostStep s

/-- A state whose next step completes the operation of a command word: the word in the snapshot, the CORE BUSY with no HOST
step left before the completion, no reset asserted. -/
def selectCommand (w : Word) (s : State) : State :=
  { s with
    snap := { s.snap with cmd := w }
    phase := .busy
    delay := 0
    resetIn := false }

end Sys2Proof.Machine
end

