-- ==== Sys2Proof/Machine/Step.lean ====
section
/-! DEFINITION. The step of the machine, and the state whose next step runs a given command word. -/

namespace Sys2Proof.Machine

/-- One step of the machine. -/
def step (s : State) : Host.Outcome State Fault Refusal := machineStep s

/-- `s` with an instruction, numbered as spec/opcode_table.json numbers its bits, where the next step takes it from: the
CORE has no program counter (00_scope.md rule R10), so this is the snapshot's command word of a BUSY CORE that is due to
complete (log entry 15). The operands are those the snapshot of `s` holds. -/
def State.withFetchWord (s : State) (nbits w : Nat) : State := selectCommand (BitVec.ofNat 32 (w % 2 ^ nbits)) s

end Sys2Proof.Machine
end

