-- ==== Sys2Proof/Safety.lean ====
section
/-! DEFINITION. What counts as a safe state, a defined operation and a safe run, in the terms the statements use. -/

namespace Sys2Proof.Machine

/-- An operation whose every effect the spec fixes: no byte of RS ∪ WS has read side effects (20_memory.md rule R88) or
fails MEM_OK (60_exceptions.md rule R296), RS and WS do not overlap (20_memory.md rule R105), and the HOST kept its contract
while the operation was BUSY (rule R103). -/
abbrev OpClean (c : OpSets) (s : State) : Prop :=
  touchesSideEffect c s = false ∧ refusedBytes s.platform c = [] ∧ c.overlap = false ∧ s.rsWritten = false
    ∧ s.hostWrote = []

/-- RS and WS of the operation that instruction `i` runs on the snapshot of `s`. -/
abbrev setsOf (i : Instr) (s : State) : OpSets := operationSets (operationOf i) s.snap

/-- The reserved fields of the operand registers hold 0 (10_state.md rules R45, R49, R50, R52, R56). -/
abbrev OperandRegs.reservedZero (o : OperandRegs) : Prop :=
  o.dwKs.extractLsb' 16 16 = 0 ∧ o.foldN.extractLsb' 8 24 = 0 ∧ o.thrStride.extractLsb' 16 16 = 0
    ∧ o.unpackOfs.extractLsb' 8 24 = 0

/-- The invariant every step keeps. -/
structure Inv (s : State) : Prop where
  /-- Data memory has its canonical form. -/
  memWf : s.mem.wf
  /-- The HOST's temporaries have theirs. -/
  tempsWf : cellsWf (0 : Word) s.host.temps
  /-- The reserved fields of the live registers are 0 (10_state.md rule R56). -/
  opsReserved : s.ops.reservedZero
  /-- The reserved fields of the snapshot are 0. -/
  snapReserved : s.snap.reservedZero
  /-- BUSY and DONE are never both 1 (10_state.md rule R33). -/
  busyNotDone : s.phase = .busy → s.done = false
  /-- ERRCODE was set to 0 by the accepted START (10_state.md rule R33). -/
  busyCode : s.phase = .busy → s.errcode = .ok
  /-- A running operation passed the checks of START (40_control.md rule R151). -/
  busyLegal : s.phase = .busy → immediateCode s.snap = none
  /-- The HOST contract is open while BUSY (20_memory.md rule R103). -/
  busyOpen : s.phase = .busy → s.unobserved = true
  /-- While IDLE nothing is recorded of an operation. -/
  idleClear : s.phase = .idle → s.delay = 0 ∧ s.rsWritten = false ∧ s.hostWrote = []
  /-- Every recorded HOST write lies in WS of the running operation. -/
  wroteInWs : ∀ a ∈ s.hostWrote, covers (snapshotSets s.snap).ws a = true

/-- What an operation's completion leaves of the registers and of the agents around the CORE: CTRL, CMD, the operand
registers, OVERRUN and the snapshot are not changed (60_exceptions.md rule R292), nor the HOST and the platform; the phase is
IDLE and DONE is set. -/
abbrev CompletedFrame (s t : State) : Prop :=
  t.ops = s.ops ∧ t.irqEn = s.irqEn ∧ t.overrun = s.overrun ∧ t.snap = s.snap ∧ t.platform = s.platform
    ∧ t.host = s.host ∧ t.schedule = s.schedule ∧ t.resetIn = s.resetIn ∧ t.unobserved = s.unobserved
    ∧ t.phase = .idle ∧ t.done = true

/-- A run of `n` steps from `s` that neither faults nor is refused and ends in `t`. -/
def RunsTo (n : Nat) (s t : State) : Prop := Host.Core.run
  { State := State, Fault := Fault, Refusal := Refusal, step := step, reset := State.reset } n s = .next t

/-- The HOST's program has ended, so that no HOST step remains. -/
abbrev HostEnded (s : State) : Prop := s.host.prog[s.host.pos]? = none

end Sys2Proof.Machine
end

