-- ==== Sys2Proof/Certificates/Slice0/Reference.lean ====
section
/-! DEFINITION. The closed forms that the statements compare the machine with, written from the rules' own formulas and not
from the engines' loops, and small words the statements use. -/

namespace Sys2Proof.Reference

open Sys2Proof.Machine

/-! Elements in memory. -/

/-- `S16(a)`: two bytes, the least significant first, as a signed number (00_scope.md rule R14). -/
def s16At (m : Memory) (a : Word) : Int :=
  Int.bmod ((m.read a).toNat + 2 ^ 8 * (m.read (a + 1)).toNat : Nat) (2 ^ 16)

/-- `S32(a)`: four bytes, the least significant first, as a signed number (rule R14). -/
def s32At (m : Memory) (a : Word) : Int :=
  Int.bmod ((m.read a).toNat + 2 ^ 8 * (m.read (a + 1)).toNat + 2 ^ 16 * (m.read (a + 2)).toNat
    + 2 ^ 24 * (m.read (a + 3)).toNat : Nat) (2 ^ 32)

/-! The matrix engine. -/

/-- `sum_{c<N} (W(r, c) - z_a) * B_j[c]`, exact (42_mac.md rule R199). -/
def mmDot (wb : WeightWidth) (m : Memory) (o : OperandRegs) (r j : Nat) : Int :=
  ((List.range o.cols).map fun c => ((weight wb m o r c : Int) - o.zA) * (activation m o j c).toInt).sum

/-- `acc(r, j)` in closed form (rule R199). -/
def mmAcc (wb : WeightWidth) (m : Memory) (o : OperandRegs) (r j : Nat) : Word :=
  wrap32 ((bias m o r).toInt + mmDot wb m o r j)

/-- `level(r, j)` of the fold policy (45_matmul.md rule R249). -/
def mmFoldLevel (wb : WeightWidth) (k : Nat) (m : Memory) (o : OperandRegs) (j r : Nat) : Nat :=
  affine (mmAcc wb m o r j) o.m o.nZero k o.zOut

/-- The slice `T(ch, 0 .. 2^k - 2)` (20_memory.md rule R95). -/
def slice (m : Memory) (o : OperandRegs) (k ch : Nat) : List Half := (List.range (2 ^ k - 1)).map (threshold m o k ch)

/-- `level(r, j)` of the threshold policy: the channel id is the row (45_matmul.md rule R249). -/
def mmThrLevel (wb : WeightWidth) (k : Nat) (m : Memory) (o : OperandRegs) (j r : Nat) : Nat :=
  firstAbove (trunc16 (mmAcc wb m o r j)) (slice m o k r)

/-! The packer. -/

/-- Byte `b` that `PACK` writes for `L` levels `l` (44_packer.md rule R231): slot `m` holds level `b*(8/k) + m`, slots past
the last level are 0. The slots do not overlap, so their OR is their sum. -/
def packedByte (k L : Nat) (l : Nat → Nat) (b : Nat) : Nat :=
  ((List.range (8 / k)).map fun m =>
    if b * (8 / k) + m < L then l (b * (8 / k) + m) % 2 ^ k * 2 ^ (k * m) else 0).sum

/-! The depthwise engine. -/

/-- What one kernel cell contributes (46_depthwise.md rule R274): 0 for a padding cell. -/
def dwTerm (m : Memory) (o : OperandRegs) (p : Nat × Nat) (c : Nat) (cell : Nat × Nat) : Int :=
  if dwInBounds o p cell then
    (((input m o (dwY o p.1 cell.1).toNat (dwX o p.2 cell.2).toNat c).toNat : Int) - o.zIn)
      * (((dwWeight m o cell.1 cell.2 c).toNat : Int) - o.zWt)
  else 0

/-- `acc(oy, ox, c)` in closed form (rule R274). -/
def dwAcc (m : Memory) (o : OperandRegs) (p : Nat × Nat) (c : Nat) : Word :=
  wrap32 ((bias m o c).toInt + ((dwCells o).map (dwTerm m o p c)).sum)

/-- `level(oy, ox, c)` (rule R275). -/
def dwLevel (m : Memory) (o : OperandRegs) (p : Nat × Nat) (c : Nat) : Nat :=
  firstAbove (trunc16 (dwAcc m o p c)) (slice m o 2 c)

/-- What the column buffer holds for a cell of a pixel (rule R276). -/
def dwStaged (m : Memory) (o : OperandRegs) (p cell : Nat × Nat) (c : Nat) : Byte :=
  if dwInBounds o p cell then input m o (dwY o p.1 cell.1).toNat (dwX o p.2 cell.2).toNat c else 0

/-! Statement shapes. -/

/-- A clean MM command completes: for column `j` and byte `b` of its region the packed byte of the levels `l j` of rows
`0 .. R-1` in output width `k`, RESULT past both regions, every other byte and register as before. -/
def MmCompletes (i : Instr) (k : Nat) (l : Memory → OperandRegs → Nat → Nat → Nat) : Prop :=
  ∀ s : State, OpClean (setsOf i s) s →
    ∃ t, exec i s = .next t ∧ CompletedFrame s t ∧ t.errcode = .ok ∧ t.faultAddr = s.faultAddr ∧
      t.result = addr s.snap.out (2 * cdiv (s.snap.rows * k) 8) ∧
      (∀ j < 2, ∀ b < cdiv (s.snap.rows * k) 8,
        t.mem.read (addr s.snap.out (j * cdiv (s.snap.rows * k) 8 + b))
          = BitVec.ofNat 8 (packedByte k s.snap.rows (l s.mem s.snap j) b)) ∧
      ∀ a, (∀ x < 2 * cdiv (s.snap.rows * k) 8, addr s.snap.out x ≠ a) → t.mem.read a = s.mem.read a

/-- A clean UNPACK command completes: output element `i` is the value `f i` of the packed stream minus the offset, exact and
signed, RESULT past the last element, every other byte and register as before. -/
def UnpackCompletes (i : Instr) (f : Memory → Word → Nat → Nat) : Prop :=
  ∀ s : State, OpClean (setsOf i s) s →
    ∃ t, exec i s = .next t ∧ CompletedFrame s t ∧ t.errcode = .ok ∧ t.faultAddr = s.faultAddr ∧
      t.result = addr s.snap.out (2 * s.snap.count) ∧
      (∀ n < s.snap.count,
        (t.mem.loadHalf (addr s.snap.out (2 * n))).toInt = (f s.mem s.snap.src1 n : Int) - s.snap.offset) ∧
      ∀ a, (∀ x < 2 * s.snap.count, addr s.snap.out x ≠ a) → t.mem.read a = s.mem.read a

/-- The outcome with its next state changed by `f`. -/
def mapNext (f : State → State) : StepOutcome → StepOutcome
  | .next t => .next (f t)
  | .fault r => .fault r
  | .refused r => .refused r

/-- A state with the hidden working registers (10_state.md rules R60 to R63) given. -/
def withHidden (a : MacArray) (l : LaneAccs) (p0 p1 : PackBuf) (q : Sequencer) (s : State) : State :=
  { s with mac := a, lanes := l, packer0 := p0, packer1 := p1, seq := q }

/-- It is the HOST's turn in `s`, which acts on `s'`: no reset is asserted, and the CORE is IDLE, or BUSY with a HOST step
left, which is then used up. -/
def HostTurn (s s' : State) : Prop :=
  s.resetIn = false ∧
    ((s.phase = .idle ∧ s' = s) ∨ (s.phase = .busy ∧ ∃ d, s.delay = d + 1 ∧ s' = { s with delay := d }))

/-- The HOST's next step. -/
abbrev nextHostStep (s : State) : Option HostStep := s.host.prog[s.host.pos]?

/-- The operand and command registers with the bits they hold (10_state.md rules R34 to R52). -/
def operandRegisters : List (RegName × Word) :=
  [(.cmd, 0xFFFFFFFF), (.src0, 0xFFFFFFFF), (.src1, 0xFFFFFFFF), (.bias, 0xFFFFFFFF), (.out, 0xFFFFFFFF),
    (.thr, 0xFFFFFFFF), (.col, 0xFFFFFFFF), (.scrb, 0xFFFFFFFF), (.mmDim, 0xFFFFFFFF), (.dwCh, 0xFFFFFFFF),
    (.dwDim, 0xFFFFFFFF), (.dwKs, 0x0000FFFF), (.dwPad, 0xFFFFFFFF), (.zp, 0xFFFFFFFF), (.foldM, 0xFFFFFFFF),
    (.foldN, 0x000000FF), (.thrStride, 0x0000FFFF), (.unpackCnt, 0xFFFFFFFF), (.unpackOfs, 0x000000FF)]

/-- The 13 words of 30_encoding.md rule R129 with their instructions. -/
def opcodeMap : List (Word × Instr) :=
  [(0x00000001, .mmFoldW8O4), (0x00000041, .mmFoldW8O2), (0x00000021, .mmFoldW4O4), (0x00000061, .mmFoldW4O2),
    (0x00000011, .mmThrW8O4), (0x00000051, .mmThrW8O2), (0x00000031, .mmThrW4O4), (0x00000071, .mmThrW4O2),
    (0x00000002, .dwThrO2), (0x00000003, .unpackB2), (0x00000043, .unpackB2R), (0x00000013, .unpackB4),
    (0x00000023, .unpackB8)]

/-- A table that is monotonically non-decreasing (20_memory.md rule R95). -/
def Monotone (ts : List Half) : Prop := ∀ i j (hi : i < ts.length) (hj : j < ts.length), i ≤ j → ts[i].toInt ≤ ts[j].toInt

end Sys2Proof.Reference
end

