-- ==== Sys2Proof/Certificates/Slice0/Obligations.lean ====
section
/-! DEFINITION. The statements for the provers. -/

open Sys2Proof Sys2Proof.Machine Sys2Proof.Reference

/-! Encoding. -/

/-- The 13 legal words of 30_encoding.md rule R129 decode to their instructions. -/
def Obligations.ThirteenWordsDecode : Prop := ∀ e ∈ opcodeMap, decodeWord e.1 = .ok e.2

/-- Rule R124: a command word is legal if and only if it is one of the 13 words; at the acceptance of START an illegal
word completes at once with ILLEGAL_CMD and no data access. -/
def Obligations.LegalExactlyThirteenWords : Prop :=
  (∀ w : Word, (∃ i, decodeWord w = .ok i) ↔ w ∈ opcodeMap.map Prod.fst) ∧
  ∀ s : State, s.phase = .idle → s.ops.cmd ∉ opcodeMap.map Prod.fst →
    requestStart s = complete .illegalCmd (acceptStart s) ∧ (requestStart s).mem = s.mem

/-- Decode and encode agree over all words and all instructions (rules R122, R129): no bit of a word is dropped. -/
def Obligations.DecodeEncodeAgree : Prop := ∀ (w : Word) (i : Instr), decodeWord w = .ok i ↔ w = encode i

/-- Rule R130's named illegal words: reserved OP, nonzero reserved bits of every format, KB = 11, REO with KB not
00. -/
def Obligations.ReservedWordsRejected : Prop :=
  (∀ w : Word, w.extractLsb' 0 4 ∉ [1, 2, 3] → decodeWord w = .error .reservedOp) ∧
  (∀ w : Word, w.extractLsb' 0 4 = 1 → w.extractLsb' 7 25 ≠ 0 → decodeWord w = .error .mmReserved) ∧
  (∀ w : Word, w.extractLsb' 0 4 = 2 → w.extractLsb' 4 28 ≠ 0 → decodeWord w = .error .dwReserved) ∧
  (∀ w : Word, w.extractLsb' 0 4 = 3 → w.extractLsb' 7 25 ≠ 0 → decodeWord w = .error .unpackReserved) ∧
  (∀ w : Word, w.extractLsb' 0 4 = 3 → w.extractLsb' 7 25 = 0 → w.extractLsb' 4 2 = 3 →
    decodeWord w = .error .unpackWidth) ∧
  (∀ w : Word, w.extractLsb' 0 4 = 3 → w.extractLsb' 7 25 = 0 → w.getLsbD 6 = true →
    (w.extractLsb' 4 2 = 1 ∨ w.extractLsb' 4 2 = 2) → decodeWord w = .error .unpackReorder)

/-- Rule R121: the window holds `CORE_BASE .. CORE_BASE + 0xFF`; a register's address lies in it, word-aligned, and
bits [7:2] of the offset select the register: 0x00 ID up to 0x17 FAULT_ADDR in this order, 0x18 to 0x3F none. -/
def Obligations.WindowSelectsRegister : Prop :=
  (∀ (p : Platform) (a : Word), p.inWindow a = true ↔ (a - p.coreBase).toNat < 0x100) ∧
  (∀ (p : Platform) (r : RegName), p.inWindow (regAddr p r) = true ∧ (regAddr p r).extractLsb' 0 2 = 0 ∧
    RegName.ofIndex (windowIndex (regAddr p r)) = some r) ∧
  (∀ (p : Platform) (a : Word), p.inWindow a = true → (windowIndex a).toNat = (a - p.coreBase).toNat / 4) ∧
  ∀ x : BitVec 6, RegName.ofIndex x
    = [RegName.id, .ctrl, .status, .cmd, .src0, .src1, .bias, .out, .thr, .col, .scrb, .mmDim, .dwCh, .dwDim, .dwKs,
        .dwPad, .zp, .foldM, .foldN, .thrStride, .unpackCnt, .unpackOfs, .result, .faultAddr][x.toNat]?

/-! Stepping. -/

/-- A step runs the decoded instruction: with no reset asserted and no HOST step left before the completion, the step
of a BUSY CORE is the operation its snapshot's command word names; a word that names none completes with ILLEGAL_CMD.
The second clause is for states that no run reaches (log entry 16). -/
def Obligations.StepRunsDecodedCommand : Prop :=
  ∀ s : State, s.resetIn = false → s.phase = .busy → s.delay = 0 →
    (∀ i, decodeWord s.snap.cmd = .ok i → step s = exec i s) ∧
    (∀ e, decodeWord s.snap.cmd = .error e → step s = .next (complete .illegalCmd s))

/-- The state that holds an instruction for the next step runs exactly that instruction, on the operands its snapshot
held (the model's own convention, log entry 15). -/
def Obligations.FetchedWordRuns : Prop :=
  ∀ (s : State) (w : Nat) (i : Instr), decodeTableWord 32 w = some i →
    step (s.withFetchWord 32 w) = exec i (s.withFetchWord 32 w) ∧
    (s.withFetchWord 32 w).snap = { s.snap with cmd := encode i } ∧ (s.withFetchWord 32 w).mem = s.mem

/-! Reset. -/

/-- Rule R322: what reset leaves, as the HOST reads it. -/
def Obligations.ResetRegisterValues : Prop :=
  (∀ r : RegName, regRead State.reset r = if r = .id then 0x51544E49 else 0) ∧
  (∀ x : BitVec 6, 0x18 ≤ x.toNat → windowRead State.reset x = 0) ∧
  State.reset.phase = .idle ∧ State.reset.irq = false

/-- Rules R320 and R321: an asserted reset input takes the CORE to its reset state at once, whatever its phase and
whoever would move; every byte outside WS of a running operation is unchanged, and with none running every byte is; no
completion code is recorded and the operation never completes. The pulse is the model's (log entry 17). -/
def Obligations.ResetInputWins : Prop :=
  ∀ s : State, s.resetIn = true → ∃ t, step s = .next t ∧
    (∀ r : RegName, regRead t r = if r = .id then 0x51544E49 else 0) ∧ t.phase = .idle ∧ t.irq = false ∧
    t.resetIn = false ∧ t.platform = s.platform ∧ t.host = s.host ∧
    (∀ a, s.phase = .idle ∨ covers (snapshotSets s.snap).ws a = false → t.mem.read a = s.mem.read a)

/-! Register operations. -/

/-- Rule R155: an operand or command write stores the value with reserved fields 0, in either phase, and changes no
other register, no status bit, not the snapshot and not memory. -/
def Obligations.OperandWriteReadsBack : Prop :=
  ∀ e ∈ operandRegisters, ∀ (s : State) (v : Word),
    regRead (regWrite e.1 v s) e.1 = v &&& e.2 ∧
    (∀ r, r ≠ e.1 → regRead (regWrite e.1 v s) r = regRead s r) ∧
    regWrite e.1 v s = { s with ops := (regWrite e.1 v s).ops }

/-- Rule R156: a write to ID, RESULT, FAULT_ADDR or a reserved offset has no effect; a write to STATUS reaches only
DONE and OVERRUN, a write to CTRL only IRQ_EN and START. -/
def Obligations.ReadOnlyWritesIgnored : Prop :=
  ∀ (s : State) (v w : Word),
    (∀ x : BitVec 6, RegName.ofIndex x ∈ [some .id, some .result, some .faultAddr, none] → windowWrite x v s = s) ∧
    (v.extractLsb' 1 2 = w.extractLsb' 1 2 → regWrite .status v s = regWrite .status w s) ∧
    (v.extractLsb' 0 2 = w.extractLsb' 0 2 → regWrite .ctrl v s = regWrite .ctrl w s)

/-- Rule R154: the acknowledge. -/
def Obligations.StatusAcknowledge : Prop :=
  ∀ (s : State) (v : Word),
    (regWrite .status v s).done = (if v.getLsbD 1 then false else s.done) ∧
    (regWrite .status v s).overrun = (if v.getLsbD 2 then false else s.overrun) ∧
    regWrite .status v s
      = { s with done := (regWrite .status v s).done, overrun := (regWrite .status v s).overrun } ∧
    (v.getLsbD 1 = true → (regWrite .status v s).irq = false)

/-- Rule R153: any write to CTRL sets IRQ_EN from bit 1; without START nothing else changes, and `irq` follows at
once. -/
def Obligations.CtrlWriteSetsInterruptEnable : Prop :=
  ∀ (s : State) (v : Word),
    (regWrite .ctrl v s).irqEn = v.getLsbD 1 ∧
    (v.getLsbD 0 = false → regWrite .ctrl v s = { s with irqEn := v.getLsbD 1 } ∧
      (regWrite .ctrl v s).irq = (v.getLsbD 1 && s.done)) ∧
    (v.getLsbD 0 = true → regWrite .ctrl v s = requestStart { s with irqEn := v.getLsbD 1 })

/-- Rule R152: a START while BUSY sets OVERRUN and IRQ_EN and does nothing else. -/
def Obligations.StartWhileBusyIgnored : Prop :=
  ∀ (s : State) (v : Word), s.phase = .busy → v.getLsbD 0 = true →
    regWrite .ctrl v s = { s with irqEn := v.getLsbD 1, overrun := true }

/-- Rules R151, R293, R294: an accepted START takes the snapshot and clears DONE and ERRCODE; an illegal word
completes at once with ILLEGAL_CMD whatever DW_CH holds, a DW with mismatched channels at once with SIZE_MISMATCH,
both without touching data, RESULT, FAULT_ADDR or OVERRUN; otherwise the CORE is BUSY. -/
def Obligations.StartAccepted : Prop :=
  ∀ (s : State) (v : Word), s.phase = .idle → v.getLsbD 0 = true →
    let t := regWrite .ctrl v s
    t.snap = s.ops ∧ t.ops = s.ops ∧ t.irqEn = v.getLsbD 1 ∧ t.mem = s.mem ∧ t.result = s.result ∧
    t.faultAddr = s.faultAddr ∧ t.overrun = s.overrun ∧
    ((∀ i, decodeWord s.ops.cmd ≠ .ok i) → t.phase = .idle ∧ t.done = true ∧ t.errcode = .illegalCmd) ∧
    (decodeWord s.ops.cmd = .ok .dwThrO2 → s.ops.chIn ≠ s.ops.chOut →
      t.phase = .idle ∧ t.done = true ∧ t.errcode = .sizeMismatch) ∧
    (∀ i, decodeWord s.ops.cmd = .ok i → (i = .dwThrO2 → s.ops.chIn = s.ops.chOut) →
      t.phase = .busy ∧ t.done = false ∧ t.errcode = .ok)

/-- What the HOST reads of ID, CTRL and STATUS: the constant, IRQ_EN in bit 1 with START reading 0, and BUSY, DONE,
OVERRUN and the completion code's number in the places of rule R33, every reserved bit 0 (rules R31, R32, R33, R56,
R291). -/
def Obligations.RegisterReadFields : Prop :=
  ∀ s : State,
    regRead s .id = 0x51544E49 ∧
    (regRead s .ctrl).toNat = 2 * s.irqEn.toNat ∧
    (regRead s .status).toNat = (if s.phase = .busy then 1 else 0) + 2 * s.done.toNat + 4 * s.overrun.toNat
      + 16 * (match s.errcode with | .ok => 0 | .sizeMismatch => 1 | .illegalCmd => 2 | .busError => 3)

/-- The HOST's register accesses (rules R55, R121, R150, R155): on its turn a 32-bit access to a register's address
reads or writes exactly that register; one to a reserved offset reads 0 or writes nothing. A read changes nothing but
the HOST's temporary and, where STATUS is read with BUSY = 0, the model's record that the completion was observed
(20_memory.md rule R103). The record is the model's own (log entry 9). -/
def Obligations.HostAccessReachesRegister : Prop :=
  ∀ s s' : State, HostTurn s s' →
    (∀ r : RegName,
      (∀ v, nextHostStep s = some (.write (regAddr s.platform r) .word v) → step s = .next (advance (regWrite r v s'))) ∧
      (∀ n, nextHostStep s = some (.read (regAddr s.platform r) .word n) →
        ∃ t, step s = .next t ∧ t.host.temp n = regRead s' r ∧
          (∀ k, k ≠ n → t.host.temp k = s.host.temp k) ∧ t.host.pos = s.host.pos + 1 ∧ t.host.prog = s.host.prog ∧
          t = { s' with host := t.host, unobserved := if r = .status ∧ s.phase = .idle then false else s.unobserved })) ∧
    (∀ x, 0x18 ≤ x → x ≤ 0x3F →
      (∀ v, nextHostStep s = some (.write (addr s.platform.coreBase (4 * x)) .word v) → step s = .next (advance s')) ∧
      (∀ n, nextHostStep s = some (.read (addr s.platform.coreBase (4 * x)) .word n) →
        ∃ t, step s = .next t ∧ t.host.temp n = 0 ∧ (∀ k, k ≠ n → t.host.temp k = s.host.temp k) ∧
          t.host.pos = s.host.pos + 1 ∧ t.host.prog = s.host.prog ∧ t = { s' with host := t.host }))

/-- Rule R113: a HOST access that touches the window and is not a 32-bit access to a word-aligned offset is refused:
the HOST step faults. That a straddling access counts is the model's reading (log entry 13). -/
def Obligations.UnalignedWindowAccessFaults : Prop :=
  ∀ (s s' : State) (a : Word) (size : AccessSize), HostTurn s s' →
    (∃ i < size.bytes, s.platform.inWindow (addr a i) = true) → (size ≠ .word ∨ a.toNat % 4 ≠ 0) →
    (∀ v, nextHostStep s = some (.write a size v) → step s = .fault .windowAccess) ∧
    (∀ n, nextHostStep s = some (.read a size n) → step s = .fault .windowAccess)

/-- Data memory as the HOST sees it between operations (rules R84, R88, R101): a read after a write of the same width
at the same address returns the value written, cut to the width, and no other byte changes. The widths are the model's
choice (log entry 26). That the HOST reaches every data address, also one that fails MEM_OK, is the model's reading
(log entry 25). -/
def Obligations.HostDataReadAfterWrite : Prop :=
  ∀ (s : State) (a : Word) (size : AccessSize) (v : Word) (n : Nat),
    s.resetIn = false → s.phase = .idle → s.unobserved = false →
    (∀ i < size.bytes, s.platform.inWindow (addr a i) = false ∧ covers s.platform.sideEffect (addr a i) = false) →
    nextHostStep s = some (.write a size v) → s.host.prog[s.host.pos + 1]? = some (.read a size n) →
    ∃ t, RunsTo 2 s t ∧ (t.host.temp n).toNat = v.toNat % 2 ^ (8 * size.bytes) ∧
      ∀ b, (∀ i < size.bytes, addr a i ≠ b) → t.mem.read b = s.mem.read b

/-- A HOST write to data memory in any phase (rules R84, R88, R103): the bytes take the value, least significant
first, no other byte and no register changes, and while BUSY the model records exactly which bytes of RS and WS were
written (log entry 8). That a write after the completion but before its observation is a plain one, and that the HOST
reaches bytes that fail MEM_OK, is the model's reading (log entries 10, 25). -/
def Obligations.HostDataWriteStep : Prop :=
  ∀ (s s' : State) (a : Word) (size : AccessSize) (v : Word), HostTurn s s' →
    (∀ i < size.bytes, s.platform.inWindow (addr a i) = false ∧ covers s.platform.sideEffect (addr a i) = false) →
    nextHostStep s = some (.write a size v) →
    ∃ t, step s = .next t ∧
      (∀ i < size.bytes, t.mem.read (addr a i) = BitVec.ofNat 8 (v.toNat / 256 ^ i)) ∧
      (∀ b, (∀ i < size.bytes, addr a i ≠ b) → t.mem.read b = s.mem.read b) ∧
      t = { s' with mem := t.mem, host := { s.host with pos := s.host.pos + 1 }, rsWritten := t.rsWritten, hostWrote := t.hostWrote } ∧
      (s.phase = .idle → t.rsWritten = s.rsWritten ∧ t.hostWrote = s.hostWrote) ∧
      (s.phase = .busy →
        (t.rsWritten = true ↔ s.rsWritten = true ∨ ∃ i < size.bytes, covers (snapshotSets s.snap).rs (addr a i) = true) ∧
        ∀ b, b ∈ t.hostWrote ↔
          b ∈ s.hostWrote ∨ (covers (snapshotSets s.snap).ws b = true ∧ ∃ i < size.bytes, addr a i = b))

/-- A HOST read of data memory in any phase (rules R88, R103): every byte outside WS of a running or unobserved
operation reads as memory holds it, nothing is written but the temporary, and the value is zero-extended. The widths
and the moment of observation are the model's reading (log entries 9, 26). So is the HOST's reaching bytes that fail
MEM_OK, and the counter of draws (log entries 5, 25, 27). -/
def Obligations.HostDataReadStep : Prop :=
  ∀ (s s' : State) (a : Word) (size : AccessSize) (n : Nat), HostTurn s s' →
    (∀ i < size.bytes, s.platform.inWindow (addr a i) = false ∧ covers s.platform.sideEffect (addr a i) = false) →
    nextHostStep s = some (.read a size n) →
    ∃ t, step s = .next t ∧
      (∀ i < size.bytes, (s.phase = .idle ∧ s.unobserved = false) ∨ covers (snapshotSets s.snap).ws (addr a i) = false →
        (t.host.temp n).toNat / 256 ^ i % 256 = (s.mem.read (addr a i)).toNat) ∧
      (t.host.temp n).toNat < 256 ^ size.bytes ∧ (∀ k, k ≠ n → t.host.temp k = s.host.temp k) ∧
      t.host.pos = s.host.pos + 1 ∧ t.host.prog = s.host.prog ∧
      t = { s' with host := t.host, draws := s.draws + 1 }

/-- The HOST's wait on its interrupt controller (rules R159, R300): it passes exactly when it waits on IRQ_LINE and
`irq` is asserted, and else changes nothing. The waiting step is the model's (log entry 26). That no other line is
ever asserted is the model's choice (log entry 28). -/
def Obligations.HostWaitPassesOnIrq : Prop :=
  ∀ (s s' : State) (line : Nat), HostTurn s s' → nextHostStep s = some (.waitIrq line) →
    (line = s.platform.irqLine ∧ s.irqEn = true ∧ s.done = true → step s = .next (advance (observe s'))) ∧
    (¬ (line = s.platform.irqLine ∧ s.irqEn = true ∧ s.done = true) → step s = .next s')

/-! Operands. -/

/-- The fields of the operand registers (rules R42 to R49, R51, R52): their places, and which of them are signed. -/
def Obligations.OperandFieldPlaces : Prop :=
  ∀ o : OperandRegs,
    o.rows = o.mmDim.toNat % 2 ^ 16 ∧ o.cols = o.mmDim.toNat / 2 ^ 16 ∧
    o.chIn = o.dwCh.toNat % 2 ^ 16 ∧ o.chOut = o.dwCh.toNat / 2 ^ 16 ∧
    o.inDim = o.dwDim.toNat % 2 ^ 16 ∧ o.outDim = o.dwDim.toNat / 2 ^ 16 ∧
    o.kdim = o.dwKs.toNat % 2 ^ 8 ∧ o.stride = o.dwKs.toNat / 2 ^ 8 % 2 ^ 8 ∧
    o.padLeft = o.dwPad.toNat % 2 ^ 8 ∧ o.padTop = o.dwPad.toNat / 2 ^ 16 % 2 ^ 8 ∧
    o.zA = o.zp.toNat % 2 ^ 8 ∧ o.zOut = o.zp.toNat / 2 ^ 8 % 2 ^ 8 ∧
    o.zIn = o.zp.toNat / 2 ^ 16 % 2 ^ 8 ∧ o.zWt = o.zp.toNat / 2 ^ 24 ∧
    o.m = Int.bmod o.foldM.toNat (2 ^ 32) ∧ o.nZero = Int.bmod (o.foldN.toNat % 2 ^ 8 : Nat) (2 ^ 8) ∧
    o.count = o.unpackCnt.toNat ∧ o.offset = o.unpackOfs.toNat % 2 ^ 8

/-- The operand layouts, with every address and register field written out (rules R90, R91, R93 to R97, and the
geometry of 46_depthwise.md rule R273): which bytes each weight, activation, bias, threshold and input element is made
of, and which kernel cells of which pixels are in bounds. Addresses wrap modulo 2^32 (rule R83). -/
def Obligations.OperandLayouts : Prop :=
  ∀ (m : Memory) (o : OperandRegs),
    let N : Nat := o.mmDim.toNat / 2 ^ 16
    let C : Nat := o.dwCh.toNat % 2 ^ 16
    let D : Nat := o.dwDim.toNat % 2 ^ 16
    let K : Nat := o.dwKs.toNat % 2 ^ 8
    let S : Nat := o.dwKs.toNat / 2 ^ 8 % 2 ^ 8
    (∀ r c, weight .w8 m o r c = (m.read (o.src0 + BitVec.ofNat 32 (r * N + c))).toNat) ∧
    (∀ r c, weight .w4 m o r c
      = (m.read (o.src0 + BitVec.ofNat 32 (r * ((N + 1) / 2) + c / 2))).toNat >>> (4 * (c % 2)) &&& 0xF) ∧
    (∀ c, (activation m o 0 c).toInt = s16At m (o.src1 + BitVec.ofNat 32 (2 * c)) ∧
      (activation m o 1 c).toInt = s16At m (o.src1 + BitVec.ofNat 32 (2 * N + 2 * c))) ∧
    (∀ r, (bias m o r).toInt = s32At m (o.bias + BitVec.ofNat 32 (4 * r))) ∧
    (∀ k ch, (thresholds m o k ch).length = 2 ^ k - 1 ∧
      ∀ i, i < 2 ^ k - 1 →
        (thresholds m o k ch)[i]? = some (threshold m o k ch i) ∧
        (threshold m o k ch i).toInt = s16At m (o.thr + BitVec.ofNat 32
          (2 * (ch * (if o.thrStride.toNat % 2 ^ 16 ≠ 0 then o.thrStride.toNat % 2 ^ 16 else 2 ^ k - 1) + i)))) ∧
    (∀ y x c, input m o y x c = m.read (o.src1 + BitVec.ofNat 32 ((y * D + x) * C + c))) ∧
    (∀ ky kx c, dwWeight m o ky kx c = m.read (o.src0 + BitVec.ofNat 32 ((ky * K + kx) * C + c)) ∧
      colAddr o ky kx c = o.col + BitVec.ofNat 32 ((ky * K + kx) * C + c)) ∧
    ∀ oy ox ky kx : Nat,
      let iy : Int := (oy : Int) * S + ky - (o.dwPad.toNat / 2 ^ 16 % 2 ^ 8 : Nat)
      let ix : Int := (ox : Int) * S + kx - (o.dwPad.toNat % 2 ^ 8 : Nat)
      dwY o oy ky = iy ∧ dwX o ox kx = ix ∧
      (dwInBounds o (oy, ox) (ky, kx) = true ↔ 0 ≤ iy ∧ iy < D ∧ 0 ≤ ix ∧ ix < D)

/-! The units. -/

/-- Rule R190: the dual multiply-accumulate is exact and reduced modulo 2^32 once. -/
def Obligations.DualMacExact : Prop :=
  ∀ (acc : Word) (aLo aHi bLo bHi : Half),
    (dmac acc aLo aHi bLo bHi).toInt
      = Int.bmod (acc.toInt + aLo.toInt * bLo.toInt + aHi.toInt * bHi.toInt) (2 ^ 32)

/-- Rule R199: after the last step of a row pair each accumulator of a row that exists holds the closed form, for both
weight widths, every `N`, and whatever the array held before; an absent row's accumulators are not touched (rule
R194). Where the exact sum fits in 32 bits signed, the closed form is that sum. That it keeps its value is the model's
choice for hidden state (log entry 11). -/
def Obligations.MacArrayClosedForm : Prop :=
  (∀ (wb : WeightWidth) (m : Memory) (o : OperandRegs) (r : Nat) (a : MacArray),
    let b := macPair wb m o (zeroOffset m o 0) (zeroOffset m o 1) r a
    (r < o.rows → b.a00 = mmAcc wb m o r 0 ∧ b.a01 = mmAcc wb m o r 1) ∧
    (r + 1 < o.rows → b.a10 = mmAcc wb m o (r + 1) 0 ∧ b.a11 = mmAcc wb m o (r + 1) 1) ∧
    (¬ r + 1 < o.rows → b.a10 = a.a10 ∧ b.a11 = a.a11)) ∧
  ∀ (wb : WeightWidth) (m : Memory) (o : OperandRegs) (r j : Nat),
    -2 ^ 31 ≤ (bias m o r).toInt + mmDot wb m o r j → (bias m o r).toInt + mmDot wb m o r j < 2 ^ 31 →
    (mmAcc wb m o r j).toInt = (bias m o r).toInt + mmDot wb m o r j

/-- Rule R216: with `n_zero = -2` and `m = 2^30` the affine requantizer is the clamp plus `z_out` for every
accumulator below 2^29 in magnitude; with `n_zero = 0` no 32-bit `m` is the identity, and `m = 2^31 - 1` gives
`floor(s*(2^31-1)/2^32)`, 4 for 10. -/
def Obligations.AffineIdentitySetting : Prop :=
  (∀ (s : Word) (k zOut : Nat), (k = 4 ∨ k = 2) → zOut < 256 → -2 ^ 29 < s.toInt → s.toInt < 2 ^ 29 →
    (affine s (2 ^ 30) (-2) k zOut : Int) = (clamp s.toInt 0 (2 ^ k - 1) + zOut) % 2 ^ k) ∧
  (∀ m : Word, affine 10 m.toInt 0 4 0 ≠ 10) ∧
  (∀ s : Word, asr (mulHigh (shl32 s (preShift 0)) (2 ^ 31 - 1)) (postShift 0) = s.toInt * (2 ^ 31 - 1) / 2 ^ 32) ∧
  affine 10 (2 ^ 31 - 1) 0 4 0 = 4

/-- Rule R215: the corner cases of AFFINE. `m = 0` gives `v = 0`; a negative `m` takes an accumulator that is not
negative after the left shift to `v = 0`; `n1 >= 32` makes `t = 0`; `n2 >= 32` makes `u` 0 or -1 by the sign of the
product, so `v = 0`; each with level `z_out mod 2^k`; an overflowing left shift wraps. -/
def Obligations.AffineCornerCases : Prop :=
  (∀ (s : Word) (n : BitVec 8) (k zOut : Nat),
    satU k (asr (mulHigh (shl32 s (preShift n.toInt)) 0) (postShift n.toInt)) = 0 ∧ affine s 0 n.toInt k zOut = zOut % 2 ^ k) ∧
  (∀ (s m : Word) (n : BitVec 8) (k zOut : Nat), 0 ≤ (shl32 s (preShift n.toInt)).toInt → m.toInt < 0 →
    satU k (asr (mulHigh (shl32 s (preShift n.toInt)) m.toInt) (postShift n.toInt)) = 0 ∧
    affine s m.toInt n.toInt k zOut = zOut % 2 ^ k) ∧
  (∀ (s m : Word) (n : BitVec 8) (k zOut : Nat), 32 ≤ preShift n.toInt →
    shl32 s (preShift n.toInt) = 0 ∧ affine s m.toInt n.toInt k zOut = zOut % 2 ^ k) ∧
  (∀ (s m : Word) (n : BitVec 8) (k zOut : Nat), 32 ≤ postShift n.toInt →
    (0 ≤ mulHigh s m.toInt → asr (mulHigh s m.toInt) (postShift n.toInt) = 0) ∧
    (mulHigh s m.toInt < 0 → asr (mulHigh s m.toInt) (postShift n.toInt) = -1) ∧
    affine s m.toInt n.toInt k zOut = zOut % 2 ^ k) ∧
  (shl32 (BitVec.ofInt 32 (2 ^ 30)) 1).toInt = -2 ^ 31

/-- Rule R212: the affine requantizer for every accumulator, multiplier, shift and output zero point, in the rule's
own order: a wrapping left shift, the floor over 2^32, the floor of the right shift, the clamp, then `z_out` modulo
`2^k`. -/
def Obligations.AffineFormula : Prop :=
  ∀ (s m : Word) (n : BitVec 8) (k zOut : Nat),
    let t := Int.bmod (s.toInt * 2 ^ (-n.toInt).toNat) (2 ^ 32)
    let u := t * m.toInt / 2 ^ 32 / 2 ^ n.toInt.toNat
    (affine s m.toInt n.toInt k zOut : Int) = (max 0 (min u (2 ^ k - 1)) + zOut) % 2 ^ k

/-- Rule R213: the fixed-point multiply is the floor of the exact product over 2^32 and lies in `-2^30 .. 2^30`. -/
def Obligations.FixedPointMultiplyRange : Prop :=
  ∀ t m : Word, mulHigh t m.toInt * 2 ^ 32 ≤ t.toInt * m.toInt ∧ t.toInt * m.toInt < (mulHigh t m.toInt + 1) * 2 ^ 32 ∧
    -2 ^ 30 ≤ mulHigh t m.toInt ∧ mulHigh t m.toInt ≤ 2 ^ 30

/-- Rule R218: the level is the first index whose threshold exceeds the low 16 bits of the accumulator, else `2^k -
1`, for every table, the slice read at the stride of 20_memory.md rule R95. -/
def Obligations.ThresholdFirstIndex : Prop :=
  ∀ (m : Memory) (o : OperandRegs) (s : Word) (ch k : Nat), (k = 4 ∨ k = 2) →
    let j := thresh m o s ch k
    let u := Int.bmod s.toInt (2 ^ 16)
    j ≤ 2 ^ k - 1 ∧ (∀ i < j, (threshold m o k ch i).toInt ≤ u) ∧
      (j < 2 ^ k - 1 → u < (threshold m o k ch j).toInt)

/-- Rule R221: on a monotonic slice the level is the bucket between two boundaries, and it is the only such level. -/
def Obligations.ThresholdBucketUnique : Prop :=
  ∀ (m : Memory) (o : OperandRegs) (s : Word) (ch k j : Nat), Monotone (slice m o k ch) → j ≤ 2 ^ k - 1 →
    (thresh m o s ch k = j ↔
      (0 < j → (threshold m o k ch (j - 1)).toInt ≤ (trunc16 s).toInt) ∧
      (j < 2 ^ k - 1 → (trunc16 s).toInt < (threshold m o k ch j).toInt))

/-- Rule R231: a region of `L` levels is `cdiv(L*k, 8)` bytes (rule R230), each as PACK says, whatever the packer's
buffer held before; stored from a base they stand at `base + b`. -/
def Obligations.PackerMatchesPlacement : Prop :=
  ∀ (k : Nat) (levels : List Nat) (p : PackBuf), (k = 4 ∨ k = 2) →
    (packRegion k levels p).2.length = cdiv (levels.length * k) 8 ∧
    (∀ b < cdiv (levels.length * k) 8,
      (packRegion k levels p).2[b]? = some (BitVec.ofNat 8 (packedByte k levels.length (levels.getD · 0) b))) ∧
    ∀ (m : Memory) (base : Word), cdiv (levels.length * k) 8 ≤ 2 ^ 32 → ∀ b < cdiv (levels.length * k) 8,
      (m.writeAll (byteWrites base (packRegion k levels p).2)).read (addr base b)
        = BitVec.ofNat 8 (packedByte k levels.length (levels.getD · 0) b)

/-- Rule R183: the round-trip law. Bytes that the packer made of levels below `2^k`, decoded in natural order with
offset 0, give the levels back; decoded by UNPACK.B2.R they come permuted within each group of four, where an absent
level of a partial last group is 0. -/
def Obligations.PackUnpackRoundTrip : Prop :=
  ∀ (m : Memory) (o : OperandRegs) (p : PackBuf) (levels : List Nat) (w : ElementWidth), (w = .b2 ∨ w = .b4) →
    (∀ l ∈ levels, l < 2 ^ w.bits) → o.offset = 0 →
    (∀ b (h : b < (packRegion w.bits levels p).2.length),
      m.read (addr o.src1 b) = (packRegion w.bits levels p).2[b]) →
    (∀ i (h : i < levels.length), (unpackValue ⟨w, false⟩ m o i).toInt = levels[i]) ∧
    (w = .b2 → ∀ i < levels.length,
      (unpackValue ⟨.b2, true⟩ m o i).toInt = levels.getD (4 * (i / 4) + 3 - i % 4) 0)

/-- Rule R274: the lanes of a channel group hold the closed form for every channel that exists, whatever they held
before; a lane past the last channel is not touched. The last clause is the model's choice for hidden state (log entry
11). -/
def Obligations.DepthwiseLanesClosedForm : Prop :=
  ∀ (m : Memory) (o : OperandRegs) (p : Nat × Nat) (g : Nat) (a : LaneAccs), ∀ l < 4,
    (laneGroup m o p g a).toList[l]?
      = if 4 * g + l < o.chIn then some (dwAcc m o p (4 * g + l)) else a.toList[l]?

/-- Rule R282: a window entirely outside the input leaves every channel's accumulator at its bias, whatever the zero
points and the weights. -/
def Obligations.DepthwisePaddingLaw : Prop :=
  ∀ (m : Memory) (o : OperandRegs) (p : Nat × Nat) (g : Nat) (a : LaneAccs), (∀ cell ∈ dwCells o, dwInBounds o p cell = false) →
    ∀ l < 4, 4 * g + l < o.chIn → (laneGroup m o p g a).toList[l]? = some (bias m o (4 * g + l))

/-- Rule R272: a channel depends only on that channel's input, weights, bias and threshold slice. -/
def Obligations.DepthwiseChannelsIndependent : Prop :=
  ∀ (m m' : Memory) (o : OperandRegs) (p : Nat × Nat) (a a' : LaneAccs) (c : Nat), c < o.chIn →
    (∀ y < o.inDim, ∀ x < o.inDim, input m o y x c = input m' o y x c) →
    (∀ ky < o.kdim, ∀ kx < o.kdim, dwWeight m o ky kx c = dwWeight m' o ky kx c) →
    bias m o c = bias m' o c → (∀ i < 3, threshold m o 2 c i = threshold m' o 2 c i) →
    (pixelLevels m o p a).2[c]? = (pixelLevels m' o p a').2[c]?

/-! The commands. -/

/-- The four fold commands of the matrix engine complete with the packed affine levels of both columns (rules R247 to
R253). -/
def Obligations.MmFoldCommandsComplete : Prop :=
  MmCompletes .mmFoldW8O4 4 (mmFoldLevel .w8 4) ∧ MmCompletes .mmFoldW8O2 2 (mmFoldLevel .w8 2) ∧
  MmCompletes .mmFoldW4O4 4 (mmFoldLevel .w4 4) ∧ MmCompletes .mmFoldW4O2 2 (mmFoldLevel .w4 2)

/-- The four threshold commands of the matrix engine complete with the packed threshold levels of both columns. -/
def Obligations.MmThresholdCommandsComplete : Prop :=
  MmCompletes .mmThrW8O4 4 (mmThrLevel .w8 4) ∧ MmCompletes .mmThrW8O2 2 (mmThrLevel .w8 2) ∧
  MmCompletes .mmThrW4O4 4 (mmThrLevel .w4 4) ∧ MmCompletes .mmThrW4O2 2 (mmThrLevel .w4 2)

/-- DW.THR.O2 completes: every output pixel's bytes, the column buffer left with the last pixel's patch, RESULT past
the last pixel, every other byte and register as before (rules R274 to R280). -/
def Obligations.DepthwiseCommandCompletes : Prop :=
  ∀ s : State, s.snap.chIn = s.snap.chOut → OpClean (setsOf .dwThrO2 s) s →
    ∃ t, exec .dwThrO2 s = .next t ∧ CompletedFrame s t ∧ t.errcode = .ok ∧ t.faultAddr = s.faultAddr ∧
      t.result = addr s.snap.out (s.snap.outDim * s.snap.outDim * cdiv s.snap.chIn 4) ∧
      (∀ oy < s.snap.outDim, ∀ ox < s.snap.outDim, ∀ b < cdiv s.snap.chIn 4,
        t.mem.read (addr s.snap.out ((oy * s.snap.outDim + ox) * cdiv s.snap.chIn 4 + b))
          = BitVec.ofNat 8 (packedByte 2 s.snap.chIn (dwLevel s.mem s.snap (oy, ox)) b)) ∧
      (0 < s.snap.outDim → ∀ ky < s.snap.kdim, ∀ kx < s.snap.kdim, ∀ c < s.snap.chIn,
        t.mem.read (addr s.snap.col ((ky * s.snap.kdim + kx) * s.snap.chIn + c))
          = dwStaged s.mem s.snap (s.snap.outDim - 1, s.snap.outDim - 1) (ky, kx) c) ∧
      ∀ a, covers (setsOf .dwThrO2 s).ws a = false → t.mem.read a = s.mem.read a

/-- The three natural-order UNPACK commands complete (rules R175, R179, R181, R182): element `n` is the field of
packed element `n`, minus the offset. -/
def Obligations.UnpackNaturalCommandsComplete : Prop :=
  UnpackCompletes .unpackB2 (fun m p n => (m.read (addr p (n / 4))).toNat / 2 ^ (2 * (n % 4)) % 4) ∧
  UnpackCompletes .unpackB4 (fun m p n => (m.read (addr p (n / 2))).toNat / 2 ^ (4 * (n % 2)) % 16) ∧
  UnpackCompletes .unpackB8 (fun m p n => (m.read (addr p n)).toNat)

/-- UNPACK.B2.R completes (rule R180): within each byte the crumbs are taken from the top down. -/
def Obligations.UnpackReorderedCommandCompletes : Prop :=
  UnpackCompletes .unpackB2R (fun m p n => (m.read (addr p (n / 4))).toNat / 2 ^ (2 * (3 - n % 4)) % 4)

/-- Rule R283: DW with mismatched channels has ERRCODE SIZE_MISMATCH and leaves the data space and RESULT (rule R271),
even where its buffers would fail MEM_OK: at the START, where every such operation completes (rule R293), and in the
engine itself. The check in the engine is for states that no run reaches, the model's choice (log entry 16). -/
def Obligations.DepthwiseMismatchCompletes : Prop :=
  (∀ s : State, s.phase = .idle → decodeWord s.ops.cmd = .ok .dwThrO2 → s.ops.chIn ≠ s.ops.chOut →
    requestStart s = complete .sizeMismatch (acceptStart s) ∧ (requestStart s).errcode = .sizeMismatch ∧
    (requestStart s).mem = s.mem ∧ (requestStart s).result = s.result ∧ (requestStart s).faultAddr = s.faultAddr) ∧
  ∀ s : State, s.snap.chIn ≠ s.snap.chOut →
    ∃ t, exec .dwThrO2 s = .next t ∧ CompletedFrame s t ∧ t.errcode = .sizeMismatch ∧ t.mem = s.mem ∧
      t.result = s.result ∧ t.faultAddr = s.faultAddr

/-- Rule R296: an operation past the checks of START completes with BUS_ERROR if and only if a byte of RS ∪ WS fails
MEM_OK; FAULT_ADDR receives one such byte, RESULT stays, and no byte outside WS and no refused byte changes. -/
def Obligations.BusErrorExactlyOnRefusedByte : Prop :=
  ∀ (i : Instr) (s : State), (i = .dwThrO2 → s.snap.chIn = s.snap.chOut) → touchesSideEffect (setsOf i s) s = false →
    ∃ t, exec i s = .next t ∧ CompletedFrame s t ∧
      (t.errcode = .busError ↔
        ∃ a, covers ((setsOf i s).rs ++ (setsOf i s).ws) a = true ∧ s.platform.memOk a = false) ∧
      (t.errcode = .busError →
        covers ((setsOf i s).rs ++ (setsOf i s).ws) t.faultAddr = true ∧ s.platform.memOk t.faultAddr = false ∧
        t.result = s.result ∧
        ∀ a, covers (setsOf i s).ws a = false ∨ s.platform.memOk a = false → t.mem.read a = s.mem.read a) ∧
      (t.errcode ≠ .busError → t.errcode = .ok ∧ t.faultAddr = s.faultAddr)

/-- Rules R105, R297, and R103 for a HOST write into RS: an operation whose WS holds any value still completes with OK
and its result address, and no byte outside WS changes. That both reasons free the whole of WS before any other rule
is the model's reading (log entry 24). -/
def Obligations.FreeWriteSetStillCompletes : Prop :=
  ∀ (i : Instr) (s : State), (i = .dwThrO2 → s.snap.chIn = s.snap.chOut) → touchesSideEffect (setsOf i s) s = false →
    refusedBytes s.platform (setsOf i s) = [] → ((setsOf i s).overlap = true ∨ s.rsWritten = true) →
    ∃ t, exec i s = .next t ∧ CompletedFrame s t ∧ t.errcode = .ok ∧ t.faultAddr = s.faultAddr ∧
      t.result = operationResult (operationOf i) s.snap ∧
      ∀ a, covers (setsOf i s).ws a = false → t.mem.read a = s.mem.read a

/-- Rule R103: a byte of WS that the HOST wrote while the CORE was BUSY holds the HOST's value or the value the CORE
would have left there; every other byte is as if the HOST had kept the contract. The HOST's value is its last one, the
model's choice (log entry 8). -/
def Obligations.HostWrittenByteHoldsEitherValue : Prop :=
  ∀ (i : Instr) (s : State), OpClean (setsOf i s) { s with hostWrote := [] } →
    (i = .dwThrO2 → s.snap.chIn = s.snap.chOut) →
    ∃ t u, exec i s = .next t ∧ exec i { s with hostWrote := [] } = .next u ∧ ∀ a,
      (a ∈ s.hostWrote → t.mem.read a = s.mem.read a ∨ t.mem.read a = u.mem.read a) ∧
      (a ∉ s.hostWrote → t.mem.read a = u.mem.read a)

/-- Rule R88 and 93_implementation_defined.md U10: an operation with a buffer byte on memory with read side effects is
refused by name, unless it makes no data access at all. The refusal's precedence over BUS_ERROR is the model's choice
(log entry 23). -/
def Obligations.SideEffectBufferRefused : Prop :=
  ∀ (i : Instr) (s : State), (i = .dwThrO2 → s.snap.chIn = s.snap.chOut) →
    (∃ a, covers ((setsOf i s).rs ++ (setsOf i s).ws) a = true ∧ s.platform.hasSideEffect a = true) →
    exec i s = .refused .sideEffectMemory

/-! Whole-machine rules. -/

/-- Rules R100 and R292: whatever the outcome, no command writes a byte outside its WS, and OVERRUN, CTRL, CMD, the
operand registers and the snapshot are not changed. -/
def Obligations.NoCommandWritesOutsideWriteSet : Prop :=
  ∀ (i : Instr) (s t : State), exec i s = .next t →
    CompletedFrame s t ∧ ∀ a, covers (setsOf i s).ws a = false → t.mem.read a = s.mem.read a

/-- Each engine writes only its own hidden working registers (rules R60 to R63); that the others keep their values is
the model's choice (log entry 11), since the spec leaves them unspecified between operations. -/
def Obligations.EnginesLeaveOtherHiddenState : Prop :=
  ∀ (i : Instr) (s t : State), exec i s = .next t →
    (∀ v, operationOf i = .mm v →
      t.lanes = s.lanes ∧ t.seq = { s.seq with row := t.seq.row, col := t.seq.col }) ∧
    (operationOf i = .dw → t.mac = s.mac ∧ t.packer1 = s.packer1 ∧
      t.seq = { s.seq with oy := t.seq.oy, ox := t.seq.ox, chan := t.seq.chan, ky := t.seq.ky, kx := t.seq.kx }) ∧
    (∀ v, operationOf i = .unpack v → t.mac = s.mac ∧ t.lanes = s.lanes ∧ t.packer0 = s.packer0 ∧
      t.packer1 = s.packer1 ∧ t.seq = { s.seq with elem := t.seq.elem })

/-- Rule R300: a completion with any code raises `irq` when IRQ_EN = 1, and only then: the completion step of any
operation, and the completion inside the START that rule R293 gives an illegal word and a channel mismatch. -/
def Obligations.CompletionRaisesIrq : Prop :=
  (∀ (i : Instr) (s t : State), exec i s = .next t → t.irq = s.irqEn ∧ t.irqAt s.platform.irqLine = s.irqEn) ∧
  ∀ (s : State) (c : CompletionCode), s.phase = .idle → immediateCode s.ops = some c →
    (requestStart s).errcode = c ∧ (requestStart s).irq = s.irqEn ∧
      (requestStart s).irqAt s.platform.irqLine = s.irqEn

/-- Rules R59 and R109: a running operation reads its operands only from the snapshot; what the HOST has since put
into CMD and the operand registers changes nothing but those registers. -/
def Obligations.RunningOperationIgnoresLiveRegisters : Prop :=
  ∀ (i : Instr) (s : State) (o : OperandRegs),
    exec i { s with ops := o } = mapNext (fun t => { t with ops := o }) (exec i s)

/-- Rule R322 and 93_implementation_defined.md U16: no rule reads the accumulators, packer buffers or sequencer
indices before writing them; whatever they hold, every command does the same. What it holds is the model's choice (log
entry 11). -/
def Obligations.HiddenStateNeverRead : Prop :=
  ∀ (i : Instr) (s : State) (a a' : MacArray) (l l' : LaneAccs) (p0 p0' p1 p1' : PackBuf) (q q' : Sequencer),
    mapNext (withHidden a' l' p0' p1' q') (exec i (withHidden a l p0 p1 q s))
      = mapNext (withHidden a' l' p0' p1' q') (exec i s)

/-- Rules R100, R233, R276 and R328: an operation reads only bytes of RS, so two memories that agree on RS leave the
same bytes in WS, whatever the output buffers held before. -/
def Obligations.OutputDependsOnlyOnReadSet : Prop :=
  ∀ (i : Instr) (s : State) (m : Memory), OpClean (setsOf i s) s → (i = .dwThrO2 → s.snap.chIn = s.snap.chOut) →
    (∀ a, covers (setsOf i s).rs a = true → m.read a = s.mem.read a) →
    ∃ t u, exec i s = .next t ∧ exec i { s with mem := m } = .next u ∧ t.result = u.result ∧
      ∀ a, covers (setsOf i s).ws a = true → t.mem.read a = u.mem.read a

/-- Rule R33: OVERRUN is cleared only by a HOST write of 1 to that bit of STATUS or by reset. -/
def Obligations.OverrunStaysUntilCleared : Prop :=
  ∀ s t : State, step s = .next t → s.overrun = true → t.overrun = false →
    s.resetIn = true ∨
      ∃ v : Word, nextHostStep s = some (.write (regAddr s.platform .status) .word v) ∧ v.getLsbD 2 = true

/-- Rules R58 and R309: the CORE leaves IDLE only on an accepted START with a legal word, and leaves BUSY only by its
completion step or by reset. -/
def Obligations.PhaseChangesOnlyByStartAndCompletion : Prop :=
  ∀ s t : State, step s = .next t →
    (s.phase = .idle → t.phase = .busy → s.resetIn = false ∧
      ∃ v : Word, nextHostStep s = some (.write (regAddr s.platform .ctrl) .word v) ∧ v.getLsbD 0 = true ∧
        ∃ i, decodeWord s.ops.cmd = .ok i) ∧
    (s.phase = .busy → t.phase = .idle → s.resetIn = true ∨ s.delay = 0)

/-- Rule R82: MEM_OK is static while an operation is BUSY; CORE_BASE, IRQ_LINE and the regions with read side effects
never change. Who changes MEM_OK, and when, is the model's choice (log entry 18). -/
def Obligations.PlatformStaticWhileBusy : Prop :=
  ∀ s t : State, step s = .next t →
    (s.phase = .busy → t.platform = s.platform) ∧ t.platform.corePage = s.platform.corePage ∧
    t.platform.irqLine = s.platform.irqLine ∧ t.platform.sideEffect = s.platform.sideEffect

/-- Rules R59 and R155: a step that leaves an operation BUSY changes neither its snapshot nor RESULT, FAULT_ADDR,
ERRCODE or the hidden working registers, and never sets DONE. That the hidden registers stand still meanwhile is the
model's (log entries 11, 12). -/
def Obligations.BusyStepKeepsOperation : Prop :=
  ∀ s t : State, step s = .next t → s.phase = .busy → t.phase = .busy →
    t.snap = s.snap ∧ t.result = s.result ∧ t.faultAddr = s.faultAddr ∧ t.errcode = s.errcode ∧ t.mac = s.mac ∧
    t.lanes = s.lanes ∧ t.packer0 = s.packer0 ∧ t.packer1 = s.packer1 ∧ t.seq = s.seq ∧
    (t.done = true → s.done = true)

/-- Rules R157 and R333: an operation that runs completes after a finite time. With no reset asserted, every HOST step
before the completion brings it one step nearer, and with no HOST step left before it and no buffer on memory with
read side effects the next step completes; so a HOST whose program has ended sees the CORE IDLE with DONE set after
`delay + 1` steps. The count is that of the model's schedule (log entry 4). -/
def Obligations.EveryOperationCompletes : Prop :=
  ∀ s : State, s.resetIn = false → s.phase = .busy →
    (∀ t d, s.delay = d + 1 → step s = .next t → t.phase = .busy ∧ t.delay = d) ∧
    (s.delay = 0 → touchesSideEffect (snapshotSets s.snap) s = false →
      ∃ t, step s = .next t ∧ t.phase = .idle ∧ t.done = true) ∧
    (HostEnded s → touchesSideEffect (snapshotSets s.snap) s = false →
      ∃ t, RunsTo (s.delay + 1) s t ∧ t.phase = .idle ∧ t.done = true)

/-- The state after reset meets the invariant. -/
def Obligations.ResetMeetsInvariant : Prop := Inv State.reset

/-- Every step of the machine keeps the invariant: memory's canonical form, reserved register fields 0, BUSY and DONE
never both 1, a running operation has passed the checks of START and its ERRCODE is 0, and the model's record of the
HOST's writes lies in WS. The record is the model's own (log entry 8). -/
def Obligations.StepKeepsInvariant : Prop := ∀ s t : State, Inv s → step s = .next t → Inv t
end

