-- ==== Sys2Proof/Laws/Memory.lean ====
section
/-! SUPPORT. Canonical cell lists and byte memory: read after write, frames, and the canonical form kept. -/

namespace Sys2Proof.Machine

variable {α : Type} {d : α}

/-- Entries at or below a key do not matter to a read above it. -/
theorem cellGet_dropWhile {l : List (Nat × α)} {a b : Nat} (h : a < b) :
    cellGet d (l.dropWhile fun c => c.1 ≤ a) b = cellGet d l b := by
  induction l with
  | nil => rfl
  | cons c l ih =>
    obtain ⟨k, w⟩ := c
    by_cases hk : k ≤ a
    · have h1 : ¬ b < k := by omega
      have h2 : ¬ b = k := by omega
      simp [hk, ih, cellGet, h1, h2]
    · simp [hk]

/-- Below every remaining key nothing is listed. -/
theorem cellGet_dropWhile_below {l : List (Nat × α)} {a b : Nat} (h : b ≤ a) :
    cellGet d (l.dropWhile fun c => c.1 ≤ a) b = d := by
  induction l with
  | nil => rfl
  | cons c l ih =>
    obtain ⟨k, w⟩ := c
    by_cases hk : k ≤ a
    · simpa [hk] using ih
    · have : b < k := by omega
      simp [hk, cellGet, this]

/-- A key below every key of a sorted list reads as the default. -/
theorem cellGet_of_lt {l : List (Nat × α)} {a : Nat} (h : ∀ c ∈ l, a < c.1) : cellGet d l a = d := by
  cases l with
  | nil => rfl
  | cons c l =>
    have := h c (by simp)
    simp [cellGet, this]

variable [DecidableEq α]

/-- A read of the key just put gives the value put. -/
@[simp] theorem cellGet_cellSet_same (l : List (Nat × α)) (a : Nat) (v : α) : cellGet d (cellSet d l a v) a = v := by
  induction l with
  | nil => by_cases hv : v = d <;> simp [cellSet, cellGet, hv]
  | cons c l ih =>
    obtain ⟨k, w⟩ := c
    rcases Nat.lt_trichotomy a k with h | h | h
    · by_cases hv : v = d <;> simp [cellSet, cellGet, h, hv]
    · subst h
      by_cases hv : v = d
      · simp [cellSet, hv, cellGet_dropWhile_below (Nat.le_refl a)]
      · simp [cellSet, cellGet, hv]
    · have h1 : ¬ a < k := by omega
      have h2 : ¬ a = k := by omega
      simp [cellSet, cellGet, h1, h2, ih]

/-- A read of another key gives what it gave. -/
theorem cellGet_cellSet_other (l : List (Nat × α)) {a b : Nat} (v : α) (h : b ≠ a) :
    cellGet d (cellSet d l a v) b = cellGet d l b := by
  induction l with
  | nil =>
    by_cases hv : v = d
    · simp [cellSet, cellGet, hv]
    · by_cases hb : b < a <;> simp [cellSet, cellGet, hv, h, hb]
  | cons c l ih =>
    obtain ⟨k, w⟩ := c
    rcases Nat.lt_trichotomy a k with hk | hk | hk
    · by_cases hv : v = d
      · simp [cellSet, hk, hv]
      · by_cases hb : b < a
        · have : b < k := by omega
          simp [cellSet, cellGet, hk, hv, hb, this]
        · simp [cellSet, cellGet, hk, hv, hb, h]
    · subst hk
      by_cases hv : v = d
      · by_cases hb : b < a
        · simp [cellSet, cellGet, hv, hb, cellGet_dropWhile_below (Nat.le_of_lt hb)]
        · have : a < b := by omega
          simp [cellSet, cellGet, hv, hb, h, cellGet_dropWhile this]
      · by_cases hb : b < a <;> simp [cellSet, cellGet, hv, h, hb]
    · have h1 : ¬ a < k := by omega
      have h2 : ¬ a = k := by omega
      simp [cellSet, cellGet, h1, h2, ih]

/-- Every key of the list after a put is the key put or was a key before. -/
theorem cellSet_keys {l : List (Nat × α)} {a : Nat} {v : α} {c : Nat × α} (hc : c ∈ cellSet d l a v) :
    c = (a, v) ∧ v ≠ d ∨ c ∈ l := by
  induction l with
  | nil =>
    by_cases hv : v = d
    · simp [cellSet, hv] at hc
    · simp [cellSet, hv] at hc
      exact .inl ⟨hc, hv⟩
  | cons e l ih =>
    obtain ⟨k, w⟩ := e
    rcases Nat.lt_trichotomy a k with hk | hk | hk
    · by_cases hv : v = d
      · simp [cellSet, hk, hv] at hc
        exact .inr (by simpa using hc)
      · simp [cellSet, hk, hv] at hc
        rcases hc with hc | hc | hc
        · exact .inl ⟨hc, hv⟩
        · exact .inr (by simp [hc])
        · exact .inr (by simp [hc])
    · subst hk
      by_cases hv : v = d
      · simp only [cellSet, Nat.lt_irrefl, if_false, if_true, hv] at hc
        exact .inr (List.mem_cons_of_mem _ ((List.dropWhile_sublist _).subset hc))
      · simp [cellSet, hv] at hc
        rcases hc with hc | hc
        · exact .inl ⟨hc, hv⟩
        · exact .inr (by simp [hc])
    · have h1 : ¬ a < k := by omega
      have h2 : ¬ a = k := by omega
      simp only [cellSet, h1, h2, if_false, List.mem_cons] at hc
      rcases hc with hc | hc
      · exact .inr (by simp [hc])
      · rcases ih hc with h | h
        · exact .inl h
        · exact .inr (List.mem_cons_of_mem _ h)

/-- A put keeps the canonical form. -/
theorem cellSet_wf {l : List (Nat × α)} (h : cellsWf d l) (a : Nat) (v : α) : cellsWf d (cellSet d l a v) := by
  refine ⟨?_, ?_⟩
  · obtain ⟨hs, -⟩ := h
    induction l with
    | nil => by_cases hv : v = d <;> simp [cellSet, hv]
    | cons e l ih =>
      obtain ⟨k, w⟩ := e
      simp only [List.map_cons, List.pairwise_cons] at hs
      rcases Nat.lt_trichotomy a k with hk | hk | hk
      · by_cases hv : v = d
        · simpa [cellSet, hk, hv] using hs
        · simp only [cellSet, hk, if_true, hv, if_false, List.map_cons, List.pairwise_cons]
          refine ⟨?_, hs⟩
          intro b hb
          rcases List.mem_cons.1 hb with rfl | hb
          · exact hk
          · exact Nat.lt_trans hk (hs.1 b hb)
      · subst hk
        by_cases hv : v = d
        · simp only [cellSet, Nat.lt_irrefl, if_false, if_true, hv]
          exact hs.2.sublist ((List.dropWhile_sublist _).map _)
        · simpa [cellSet, hv] using hs
      · have h1 : ¬ a < k := by omega
        have h2 : ¬ a = k := by omega
        simp only [cellSet, h1, h2, if_false, List.map_cons, List.pairwise_cons]
        refine ⟨?_, ih hs.2⟩
        intro b hb
        obtain ⟨c, hc, rfl⟩ := List.mem_map.1 hb
        rcases cellSet_keys hc with ⟨rfl, -⟩ | hc
        · exact hk
        · exact hs.1 _ (List.mem_map_of_mem hc)
  · intro c hc
    rcases cellSet_keys hc with ⟨rfl, hv⟩ | hc
    · exact hv
    · exact h.2 c hc

/-- Two canonical lists with the same reads are the same list. -/
theorem cells_ext {l l' : List (Nat × α)} (h : cellsWf d l) (h' : cellsWf d l')
    (e : ∀ a, cellGet d l a = cellGet d l' a) : l = l' := by
  induction l generalizing l' with
  | nil =>
    cases l' with
    | nil => rfl
    | cons c l' =>
      have := e c.1
      simp [cellGet] at this
      exact absurd this.symm (h'.2 c (by simp))
  | cons c l ih =>
    obtain ⟨k, w⟩ := c
    have hw : w ≠ d := h.2 (k, w) (by simp)
    have hl : ∀ c ∈ l, k < c.1 := fun c hc => (List.pairwise_cons.1 h.1).1 _ (List.mem_map_of_mem hc)
    cases l' with
    | nil =>
      have := e k
      simp [cellGet] at this
      exact absurd this hw
    | cons c' l' =>
      obtain ⟨k', w'⟩ := c'
      have hw' : w' ≠ d := h'.2 (k', w') (by simp)
      have hl' : ∀ c ∈ l', k' < c.1 := fun c hc => (List.pairwise_cons.1 h'.1).1 _ (List.mem_map_of_mem hc)
      have hk : k = k' := by
        rcases Nat.lt_trichotomy k k' with h1 | h1 | h1
        · have := e k
          simp [cellGet, h1] at this
          exact absurd this hw
        · exact h1
        · have := e k'
          simp [cellGet, h1] at this
          exact absurd this.symm hw'
      subst hk
      have hww : w = w' := by simpa [cellGet] using e k
      subst hww
      congr 1
      refine ih ⟨(List.pairwise_cons.1 h.1).2, fun c hc => h.2 c (by simp [hc])⟩
        ⟨(List.pairwise_cons.1 h'.1).2, fun c hc => h'.2 c (by simp [hc])⟩ fun a => ?_
      by_cases ha : a ≤ k
      · rw [cellGet_of_lt fun c hc => Nat.lt_of_le_of_lt ha (hl c hc),
          cellGet_of_lt fun c hc => Nat.lt_of_le_of_lt ha (hl' c hc)]
      · have h1 : ¬ a < k := by omega
        have h2 : ¬ a = k := by omega
        simpa [cellGet, h1, h2] using e a

/-! Bytes. -/

/-- Read after write, the same address. -/
@[simp] theorem Memory.read_write_same (m : Memory) (a : Word) (v : Byte) : (m.write a v).read a = v := by
  simp [Memory.read, Memory.write]

/-- Read after write, another address. -/
theorem Memory.read_write_other (m : Memory) {a b : Word} (v : Byte) (h : b ≠ a) : (m.write a v).read b = m.read b := by
  have : b.toNat ≠ a.toNat := fun e => h (BitVec.eq_of_toNat_eq e)
  simp [Memory.read, Memory.write, cellGet_cellSet_other _ _ this]

/-- Read after write. -/
theorem Memory.read_write (m : Memory) (a b : Word) (v : Byte) :
    (m.write a v).read b = if b = a then v else m.read b := by
  by_cases h : b = a
  · simp [h]
  · simp [h, Memory.read_write_other m v h]

/-- A write keeps the canonical form. -/
theorem Memory.write_wf {m : Memory} (h : m.wf) (a : Word) (v : Byte) : (m.write a v).wf := by
  refine ⟨cellSet_wf h.1 _ _, fun c hc => ?_⟩
  rcases cellSet_keys hc with ⟨rfl, -⟩ | hc
  · exact a.isLt
  · exact h.2 c hc

/-- Equal reads of canonical memories mean equal memories. -/
theorem Memory.ext_of_reads {m n : Memory} (hm : m.wf) (hn : n.wf) (h : ∀ a, m.read a = n.read a) : m = n := by
  cases m with | mk l => cases n with | mk l' =>
  congr 1
  refine cells_ext hm.1 hn.1 fun a => ?_
  by_cases ha : a < 2 ^ 32
  · have := h (BitVec.ofNat 32 a)
    simpa only [Memory.read, BitVec.toNat_ofNat, Nat.mod_eq_of_lt ha] using this
  · have key : ∀ l : List Host.Cell, (∀ c ∈ l, c.1 < 2 ^ 32) →
        cellGet Config.unlistedByte l a = Config.unlistedByte := by
      intro l hl
      induction l with
      | nil => rfl
      | cons c l ih =>
        obtain ⟨k, w⟩ := c
        have h0 := hl (k, w) (by simp)
        have h1 : ¬ a < k := by omega
        have h2 : ¬ a = k := by omega
        simp only [cellGet, h1, h2, if_false]
        exact ih fun c hc => hl c (by simp [hc])
    rw [key l hm.2, key l' hn.2]

/-! Lists of writes. -/

@[simp] theorem Memory.writeAll_nil (m : Memory) : m.writeAll [] = m := rfl

@[simp] theorem Memory.writeAll_cons (m : Memory) (w : Word × Byte) (l : List (Word × Byte)) :
    m.writeAll (w :: l) = (m.write w.1 w.2).writeAll l := rfl

theorem Memory.writeAll_append (m : Memory) (l l' : List (Word × Byte)) :
    m.writeAll (l ++ l') = (m.writeAll l).writeAll l' := by
  simp [Memory.writeAll]

/-- A byte that no write of the list names is unchanged. -/
theorem Memory.read_writeAll_of_not_mem {l : List (Word × Byte)} (m : Memory) {a : Word} (h : ∀ w ∈ l, w.1 ≠ a) :
    (m.writeAll l).read a = m.read a := by
  induction l generalizing m with
  | nil => rfl
  | cons w l ih =>
    rw [Memory.writeAll_cons, ih _ fun w hw => h w (by simp [hw])]
    exact Memory.read_write_other _ _ (h w (by simp)).symm

/-- Where every write of the list to an address carries one value and there is such a write, the byte holds it. -/
theorem Memory.read_writeAll_of_mem {l : List (Word × Byte)} (m : Memory) {a : Word} {v : Byte}
    (hv : ∀ w ∈ l, w.1 = a → w.2 = v) (ha : ∃ w ∈ l, w.1 = a) : (m.writeAll l).read a = v := by
  induction l generalizing m with
  | nil => simp at ha
  | cons w l ih =>
    rw [Memory.writeAll_cons]
    by_cases h : ∃ w ∈ l, w.1 = a
    · exact ih _ (fun w hw => hv w (by simp [hw])) h
    · have hn : ∀ w ∈ l, w.1 ≠ a := fun w hw he => h ⟨w, hw, he⟩
      rw [Memory.read_writeAll_of_not_mem _ hn]
      obtain ⟨w', hw', he⟩ := ha
      rcases List.mem_cons.1 hw' with rfl | hw'
      · rw [← he, Memory.read_write_same]
        exact hv w' (by simp) he
      · exact absurd he (hn w' hw')

theorem Memory.writeAll_wf {m : Memory} (h : m.wf) (l : List (Word × Byte)) : (m.writeAll l).wf := by
  induction l generalizing m with
  | nil => exact h
  | cons w l ih => exact ih (Memory.write_wf h _ _)

/-! Free values. -/

/-- A listed byte holds its free value, any other byte what it held. -/
theorem Memory.read_havoc (n : Nat) (l : List Word) (m : Memory) (a : Word) :
    (m.havoc n l).read a = if a ∈ l then Config.freeByte n a.toNat else m.read a := by
  unfold Memory.havoc
  induction l generalizing m with
  | nil => simp
  | cons b l ih =>
    rw [List.foldl_cons, ih, Memory.read_write]
    by_cases h : a = b
    · subst h; simp
    · simp [h]

theorem Memory.havoc_wf {m : Memory} (h : m.wf) (n : Nat) (l : List Word) : (m.havoc n l).wf := by
  unfold Memory.havoc
  induction l generalizing m with
  | nil => exact h
  | cons b l ih => exact ih (Memory.write_wf h _ _)

/-- A listed byte holds the HOST's value or the CORE's, any other byte the CORE's. -/
theorem Memory.read_settle (n : Nat) (l : List Word) (before after : Memory) (a : Word) :
    (Memory.settle n l before after).read a
      = if a ∈ l ∧ Config.freeChoice n a.toNat = true then before.read a else after.read a := by
  unfold Memory.settle
  induction l generalizing after with
  | nil => simp
  | cons b l ih =>
    rw [List.foldl_cons, ih]
    by_cases h : a = b
    · subst h
      cases Config.freeChoice n a.toNat <;> simp
    · have e : ∀ c : Bool, (if c = true then after.write b (before.read b) else after).read a = after.read a := by
        intro c
        cases c <;> simp [Memory.read_write_other _ _ h]
      rw [e]
      simp [h]

theorem Memory.settle_wf {after : Memory} (h : after.wf) (n : Nat) (l : List Word) (before : Memory) :
    (Memory.settle n l before after).wf := by
  unfold Memory.settle
  induction l generalizing after with
  | nil => exact h
  | cons b l ih =>
    rw [List.foldl_cons]
    split
    · exact ih (Memory.write_wf h _ _)
    · exact ih h

@[simp] theorem Memory.settle_nil (n : Nat) (before after : Memory) : Memory.settle n [] before after = after := rfl

end Sys2Proof.Machine
end

