-- ==== Sys2Proof/Laws/Arith.lean ====
section
/-! SUPPORT. The arithmetic primitives, the first-index search and the bytes of a number: wrapping is a homomorphism, and what
each answers said once. -/

namespace Sys2Proof.Machine

theorem wrap32_add (a b : Int) : wrap32 (a + b) = wrap32 a + wrap32 b := BitVec.ofInt_add _ _

theorem wrap32_mul (a b : Int) : wrap32 (a * b) = wrap32 a * wrap32 b := BitVec.ofInt_mul _ _

theorem wrap32_sub (a b : Int) : wrap32 (a - b) = wrap32 a - wrap32 b := by
  rw [Int.sub_eq_add_neg, wrap32_add, BitVec.sub_eq_add_neg]
  exact congrArg _ BitVec.ofInt_neg

@[simp] theorem wrap32_toInt (a : Word) : wrap32 a.toInt = a := BitVec.ofInt_toInt

/-- The 16-bit cast, as a number (43_requant.md rule R219). -/
theorem trunc16_toInt (s : Word) : (trunc16 s).toInt = Int.bmod s.toInt (2 ^ 16) := by
  unfold trunc16
  rw [BitVec.toInt_setWidth, BitVec.toInt_eq_toNat_bmod, Int.bmod_bmod_of_dvd]
  norm_num

@[simp] theorem shl32_zero (s : Word) : shl32 s 0 = s := by simp [shl32]

/-- A left shift by 32 or more leaves nothing (00_scope.md rule R13). -/
theorem shl32_of_le (s : Word) {n : Nat} (h : 32 ≤ n) : shl32 s n = 0 := by
  obtain ⟨j, rfl⟩ := Nat.exists_eq_add_of_le h
  unfold shl32 wrap32
  rw [← BitVec.toInt_inj, BitVec.toInt_ofInt, pow_add, ← mul_assoc, mul_comm s.toInt, mul_assoc]
  simp [Int.bmod_def]

/-- Saturation takes every value that is not positive to 0. -/
theorem satU_of_nonpos {k : Nat} {u : Int} (h : u ≤ 0) : satU k u = 0 := by
  have : (1 : Int) ≤ 2 ^ k := by exact_mod_cast Nat.one_le_two_pow
  unfold satU clamp
  split
  · rfl
  · split <;> omega

/-- A weight is a byte. -/
theorem weight_lt (wb : WeightWidth) (m : Memory) (o : OperandRegs) (r c : Nat) : weight wb m o r c < 256 := by
  cases wb <;> simp only [weight]
  · exact BitVec.isLt _
  · omega

/-- A weight's lane holds the weight (42_mac.md rule R193). -/
theorem weightLane_toInt (wb : WeightWidth) (m : Memory) (o : OperandRegs) (r c : Nat) :
    (weightLane wb m o r c).toInt = weight wb m o r c := by
  have := weight_lt wb m o r c
  unfold weightLane
  rw [BitVec.toInt_ofNat', Int.bmod_eq_of_le] <;> omega

/-- All that the first-index search answers (43_requant.md rule R218). -/
theorem firstAbove_spec (u : Half) (l : List Half) :
    firstAbove u l ≤ l.length ∧ (∀ i (h : i < l.length), i < firstAbove u l → l[i].toInt ≤ u.toInt) ∧
      ∀ h : firstAbove u l < l.length, u.toInt < l[firstAbove u l].toInt := by
  unfold firstAbove
  refine ⟨List.findIdx_le_length, fun i h hi => ?_, fun h => ?_⟩
  · simpa using List.not_of_lt_findIdx hi
  · simpa using List.findIdx_getElem (w := h)

@[simp] theorem bytesLE_length (n v : Nat) : (bytesLE n v).length = n := by
  induction n generalizing v with
  | zero => rfl
  | succ n ih => simp [bytesLE, ih]

/-- Byte `i` of a number. -/
theorem bytesLE_getElem (n v i : Nat) (h : i < (bytesLE n v).length) :
    (bytesLE n v)[i] = BitVec.ofNat 8 (v / 256 ^ i) := by
  induction n generalizing v i with
  | zero => simp [bytesLE] at h
  | succ n ih =>
    cases i with
    | zero => simp [bytesLE]
    | succ i =>
      simp only [bytesLE, List.getElem_cons_succ]
      rw [ih, Nat.div_div_eq_div_mul, Nat.pow_succ']

end Sys2Proof.Machine
end

