-- ==== Sys2Proof/Laws/Decode.lean ====
section
/-! SUPPORT. Bytes joined into words, and the decoder on the four bytes of a number. -/

namespace Sys2Proof

/-- A bit vector before a byte, as a number. -/
theorem append_byte_toNat {n : Nat} (a : BitVec n) (b : Byte) : (a ++ b).toNat = a.toNat * 256 + b.toNat := by
  rw [BitVec.toNat_append, Nat.shiftLeft_eq, Nat.mul_comm, ← Nat.two_pow_add_eq_or_of_lt (i := 8) b.isLt]

/-- The four low bytes of a number, laid out least significant first, are its 32-bit word. -/
theorem wordOfBytes_ofNat (x : Nat) :
    wordOfBytes (BitVec.ofNat 8 x) (BitVec.ofNat 8 (x / 256)) (BitVec.ofNat 8 (x / 256 / 256))
      (BitVec.ofNat 8 (x / 256 / 256 / 256)) = BitVec.ofNat 32 x := by
  unfold wordOfBytes
  rw [← BitVec.toNat_inj]
  show BitVec.toNat (w := 8 + 8 + 8 + 8) _ = _
  simp only [append_byte_toNat, BitVec.toNat_ofNat]
  omega

/-- The decoder on the four bytes of a number is the decoder on its word. -/
theorem decodeBytes_bytesLE (x : Nat) : decodeBytes (bytesLE 4 x) = decodeWord (BitVec.ofNat 32 x) := by
  rw [← wordOfBytes_ofNat]
  rfl

end Sys2Proof
end

