-- ==== Sys2Proof/Laws/Ranges.lean ====
section
/-! SUPPORT. Address arithmetic and byte ranges: membership, cover, overlap. -/

namespace Sys2Proof.Machine

@[simp] theorem addr_zero (a : Word) : addr a 0 = a := by simp [addr]

theorem addr_addr (a : Word) (i j : Nat) : addr (addr a i) j = addr a (i + j) := by
  simp [addr, BitVec.ofNat_add, BitVec.add_assoc]

/-- The distance of an element address from its base. -/
theorem addr_sub (a : Word) (i : Nat) : (addr a i - a).toNat = i % 2 ^ 32 := by
  have : addr a i - a = BitVec.ofNat 32 i := by simp [addr]
  rw [this, BitVec.toNat_ofNat]

/-- Every address is its distance past any base. -/
theorem addr_of_sub (a b : Word) : addr b (a - b).toNat = a := by
  rw [addr, BitVec.ofNat_toNat, BitVec.setWidth_eq, BitVec.add_comm, BitVec.sub_add_cancel]

/-- Distinct small offsets give distinct addresses. -/
theorem addr_inj {a : Word} {i j : Nat} (hi : i < 2 ^ 32) (hj : j < 2 ^ 32) (h : addr a i = addr a j) : i = j := by
  have := congrArg (fun x => (x - a).toNat) h
  simpa only [addr_sub, Nat.mod_eq_of_lt hi, Nat.mod_eq_of_lt hj] using this

theorem ByteRange.mem_bytes {r : ByteRange} {a : Word} : a ∈ r.bytes ↔ ∃ i < r.len, addr r.base i = a := by
  simp [ByteRange.bytes]

/-- `contains` is membership. -/
theorem ByteRange.contains_iff {r : ByteRange} {a : Word} : r.contains a = true ↔ a ∈ r.bytes := by
  rw [ByteRange.mem_bytes]
  constructor
  · intro h
    exact ⟨(a - r.base).toNat, by simpa [ByteRange.contains] using h, addr_of_sub a r.base⟩
  · rintro ⟨i, hi, rfl⟩
    have : i % 2 ^ 32 ≤ i := Nat.mod_le _ _
    simp only [ByteRange.contains, addr_sub, decide_eq_true_eq]
    omega

/-- An element's byte lies in a range that holds its offset. -/
theorem ByteRange.contains_addr {b : Word} {n i : Nat} (h : i < n) : (ByteRange.mk b n).contains (addr b i) = true :=
  ByteRange.contains_iff.2 (ByteRange.mem_bytes.2 ⟨i, h, rfl⟩)

theorem mem_allBytes {l : List ByteRange} {a : Word} : a ∈ allBytes l ↔ ∃ r ∈ l, a ∈ r.bytes := by
  simp [allBytes]

/-- Cover is membership in the bytes. -/
theorem covers_iff {l : List ByteRange} {a : Word} : covers l a = true ↔ a ∈ allBytes l := by
  simp [covers, mem_allBytes, ByteRange.contains_iff]

theorem covers_eq_false {l : List ByteRange} {a : Word} : covers l a = false ↔ a ∉ allBytes l := by
  rw [← covers_iff, Bool.not_eq_true]

@[simp] theorem covers_nil (a : Word) : covers [] a = false := rfl

@[simp] theorem covers_cons (r : ByteRange) (l : List ByteRange) (a : Word) :
    covers (r :: l) a = (r.contains a || covers l a) := rfl

theorem covers_append (l l' : List ByteRange) (a : Word) : covers (l ++ l') a = (covers l a || covers l' a) := by
  simp [covers]

theorem covers_of_mem {l : List ByteRange} {r : ByteRange} {a : Word} (h : r ∈ l) (ha : r.contains a = true) :
    covers l a = true := by
  rw [covers, List.any_eq_true]
  exact ⟨r, h, ha⟩

theorem anyByte_iff {p : Word → Bool} {l : List ByteRange} : anyByte p l = true ↔ ∃ a ∈ allBytes l, p a = true := by
  simp only [anyByte, List.any_eq_true, mem_allBytes]
  constructor
  · rintro ⟨r, hr, a, ha, h⟩
    exact ⟨a, ⟨r, hr, ha⟩, h⟩
  · rintro ⟨a, ⟨r, hr, ha⟩, h⟩
    exact ⟨r, hr, a, ha, h⟩

theorem anyByte_eq_false {p : Word → Bool} {l : List ByteRange} :
    anyByte p l = false ↔ ∀ a ∈ allBytes l, p a = false := by
  rw [← Bool.not_eq_true, anyByte_iff]
  simp

/-- No overlap: no byte of WS lies in RS. -/
theorem OpSets.ws_not_rs {c : OpSets} (h : c.overlap = false) {a : Word} (ha : a ∈ allBytes c.ws) :
    covers c.rs a = false := by
  simp only [OpSets.overlap, Bool.or_eq_false_iff] at h
  exact anyByte_eq_false.1 h.1 a ha

/-- No overlap: two regions of WS in order share no byte. -/
theorem regionsMeet_pair {r r' : ByteRange} (h : regionsMeet [r, r'] = false) {a : Word} (ha : a ∈ r.bytes) :
    a ∉ r'.bytes := by
  simp only [regionsMeet, Bool.or_eq_false_iff] at h
  have := anyByte_eq_false.1 h.1 a (by simpa [allBytes] using ha)
  simpa [covers, ByteRange.contains_iff, ← Bool.not_eq_true] using this

/-- No refused byte: every byte of RS and WS satisfies MEM_OK. -/
theorem refusedBytes_eq_nil {p : Platform} {c : OpSets} :
    refusedBytes p c = [] ↔ ∀ a ∈ allBytes (c.rs ++ c.ws), p.memOk a = true := by
  simp [refusedBytes]

theorem mem_refusedBytes {p : Platform} {c : OpSets} {a : Word} :
    a ∈ refusedBytes p c ↔ a ∈ allBytes (c.rs ++ c.ws) ∧ p.memOk a = false := by
  simp [refusedBytes]

@[simp] theorem allBytes_nil : allBytes [] = [] := rfl

theorem allBytes_append (l l' : List ByteRange) : allBytes (l ++ l') = allBytes l ++ allBytes l' := by
  simp [allBytes]

@[simp] theorem OpSets.empty_rs : OpSets.empty.rs = [] := rfl
@[simp] theorem OpSets.empty_ws : OpSets.empty.ws = [] := rfl

/-- The sets of a decoded snapshot are its operation's. -/
theorem snapshotSets_of_decode {o : OperandRegs} {i : Instr} (h : decodeWord o.cmd = .ok i) :
    snapshotSets o = operationSets (operationOf i) o := by
  simp [snapshotSets, h]

theorem cdiv_le_iff {a b n : Nat} (hb : 0 < b) : n < cdiv a b ↔ n * b < a := by
  unfold cdiv
  rw [Nat.lt_iff_add_one_le, Nat.le_div_iff_mul_le hb, Nat.add_mul]
  omega

end Sys2Proof.Machine
end

