-- ==== Sys2Proof/Laws/State.lean ====
section
/-! SUPPORT. One lemma per field per update of State, each true by rfl, so that no later proof unfolds an update. -/

namespace Sys2Proof.Machine

@[simp] theorem complete_ops (code : CompletionCode) (s : State) : (complete code s).ops = s.ops := rfl
@[simp] theorem complete_irqEn (code : CompletionCode) (s : State) : (complete code s).irqEn = s.irqEn := rfl
@[simp] theorem complete_phase (code : CompletionCode) (s : State) : (complete code s).phase = .idle := rfl
@[simp] theorem complete_done (code : CompletionCode) (s : State) : (complete code s).done = true := rfl
@[simp] theorem complete_overrun (code : CompletionCode) (s : State) : (complete code s).overrun = s.overrun := rfl
@[simp] theorem complete_errcode (code : CompletionCode) (s : State) : (complete code s).errcode = code := rfl
@[simp] theorem complete_result (code : CompletionCode) (s : State) : (complete code s).result = s.result := rfl
@[simp] theorem complete_faultAddr (code : CompletionCode) (s : State) : (complete code s).faultAddr = s.faultAddr := rfl
@[simp] theorem complete_snap (code : CompletionCode) (s : State) : (complete code s).snap = s.snap := rfl
@[simp] theorem complete_mac (code : CompletionCode) (s : State) : (complete code s).mac = s.mac := rfl
@[simp] theorem complete_lanes (code : CompletionCode) (s : State) : (complete code s).lanes = s.lanes := rfl
@[simp] theorem complete_packer0 (code : CompletionCode) (s : State) : (complete code s).packer0 = s.packer0 := rfl
@[simp] theorem complete_packer1 (code : CompletionCode) (s : State) : (complete code s).packer1 = s.packer1 := rfl
@[simp] theorem complete_seq (code : CompletionCode) (s : State) : (complete code s).seq = s.seq := rfl
@[simp] theorem complete_resetIn (code : CompletionCode) (s : State) : (complete code s).resetIn = s.resetIn := rfl
@[simp] theorem complete_mem (code : CompletionCode) (s : State) : (complete code s).mem = s.mem := rfl
@[simp] theorem complete_platform (code : CompletionCode) (s : State) : (complete code s).platform = s.platform := rfl
@[simp] theorem complete_host (code : CompletionCode) (s : State) : (complete code s).host = s.host := rfl
@[simp] theorem complete_schedule (code : CompletionCode) (s : State) : (complete code s).schedule = s.schedule := rfl
@[simp] theorem complete_delay (code : CompletionCode) (s : State) : (complete code s).delay = 0 := rfl
@[simp] theorem complete_unobserved (code : CompletionCode) (s : State) : (complete code s).unobserved = s.unobserved := rfl
@[simp] theorem complete_rsWritten (code : CompletionCode) (s : State) : (complete code s).rsWritten = false := rfl
@[simp] theorem complete_hostWrote (code : CompletionCode) (s : State) : (complete code s).hostWrote = [] := rfl
@[simp] theorem complete_draws (code : CompletionCode) (s : State) : (complete code s).draws = s.draws := rfl

@[simp] theorem completeOk_ops (c : OpSets) (w : List (Word × Byte)) (r : Word) (s : State) : (completeOk c w r s).ops = s.ops := rfl
@[simp] theorem completeOk_irqEn (c : OpSets) (w : List (Word × Byte)) (r : Word) (s : State) : (completeOk c w r s).irqEn = s.irqEn := rfl
@[simp] theorem completeOk_phase (c : OpSets) (w : List (Word × Byte)) (r : Word) (s : State) : (completeOk c w r s).phase = .idle := rfl
@[simp] theorem completeOk_done (c : OpSets) (w : List (Word × Byte)) (r : Word) (s : State) : (completeOk c w r s).done = true := rfl
@[simp] theorem completeOk_overrun (c : OpSets) (w : List (Word × Byte)) (r : Word) (s : State) : (completeOk c w r s).overrun = s.overrun := rfl
@[simp] theorem completeOk_errcode (c : OpSets) (w : List (Word × Byte)) (r : Word) (s : State) : (completeOk c w r s).errcode = .ok := rfl
@[simp] theorem completeOk_result (c : OpSets) (w : List (Word × Byte)) (r : Word) (s : State) : (completeOk c w r s).result = r := rfl
@[simp] theorem completeOk_faultAddr (c : OpSets) (w : List (Word × Byte)) (r : Word) (s : State) : (completeOk c w r s).faultAddr = s.faultAddr := rfl
@[simp] theorem completeOk_snap (c : OpSets) (w : List (Word × Byte)) (r : Word) (s : State) : (completeOk c w r s).snap = s.snap := rfl
@[simp] theorem completeOk_mac (c : OpSets) (w : List (Word × Byte)) (r : Word) (s : State) : (completeOk c w r s).mac = s.mac := rfl
@[simp] theorem completeOk_lanes (c : OpSets) (w : List (Word × Byte)) (r : Word) (s : State) : (completeOk c w r s).lanes = s.lanes := rfl
@[simp] theorem completeOk_packer0 (c : OpSets) (w : List (Word × Byte)) (r : Word) (s : State) : (completeOk c w r s).packer0 = s.packer0 := rfl
@[simp] theorem completeOk_packer1 (c : OpSets) (w : List (Word × Byte)) (r : Word) (s : State) : (completeOk c w r s).packer1 = s.packer1 := rfl
@[simp] theorem completeOk_seq (c : OpSets) (w : List (Word × Byte)) (r : Word) (s : State) : (completeOk c w r s).seq = s.seq := rfl
@[simp] theorem completeOk_resetIn (c : OpSets) (w : List (Word × Byte)) (r : Word) (s : State) : (completeOk c w r s).resetIn = s.resetIn := rfl
@[simp] theorem completeOk_mem (c : OpSets) (w : List (Word × Byte)) (r : Word) (s : State) : (completeOk c w r s).mem = okMemory c w s := rfl
@[simp] theorem completeOk_platform (c : OpSets) (w : List (Word × Byte)) (r : Word) (s : State) : (completeOk c w r s).platform = s.platform := rfl
@[simp] theorem completeOk_host (c : OpSets) (w : List (Word × Byte)) (r : Word) (s : State) : (completeOk c w r s).host = s.host := rfl
@[simp] theorem completeOk_schedule (c : OpSets) (w : List (Word × Byte)) (r : Word) (s : State) : (completeOk c w r s).schedule = s.schedule := rfl
@[simp] theorem completeOk_delay (c : OpSets) (w : List (Word × Byte)) (r : Word) (s : State) : (completeOk c w r s).delay = 0 := rfl
@[simp] theorem completeOk_unobserved (c : OpSets) (w : List (Word × Byte)) (r : Word) (s : State) : (completeOk c w r s).unobserved = s.unobserved := rfl
@[simp] theorem completeOk_rsWritten (c : OpSets) (w : List (Word × Byte)) (r : Word) (s : State) : (completeOk c w r s).rsWritten = false := rfl
@[simp] theorem completeOk_hostWrote (c : OpSets) (w : List (Word × Byte)) (r : Word) (s : State) : (completeOk c w r s).hostWrote = [] := rfl
@[simp] theorem completeOk_draws (c : OpSets) (w : List (Word × Byte)) (r : Word) (s : State) : (completeOk c w r s).draws = s.draws + 1 := rfl

@[simp] theorem completeBusError_ops (c : OpSets) (s : State) : (completeBusError c s).ops = s.ops := rfl
@[simp] theorem completeBusError_irqEn (c : OpSets) (s : State) : (completeBusError c s).irqEn = s.irqEn := rfl
@[simp] theorem completeBusError_phase (c : OpSets) (s : State) : (completeBusError c s).phase = .idle := rfl
@[simp] theorem completeBusError_done (c : OpSets) (s : State) : (completeBusError c s).done = true := rfl
@[simp] theorem completeBusError_overrun (c : OpSets) (s : State) : (completeBusError c s).overrun = s.overrun := rfl
@[simp] theorem completeBusError_errcode (c : OpSets) (s : State) : (completeBusError c s).errcode = .busError := rfl
@[simp] theorem completeBusError_result (c : OpSets) (s : State) : (completeBusError c s).result = s.result := rfl
@[simp] theorem completeBusError_faultAddr (c : OpSets) (s : State) : (completeBusError c s).faultAddr = (refusedBytes s.platform c).getD (Config.freeIndex s.draws % (refusedBytes s.platform c).length) s.faultAddr := rfl
@[simp] theorem completeBusError_snap (c : OpSets) (s : State) : (completeBusError c s).snap = s.snap := rfl
@[simp] theorem completeBusError_mac (c : OpSets) (s : State) : (completeBusError c s).mac = s.mac := rfl
@[simp] theorem completeBusError_lanes (c : OpSets) (s : State) : (completeBusError c s).lanes = s.lanes := rfl
@[simp] theorem completeBusError_packer0 (c : OpSets) (s : State) : (completeBusError c s).packer0 = s.packer0 := rfl
@[simp] theorem completeBusError_packer1 (c : OpSets) (s : State) : (completeBusError c s).packer1 = s.packer1 := rfl
@[simp] theorem completeBusError_seq (c : OpSets) (s : State) : (completeBusError c s).seq = s.seq := rfl
@[simp] theorem completeBusError_resetIn (c : OpSets) (s : State) : (completeBusError c s).resetIn = s.resetIn := rfl
@[simp] theorem completeBusError_mem (c : OpSets) (s : State) : (completeBusError c s).mem = s.mem.havoc s.draws ((allBytes c.ws).filter s.platform.memOk) := rfl
@[simp] theorem completeBusError_platform (c : OpSets) (s : State) : (completeBusError c s).platform = s.platform := rfl
@[simp] theorem completeBusError_host (c : OpSets) (s : State) : (completeBusError c s).host = s.host := rfl
@[simp] theorem completeBusError_schedule (c : OpSets) (s : State) : (completeBusError c s).schedule = s.schedule := rfl
@[simp] theorem completeBusError_delay (c : OpSets) (s : State) : (completeBusError c s).delay = 0 := rfl
@[simp] theorem completeBusError_unobserved (c : OpSets) (s : State) : (completeBusError c s).unobserved = s.unobserved := rfl
@[simp] theorem completeBusError_rsWritten (c : OpSets) (s : State) : (completeBusError c s).rsWritten = false := rfl
@[simp] theorem completeBusError_hostWrote (c : OpSets) (s : State) : (completeBusError c s).hostWrote = [] := rfl
@[simp] theorem completeBusError_draws (c : OpSets) (s : State) : (completeBusError c s).draws = s.draws + 1 := rfl

@[simp] theorem acknowledge_ops (v : Word) (s : State) : (acknowledge v s).ops = s.ops := rfl
@[simp] theorem acknowledge_irqEn (v : Word) (s : State) : (acknowledge v s).irqEn = s.irqEn := rfl
@[simp] theorem acknowledge_phase (v : Word) (s : State) : (acknowledge v s).phase = s.phase := rfl
@[simp] theorem acknowledge_done (v : Word) (s : State) : (acknowledge v s).done = (s.done && !v.getLsbD 1) := rfl
@[simp] theorem acknowledge_overrun (v : Word) (s : State) : (acknowledge v s).overrun = (s.overrun && !v.getLsbD 2) := rfl
@[simp] theorem acknowledge_errcode (v : Word) (s : State) : (acknowledge v s).errcode = s.errcode := rfl
@[simp] theorem acknowledge_result (v : Word) (s : State) : (acknowledge v s).result = s.result := rfl
@[simp] theorem acknowledge_faultAddr (v : Word) (s : State) : (acknowledge v s).faultAddr = s.faultAddr := rfl
@[simp] theorem acknowledge_snap (v : Word) (s : State) : (acknowledge v s).snap = s.snap := rfl
@[simp] theorem acknowledge_mac (v : Word) (s : State) : (acknowledge v s).mac = s.mac := rfl
@[simp] theorem acknowledge_lanes (v : Word) (s : State) : (acknowledge v s).lanes = s.lanes := rfl
@[simp] theorem acknowledge_packer0 (v : Word) (s : State) : (acknowledge v s).packer0 = s.packer0 := rfl
@[simp] theorem acknowledge_packer1 (v : Word) (s : State) : (acknowledge v s).packer1 = s.packer1 := rfl
@[simp] theorem acknowledge_seq (v : Word) (s : State) : (acknowledge v s).seq = s.seq := rfl
@[simp] theorem acknowledge_resetIn (v : Word) (s : State) : (acknowledge v s).resetIn = s.resetIn := rfl
@[simp] theorem acknowledge_mem (v : Word) (s : State) : (acknowledge v s).mem = s.mem := rfl
@[simp] theorem acknowledge_platform (v : Word) (s : State) : (acknowledge v s).platform = s.platform := rfl
@[simp] theorem acknowledge_host (v : Word) (s : State) : (acknowledge v s).host = s.host := rfl
@[simp] theorem acknowledge_schedule (v : Word) (s : State) : (acknowledge v s).schedule = s.schedule := rfl
@[simp] theorem acknowledge_delay (v : Word) (s : State) : (acknowledge v s).delay = s.delay := rfl
@[simp] theorem acknowledge_unobserved (v : Word) (s : State) : (acknowledge v s).unobserved = s.unobserved := rfl
@[simp] theorem acknowledge_rsWritten (v : Word) (s : State) : (acknowledge v s).rsWritten = s.rsWritten := rfl
@[simp] theorem acknowledge_hostWrote (v : Word) (s : State) : (acknowledge v s).hostWrote = s.hostWrote := rfl
@[simp] theorem acknowledge_draws (v : Word) (s : State) : (acknowledge v s).draws = s.draws := rfl

@[simp] theorem acceptStart_ops (s : State) : (acceptStart s).ops = s.ops := rfl
@[simp] theorem acceptStart_irqEn (s : State) : (acceptStart s).irqEn = s.irqEn := rfl
@[simp] theorem acceptStart_phase (s : State) : (acceptStart s).phase = .busy := rfl
@[simp] theorem acceptStart_done (s : State) : (acceptStart s).done = false := rfl
@[simp] theorem acceptStart_overrun (s : State) : (acceptStart s).overrun = s.overrun := rfl
@[simp] theorem acceptStart_errcode (s : State) : (acceptStart s).errcode = .ok := rfl
@[simp] theorem acceptStart_result (s : State) : (acceptStart s).result = s.result := rfl
@[simp] theorem acceptStart_faultAddr (s : State) : (acceptStart s).faultAddr = s.faultAddr := rfl
@[simp] theorem acceptStart_snap (s : State) : (acceptStart s).snap = s.ops := rfl
@[simp] theorem acceptStart_mac (s : State) : (acceptStart s).mac = s.mac := rfl
@[simp] theorem acceptStart_lanes (s : State) : (acceptStart s).lanes = s.lanes := rfl
@[simp] theorem acceptStart_packer0 (s : State) : (acceptStart s).packer0 = s.packer0 := rfl
@[simp] theorem acceptStart_packer1 (s : State) : (acceptStart s).packer1 = s.packer1 := rfl
@[simp] theorem acceptStart_seq (s : State) : (acceptStart s).seq = s.seq := rfl
@[simp] theorem acceptStart_resetIn (s : State) : (acceptStart s).resetIn = s.resetIn := rfl
@[simp] theorem acceptStart_mem (s : State) : (acceptStart s).mem = s.mem := rfl
@[simp] theorem acceptStart_platform (s : State) : (acceptStart s).platform = s.platform := rfl
@[simp] theorem acceptStart_host (s : State) : (acceptStart s).host = s.host := rfl
@[simp] theorem acceptStart_schedule (s : State) : (acceptStart s).schedule = s.schedule := rfl
@[simp] theorem acceptStart_delay (s : State) : (acceptStart s).delay = 0 := rfl
@[simp] theorem acceptStart_unobserved (s : State) : (acceptStart s).unobserved = true := rfl
@[simp] theorem acceptStart_rsWritten (s : State) : (acceptStart s).rsWritten = false := rfl
@[simp] theorem acceptStart_hostWrote (s : State) : (acceptStart s).hostWrote = [] := rfl
@[simp] theorem acceptStart_draws (s : State) : (acceptStart s).draws = s.draws := rfl

@[simp] theorem observe_ops (s : State) : (observe s).ops = s.ops := rfl
@[simp] theorem observe_irqEn (s : State) : (observe s).irqEn = s.irqEn := rfl
@[simp] theorem observe_phase (s : State) : (observe s).phase = s.phase := rfl
@[simp] theorem observe_done (s : State) : (observe s).done = s.done := rfl
@[simp] theorem observe_overrun (s : State) : (observe s).overrun = s.overrun := rfl
@[simp] theorem observe_errcode (s : State) : (observe s).errcode = s.errcode := rfl
@[simp] theorem observe_result (s : State) : (observe s).result = s.result := rfl
@[simp] theorem observe_faultAddr (s : State) : (observe s).faultAddr = s.faultAddr := rfl
@[simp] theorem observe_snap (s : State) : (observe s).snap = s.snap := rfl
@[simp] theorem observe_mac (s : State) : (observe s).mac = s.mac := rfl
@[simp] theorem observe_lanes (s : State) : (observe s).lanes = s.lanes := rfl
@[simp] theorem observe_packer0 (s : State) : (observe s).packer0 = s.packer0 := rfl
@[simp] theorem observe_packer1 (s : State) : (observe s).packer1 = s.packer1 := rfl
@[simp] theorem observe_seq (s : State) : (observe s).seq = s.seq := rfl
@[simp] theorem observe_resetIn (s : State) : (observe s).resetIn = s.resetIn := rfl
@[simp] theorem observe_mem (s : State) : (observe s).mem = s.mem := rfl
@[simp] theorem observe_platform (s : State) : (observe s).platform = s.platform := rfl
@[simp] theorem observe_host (s : State) : (observe s).host = s.host := rfl
@[simp] theorem observe_schedule (s : State) : (observe s).schedule = s.schedule := rfl
@[simp] theorem observe_delay (s : State) : (observe s).delay = s.delay := rfl
@[simp] theorem observe_unobserved (s : State) : (observe s).unobserved = false := rfl
@[simp] theorem observe_rsWritten (s : State) : (observe s).rsWritten = s.rsWritten := rfl
@[simp] theorem observe_hostWrote (s : State) : (observe s).hostWrote = s.hostWrote := rfl
@[simp] theorem observe_draws (s : State) : (observe s).draws = s.draws := rfl

@[simp] theorem coreReset_ops (s : State) : (coreReset s).ops = OperandRegs.zero := rfl
@[simp] theorem coreReset_irqEn (s : State) : (coreReset s).irqEn = false := rfl
@[simp] theorem coreReset_phase (s : State) : (coreReset s).phase = .idle := rfl
@[simp] theorem coreReset_done (s : State) : (coreReset s).done = false := rfl
@[simp] theorem coreReset_overrun (s : State) : (coreReset s).overrun = false := rfl
@[simp] theorem coreReset_errcode (s : State) : (coreReset s).errcode = .ok := rfl
@[simp] theorem coreReset_result (s : State) : (coreReset s).result = 0 := rfl
@[simp] theorem coreReset_faultAddr (s : State) : (coreReset s).faultAddr = 0 := rfl
@[simp] theorem coreReset_snap (s : State) : (coreReset s).snap = s.snap := rfl
@[simp] theorem coreReset_mac (s : State) : (coreReset s).mac = s.mac := rfl
@[simp] theorem coreReset_lanes (s : State) : (coreReset s).lanes = s.lanes := rfl
@[simp] theorem coreReset_packer0 (s : State) : (coreReset s).packer0 = s.packer0 := rfl
@[simp] theorem coreReset_packer1 (s : State) : (coreReset s).packer1 = s.packer1 := rfl
@[simp] theorem coreReset_seq (s : State) : (coreReset s).seq = s.seq := rfl
@[simp] theorem coreReset_resetIn (s : State) : (coreReset s).resetIn = false := rfl
@[simp] theorem coreReset_platform (s : State) : (coreReset s).platform = s.platform := rfl
@[simp] theorem coreReset_host (s : State) : (coreReset s).host = s.host := rfl
@[simp] theorem coreReset_schedule (s : State) : (coreReset s).schedule = s.schedule := rfl
@[simp] theorem coreReset_delay (s : State) : (coreReset s).delay = 0 := rfl
@[simp] theorem coreReset_unobserved (s : State) : (coreReset s).unobserved = false := rfl
@[simp] theorem coreReset_rsWritten (s : State) : (coreReset s).rsWritten = false := rfl
@[simp] theorem coreReset_hostWrote (s : State) : (coreReset s).hostWrote = [] := rfl
@[simp] theorem coreReset_draws (s : State) : (coreReset s).draws = s.draws + 1 := rfl

@[simp] theorem advance_ops (s : State) : (advance s).ops = s.ops := rfl
@[simp] theorem advance_irqEn (s : State) : (advance s).irqEn = s.irqEn := rfl
@[simp] theorem advance_phase (s : State) : (advance s).phase = s.phase := rfl
@[simp] theorem advance_done (s : State) : (advance s).done = s.done := rfl
@[simp] theorem advance_overrun (s : State) : (advance s).overrun = s.overrun := rfl
@[simp] theorem advance_errcode (s : State) : (advance s).errcode = s.errcode := rfl
@[simp] theorem advance_result (s : State) : (advance s).result = s.result := rfl
@[simp] theorem advance_faultAddr (s : State) : (advance s).faultAddr = s.faultAddr := rfl
@[simp] theorem advance_snap (s : State) : (advance s).snap = s.snap := rfl
@[simp] theorem advance_mac (s : State) : (advance s).mac = s.mac := rfl
@[simp] theorem advance_lanes (s : State) : (advance s).lanes = s.lanes := rfl
@[simp] theorem advance_packer0 (s : State) : (advance s).packer0 = s.packer0 := rfl
@[simp] theorem advance_packer1 (s : State) : (advance s).packer1 = s.packer1 := rfl
@[simp] theorem advance_seq (s : State) : (advance s).seq = s.seq := rfl
@[simp] theorem advance_resetIn (s : State) : (advance s).resetIn = s.resetIn := rfl
@[simp] theorem advance_mem (s : State) : (advance s).mem = s.mem := rfl
@[simp] theorem advance_platform (s : State) : (advance s).platform = s.platform := rfl
@[simp] theorem advance_host (s : State) : (advance s).host = ⟨s.host.prog, s.host.pos + 1, s.host.temps⟩ := rfl
@[simp] theorem advance_schedule (s : State) : (advance s).schedule = s.schedule := rfl
@[simp] theorem advance_delay (s : State) : (advance s).delay = s.delay := rfl
@[simp] theorem advance_unobserved (s : State) : (advance s).unobserved = s.unobserved := rfl
@[simp] theorem advance_rsWritten (s : State) : (advance s).rsWritten = s.rsWritten := rfl
@[simp] theorem advance_hostWrote (s : State) : (advance s).hostWrote = s.hostWrote := rfl
@[simp] theorem advance_draws (s : State) : (advance s).draws = s.draws := rfl

@[simp] theorem jumpTo_ops (n : Nat) (s : State) : (jumpTo n s).ops = s.ops := rfl
@[simp] theorem jumpTo_irqEn (n : Nat) (s : State) : (jumpTo n s).irqEn = s.irqEn := rfl
@[simp] theorem jumpTo_phase (n : Nat) (s : State) : (jumpTo n s).phase = s.phase := rfl
@[simp] theorem jumpTo_done (n : Nat) (s : State) : (jumpTo n s).done = s.done := rfl
@[simp] theorem jumpTo_overrun (n : Nat) (s : State) : (jumpTo n s).overrun = s.overrun := rfl
@[simp] theorem jumpTo_errcode (n : Nat) (s : State) : (jumpTo n s).errcode = s.errcode := rfl
@[simp] theorem jumpTo_result (n : Nat) (s : State) : (jumpTo n s).result = s.result := rfl
@[simp] theorem jumpTo_faultAddr (n : Nat) (s : State) : (jumpTo n s).faultAddr = s.faultAddr := rfl
@[simp] theorem jumpTo_snap (n : Nat) (s : State) : (jumpTo n s).snap = s.snap := rfl
@[simp] theorem jumpTo_mac (n : Nat) (s : State) : (jumpTo n s).mac = s.mac := rfl
@[simp] theorem jumpTo_lanes (n : Nat) (s : State) : (jumpTo n s).lanes = s.lanes := rfl
@[simp] theorem jumpTo_packer0 (n : Nat) (s : State) : (jumpTo n s).packer0 = s.packer0 := rfl
@[simp] theorem jumpTo_packer1 (n : Nat) (s : State) : (jumpTo n s).packer1 = s.packer1 := rfl
@[simp] theorem jumpTo_seq (n : Nat) (s : State) : (jumpTo n s).seq = s.seq := rfl
@[simp] theorem jumpTo_resetIn (n : Nat) (s : State) : (jumpTo n s).resetIn = s.resetIn := rfl
@[simp] theorem jumpTo_mem (n : Nat) (s : State) : (jumpTo n s).mem = s.mem := rfl
@[simp] theorem jumpTo_platform (n : Nat) (s : State) : (jumpTo n s).platform = s.platform := rfl
@[simp] theorem jumpTo_host (n : Nat) (s : State) : (jumpTo n s).host = ⟨s.host.prog, n, s.host.temps⟩ := rfl
@[simp] theorem jumpTo_schedule (n : Nat) (s : State) : (jumpTo n s).schedule = s.schedule := rfl
@[simp] theorem jumpTo_delay (n : Nat) (s : State) : (jumpTo n s).delay = s.delay := rfl
@[simp] theorem jumpTo_unobserved (n : Nat) (s : State) : (jumpTo n s).unobserved = s.unobserved := rfl
@[simp] theorem jumpTo_rsWritten (n : Nat) (s : State) : (jumpTo n s).rsWritten = s.rsWritten := rfl
@[simp] theorem jumpTo_hostWrote (n : Nat) (s : State) : (jumpTo n s).hostWrote = s.hostWrote := rfl
@[simp] theorem jumpTo_draws (n : Nat) (s : State) : (jumpTo n s).draws = s.draws := rfl

@[simp] theorem setTemp_ops (t : Nat) (v : Word) (s : State) : (setTemp t v s).ops = s.ops := rfl
@[simp] theorem setTemp_irqEn (t : Nat) (v : Word) (s : State) : (setTemp t v s).irqEn = s.irqEn := rfl
@[simp] theorem setTemp_phase (t : Nat) (v : Word) (s : State) : (setTemp t v s).phase = s.phase := rfl
@[simp] theorem setTemp_done (t : Nat) (v : Word) (s : State) : (setTemp t v s).done = s.done := rfl
@[simp] theorem setTemp_overrun (t : Nat) (v : Word) (s : State) : (setTemp t v s).overrun = s.overrun := rfl
@[simp] theorem setTemp_errcode (t : Nat) (v : Word) (s : State) : (setTemp t v s).errcode = s.errcode := rfl
@[simp] theorem setTemp_result (t : Nat) (v : Word) (s : State) : (setTemp t v s).result = s.result := rfl
@[simp] theorem setTemp_faultAddr (t : Nat) (v : Word) (s : State) : (setTemp t v s).faultAddr = s.faultAddr := rfl
@[simp] theorem setTemp_snap (t : Nat) (v : Word) (s : State) : (setTemp t v s).snap = s.snap := rfl
@[simp] theorem setTemp_mac (t : Nat) (v : Word) (s : State) : (setTemp t v s).mac = s.mac := rfl
@[simp] theorem setTemp_lanes (t : Nat) (v : Word) (s : State) : (setTemp t v s).lanes = s.lanes := rfl
@[simp] theorem setTemp_packer0 (t : Nat) (v : Word) (s : State) : (setTemp t v s).packer0 = s.packer0 := rfl
@[simp] theorem setTemp_packer1 (t : Nat) (v : Word) (s : State) : (setTemp t v s).packer1 = s.packer1 := rfl
@[simp] theorem setTemp_seq (t : Nat) (v : Word) (s : State) : (setTemp t v s).seq = s.seq := rfl
@[simp] theorem setTemp_resetIn (t : Nat) (v : Word) (s : State) : (setTemp t v s).resetIn = s.resetIn := rfl
@[simp] theorem setTemp_mem (t : Nat) (v : Word) (s : State) : (setTemp t v s).mem = s.mem := rfl
@[simp] theorem setTemp_platform (t : Nat) (v : Word) (s : State) : (setTemp t v s).platform = s.platform := rfl
@[simp] theorem setTemp_host (t : Nat) (v : Word) (s : State) : (setTemp t v s).host = s.host.setTemp t v := rfl
@[simp] theorem setTemp_schedule (t : Nat) (v : Word) (s : State) : (setTemp t v s).schedule = s.schedule := rfl
@[simp] theorem setTemp_delay (t : Nat) (v : Word) (s : State) : (setTemp t v s).delay = s.delay := rfl
@[simp] theorem setTemp_unobserved (t : Nat) (v : Word) (s : State) : (setTemp t v s).unobserved = s.unobserved := rfl
@[simp] theorem setTemp_rsWritten (t : Nat) (v : Word) (s : State) : (setTemp t v s).rsWritten = s.rsWritten := rfl
@[simp] theorem setTemp_hostWrote (t : Nat) (v : Word) (s : State) : (setTemp t v s).hostWrote = s.hostWrote := rfl
@[simp] theorem setTemp_draws (t : Nat) (v : Word) (s : State) : (setTemp t v s).draws = s.draws := rfl

@[simp] theorem hostStoreByte_ops (s : State) (w : Word × Byte) : (hostStoreByte s w).ops = s.ops := rfl
@[simp] theorem hostStoreByte_irqEn (s : State) (w : Word × Byte) : (hostStoreByte s w).irqEn = s.irqEn := rfl
@[simp] theorem hostStoreByte_phase (s : State) (w : Word × Byte) : (hostStoreByte s w).phase = s.phase := rfl
@[simp] theorem hostStoreByte_done (s : State) (w : Word × Byte) : (hostStoreByte s w).done = s.done := rfl
@[simp] theorem hostStoreByte_overrun (s : State) (w : Word × Byte) : (hostStoreByte s w).overrun = s.overrun := rfl
@[simp] theorem hostStoreByte_errcode (s : State) (w : Word × Byte) : (hostStoreByte s w).errcode = s.errcode := rfl
@[simp] theorem hostStoreByte_result (s : State) (w : Word × Byte) : (hostStoreByte s w).result = s.result := rfl
@[simp] theorem hostStoreByte_faultAddr (s : State) (w : Word × Byte) : (hostStoreByte s w).faultAddr = s.faultAddr := rfl
@[simp] theorem hostStoreByte_snap (s : State) (w : Word × Byte) : (hostStoreByte s w).snap = s.snap := rfl
@[simp] theorem hostStoreByte_mac (s : State) (w : Word × Byte) : (hostStoreByte s w).mac = s.mac := rfl
@[simp] theorem hostStoreByte_lanes (s : State) (w : Word × Byte) : (hostStoreByte s w).lanes = s.lanes := rfl
@[simp] theorem hostStoreByte_packer0 (s : State) (w : Word × Byte) : (hostStoreByte s w).packer0 = s.packer0 := rfl
@[simp] theorem hostStoreByte_packer1 (s : State) (w : Word × Byte) : (hostStoreByte s w).packer1 = s.packer1 := rfl
@[simp] theorem hostStoreByte_seq (s : State) (w : Word × Byte) : (hostStoreByte s w).seq = s.seq := rfl
@[simp] theorem hostStoreByte_resetIn (s : State) (w : Word × Byte) : (hostStoreByte s w).resetIn = s.resetIn := rfl
@[simp] theorem hostStoreByte_mem (s : State) (w : Word × Byte) : (hostStoreByte s w).mem = s.mem.write w.1 w.2 := rfl
@[simp] theorem hostStoreByte_platform (s : State) (w : Word × Byte) : (hostStoreByte s w).platform = s.platform := rfl
@[simp] theorem hostStoreByte_host (s : State) (w : Word × Byte) : (hostStoreByte s w).host = s.host := rfl
@[simp] theorem hostStoreByte_schedule (s : State) (w : Word × Byte) : (hostStoreByte s w).schedule = s.schedule := rfl
@[simp] theorem hostStoreByte_delay (s : State) (w : Word × Byte) : (hostStoreByte s w).delay = s.delay := rfl
@[simp] theorem hostStoreByte_unobserved (s : State) (w : Word × Byte) : (hostStoreByte s w).unobserved = s.unobserved := rfl
@[simp] theorem hostStoreByte_rsWritten (s : State) (w : Word × Byte) : (hostStoreByte s w).rsWritten = (s.rsWritten || (s.busy && covers (snapshotSets s.snap).rs w.1)) := rfl
@[simp] theorem hostStoreByte_draws (s : State) (w : Word × Byte) : (hostStoreByte s w).draws = s.draws := rfl

@[simp] theorem selectCommand_ops (w : Word) (s : State) : (selectCommand w s).ops = s.ops := rfl
@[simp] theorem selectCommand_irqEn (w : Word) (s : State) : (selectCommand w s).irqEn = s.irqEn := rfl
@[simp] theorem selectCommand_phase (w : Word) (s : State) : (selectCommand w s).phase = .busy := rfl
@[simp] theorem selectCommand_done (w : Word) (s : State) : (selectCommand w s).done = s.done := rfl
@[simp] theorem selectCommand_overrun (w : Word) (s : State) : (selectCommand w s).overrun = s.overrun := rfl
@[simp] theorem selectCommand_errcode (w : Word) (s : State) : (selectCommand w s).errcode = s.errcode := rfl
@[simp] theorem selectCommand_result (w : Word) (s : State) : (selectCommand w s).result = s.result := rfl
@[simp] theorem selectCommand_faultAddr (w : Word) (s : State) : (selectCommand w s).faultAddr = s.faultAddr := rfl
@[simp] theorem selectCommand_mac (w : Word) (s : State) : (selectCommand w s).mac = s.mac := rfl
@[simp] theorem selectCommand_lanes (w : Word) (s : State) : (selectCommand w s).lanes = s.lanes := rfl
@[simp] theorem selectCommand_packer0 (w : Word) (s : State) : (selectCommand w s).packer0 = s.packer0 := rfl
@[simp] theorem selectCommand_packer1 (w : Word) (s : State) : (selectCommand w s).packer1 = s.packer1 := rfl
@[simp] theorem selectCommand_seq (w : Word) (s : State) : (selectCommand w s).seq = s.seq := rfl
@[simp] theorem selectCommand_resetIn (w : Word) (s : State) : (selectCommand w s).resetIn = false := rfl
@[simp] theorem selectCommand_mem (w : Word) (s : State) : (selectCommand w s).mem = s.mem := rfl
@[simp] theorem selectCommand_platform (w : Word) (s : State) : (selectCommand w s).platform = s.platform := rfl
@[simp] theorem selectCommand_host (w : Word) (s : State) : (selectCommand w s).host = s.host := rfl
@[simp] theorem selectCommand_schedule (w : Word) (s : State) : (selectCommand w s).schedule = s.schedule := rfl
@[simp] theorem selectCommand_delay (w : Word) (s : State) : (selectCommand w s).delay = 0 := rfl
@[simp] theorem selectCommand_unobserved (w : Word) (s : State) : (selectCommand w s).unobserved = s.unobserved := rfl
@[simp] theorem selectCommand_rsWritten (w : Word) (s : State) : (selectCommand w s).rsWritten = s.rsWritten := rfl
@[simp] theorem selectCommand_hostWrote (w : Word) (s : State) : (selectCommand w s).hostWrote = s.hostWrote := rfl
@[simp] theorem selectCommand_draws (w : Word) (s : State) : (selectCommand w s).draws = s.draws := rfl

end Sys2Proof.Machine
end

