-- ==== Sys2Proof/Laws/Ops.lean ====
section
/-! SUPPORT. What the shared operation of every command can do, said once. -/

namespace Sys2Proof.Machine

/-- A register update that touches only the hidden working registers. -/
abbrev HiddenOnly (f : State → State) : Prop :=
  ∀ t, ∃ mac lanes p0 p1 sq, f t = { t with mac := mac, lanes := lanes, packer0 := p0, packer1 := p1, seq := sq }

/-- All that `runOp` can do: refuse on a byte with read side effects, complete with BUS_ERROR, or complete with OK. -/
theorem runOp_cases (c : OpSets) (w : List (Word × Byte)) (r : Word) (hid : State → State) (s : State) :
    (touchesSideEffect c s = true ∧ runOp c w r hid s = .refused .sideEffectMemory) ∨
    (touchesSideEffect c s = false ∧ refusedBytes s.platform c ≠ [] ∧ runOp c w r hid s = .next (completeBusError c s)) ∨
    (touchesSideEffect c s = false ∧ refusedBytes s.platform c = [] ∧
      runOp c w r hid s = .next (hid (completeOk c w r s))) := by
  unfold runOp
  cases h : touchesSideEffect c s
  · by_cases hb : refusedBytes s.platform c = []
    · exact .inr (.inr ⟨rfl, hb, by simp [hb]⟩)
    · exact .inr (.inl ⟨rfl, hb, by simp [hb]⟩)
  · exact .inl ⟨rfl, by simp⟩

/-- On a clean operation `runOp` completes with OK. -/
theorem runOp_clean {c : OpSets} {s : State} (h : OpClean c s) (w : List (Word × Byte)) (r : Word) (hid : State → State) :
    runOp c w r hid s = .next (hid (completeOk c w r s)) := by
  obtain ⟨h1, h2, -⟩ := h
  simp [runOp, h1, h2]

/-- A clean operation leaves in memory exactly its own writes. -/
theorem okMemory_clean {c : OpSets} {s : State} (h : OpClean c s) (w : List (Word × Byte)) :
    okMemory c w s = s.mem.writeAll w := by
  obtain ⟨-, -, h3, h4, h5⟩ := h
  simp [okMemory, writesFree, h3, h4, h5]

/-- A successful completion changes no byte that its writes and WS leave out. -/
theorem read_okMemory_of_not_ws {c : OpSets} {w : List (Word × Byte)} {s : State} {a : Word}
    (hw : ∀ x ∈ w, covers c.ws x.1 = true) (ha : covers c.ws a = false) : (okMemory c w s).read a = s.mem.read a := by
  have hn : ∀ x ∈ w, x.1 ≠ a := by
    rintro x hx rfl
    rw [hw x hx] at ha
    cases ha
  unfold okMemory
  split
  · rw [Memory.read_havoc, if_neg (covers_eq_false.1 ha)]
  · rw [Memory.read_settle, Memory.read_writeAll_of_not_mem _ hn]
    split <;> rfl

/-- BUS_ERROR changes no byte outside WS and none that fails MEM_OK. -/
theorem read_completeBusError (c : OpSets) (s : State) (a : Word)
    (ha : covers c.ws a = false ∨ s.platform.memOk a = false) : (completeBusError c s).mem.read a = s.mem.read a := by
  rw [completeBusError_mem, Memory.read_havoc, if_neg]
  intro hm
  obtain ⟨h1, h2⟩ := List.mem_filter.1 hm
  rcases ha with ha | ha
  · exact covers_eq_false.1 ha h1
  · rw [ha] at h2; cases h2

/-- FAULT_ADDR receives a refused byte. -/
theorem completeBusError_faultAddr_mem {c : OpSets} {s : State} (h : refusedBytes s.platform c ≠ []) :
    (completeBusError c s).faultAddr ∈ refusedBytes s.platform c := by
  rw [completeBusError_faultAddr]
  have hp : 0 < (refusedBytes s.platform c).length := List.length_pos_of_ne_nil h
  rw [List.getD_eq_getElem _ _ (Nat.mod_lt _ hp)]
  exact List.getElem_mem _

/-- Completion keeps memory's canonical form. -/
theorem okMemory_wf {s : State} (h : s.mem.wf) (c : OpSets) (w : List (Word × Byte)) : (okMemory c w s).wf := by
  unfold okMemory
  split
  · exact Memory.havoc_wf h _ _
  · exact Memory.settle_wf (Memory.writeAll_wf h w) _ _ _

theorem completeBusError_mem_wf {s : State} (h : s.mem.wf) (c : OpSets) : (completeBusError c s).mem.wf :=
  Memory.havoc_wf h _ _

end Sys2Proof.Machine
end

