-- ==== Sys2Proof/Laws/Packer.lean ====
section
/-! SUPPORT. The packer's byte buffer, one byte at a time: what a full byte, a partial byte and an empty region emit. -/

namespace Sys2Proof.Machine

/-- The byte two nibbles fill. -/
abbrev nibbleByte (a b : Nat) : Byte :=
  BitVec.ofNat 8 (a % 2 ^ 4 * 2 ^ (4 * 0)) ||| BitVec.ofNat 8 (b % 2 ^ 4 * 2 ^ (4 * 1))

/-- The byte four crumbs fill. -/
abbrev crumbByte (a b c e : Nat) : Byte :=
  BitVec.ofNat 8 (a % 2 ^ 2 * 2 ^ (2 * 0)) ||| BitVec.ofNat 8 (b % 2 ^ 2 * 2 ^ (2 * 1))
    ||| BitVec.ofNat 8 (c % 2 ^ 2 * 2 ^ (2 * 2)) ||| BitVec.ofNat 8 (e % 2 ^ 2 * 2 ^ (2 * 3))

theorem packRegion_nil (k : Nat) (p : PackBuf) : (packRegion k [] p).2 = [] := by
  simp [packRegion, PackBuf.run, PackBuf.flush]

/-- A full byte of nibbles is emitted whole, and the rest of the region is packed from a fresh byte. -/
theorem packRegion4_pair (a b : Nat) (l : List Nat) (p : PackBuf) :
    packRegion 4 (a :: b :: l) p
      = ((packRegion 4 l ⟨nibbleByte a b, 0⟩).1, nibbleByte a b :: (packRegion 4 l ⟨nibbleByte a b, 0⟩).2) := by
  simp [packRegion, PackBuf.run, PackBuf.push, nibbleByte]

/-- A last lone nibble is written with its upper slot 0. -/
theorem packRegion4_one (a : Nat) (p : PackBuf) : (packRegion 4 [a] p).2 = [nibbleByte a 0] := by
  simp [packRegion, PackBuf.run, PackBuf.push, PackBuf.flush, nibbleByte]

/-- A full byte of crumbs is emitted whole, and the rest of the region is packed from a fresh byte. -/
theorem packRegion2_four (a b c e : Nat) (l : List Nat) (p : PackBuf) :
    packRegion 2 (a :: b :: c :: e :: l) p
      = ((packRegion 2 l ⟨crumbByte a b c e, 0⟩).1,
          crumbByte a b c e :: (packRegion 2 l ⟨crumbByte a b c e, 0⟩).2) := by
  simp [packRegion, PackBuf.run, PackBuf.push, crumbByte]

theorem packRegion2_one (a : Nat) (p : PackBuf) : (packRegion 2 [a] p).2 = [crumbByte a 0 0 0] := by
  simp [packRegion, PackBuf.run, PackBuf.push, PackBuf.flush, crumbByte]

theorem packRegion2_two (a b : Nat) (p : PackBuf) : (packRegion 2 [a, b] p).2 = [crumbByte a b 0 0] := by
  simp [packRegion, PackBuf.run, PackBuf.push, PackBuf.flush, crumbByte]

theorem packRegion2_three (a b c : Nat) (p : PackBuf) : (packRegion 2 [a, b, c] p).2 = [crumbByte a b c 0] := by
  simp [packRegion, PackBuf.run, PackBuf.push, PackBuf.flush, crumbByte]

/-- A region of `L` levels emits `cdiv(L*k, 8)` bytes (44_packer.md rule R230): nibbles. -/
theorem packRegion4_length (l : List Nat) (p : PackBuf) : (packRegion 4 l p).2.length = cdiv (l.length * 4) 8 := by
  induction l using List.twoStepInduction generalizing p with
  | nil => simp [packRegion_nil, cdiv]
  | singleton a => simp [packRegion4_one, cdiv]
  | cons_cons a b l ih _ =>
    rw [packRegion4_pair]
    simp only [List.length_cons, ih, cdiv]
    omega

/-- The same for crumbs. -/
theorem packRegion2_length (l : List Nat) (p : PackBuf) : (packRegion 2 l p).2.length = cdiv (l.length * 2) 8 := by
  match l with
  | [] => simp [packRegion_nil, cdiv]
  | [a] => simp [packRegion2_one, cdiv]
  | [a, b] => simp [packRegion2_two, cdiv]
  | [a, b, c] => simp [packRegion2_three, cdiv]
  | a :: b :: c :: e :: l =>
    rw [packRegion2_four]
    simp only [List.length_cons, packRegion2_length l, cdiv]
    omega

/-- The write of byte `i` of a region. -/
theorem mem_byteWrites {base : Word} {l : List Byte} {w : Word × Byte} :
    w ∈ byteWrites base l ↔ ∃ i, ∃ h : i < l.length, w = (addr base i, l[i]) := by
  simp only [byteWrites, List.mem_map, List.mem_zipIdx_iff_getElem?, Prod.exists]
  constructor
  · rintro ⟨v, i, h, rfl⟩
    obtain ⟨hi, rfl⟩ := List.getElem?_eq_some_iff.1 h
    exact ⟨i, hi, rfl⟩
  · rintro ⟨i, hi, rfl⟩
    exact ⟨l[i], i, List.getElem?_eq_getElem hi, rfl⟩

end Sys2Proof.Machine
end

