-- ==== Sys2Proof/Laws/Engines.lean ====
section
/-! SUPPORT. The three engines seen from outside: how many levels they produce, that their writes stay inside WS, that they
touch only the hidden working registers, and one inversion lemma for exec over all 13 commands. -/

namespace Sys2Proof.Machine

theorem packRegion_length (w : LevelWidth) (l : List Nat) (p : PackBuf) :
    (packRegion w.bits l p).2.length = cdiv (l.length * w.bits) 8 := by
  cases w
  · exact packRegion4_length l p
  · exact packRegion2_length l p

/-- A region's writes lie in the range its bytes fill. -/
theorem byteWrites_in_range {base : Word} {l : List Byte} {n : Nat} (h : l.length ≤ n) :
    ∀ w ∈ byteWrites base l, (ByteRange.mk base n).contains w.1 = true := by
  intro w hw
  obtain ⟨i, hi, rfl⟩ := mem_byteWrites.1 hw
  exact ByteRange.contains_addr (by omega)

/-! MM. -/

/-- After `n` row pairs both columns hold `min (2n) R` levels. -/
theorem mmRows_fold_length (v : MmVariant) (m : Memory) (o : OperandRegs) (z0 z1 : Word) (a : MacArray) (n : Nat)
    (hn : n ≤ cdiv o.rows 2) :
    ((List.range n).foldl (fun e i => mmPair v m o z0 z1 e (2 * i)) ⟨a, [], []⟩).lv0.length = min (2 * n) o.rows ∧
    ((List.range n).foldl (fun e i => mmPair v m o z0 z1 e (2 * i)) ⟨a, [], []⟩).lv1.length = min (2 * n) o.rows := by
  induction n with
  | zero => simp
  | succ n ih =>
    have hlt : n * 2 < o.rows := (cdiv_le_iff (by decide)).1 hn
    have hi := ih (Nat.le_of_succ_le hn)
    rw [List.range_succ, List.foldl_append, List.foldl_cons, List.foldl_nil]
    generalize (List.range n).foldl (fun e i => mmPair v m o z0 z1 e (2 * i)) ⟨a, [], []⟩ = e at hi ⊢
    obtain ⟨h0, h1⟩ := hi
    by_cases hr : 2 * n + 1 < o.rows
    · simp [mmPair, rowActive, hr, h0, h1]
      omega
    · simp [mmPair, rowActive, hr, h0, h1]
      omega

theorem mmRows_length (v : MmVariant) (m : Memory) (o : OperandRegs) (a : MacArray) :
    (mmRows v m o a).lv0.length = o.rows ∧ (mmRows v m o a).lv1.length = o.rows := by
  have h := mmRows_fold_length v m o (zeroOffset m o 0) (zeroOffset m o 1) a (cdiv o.rows 2) (Nat.le_refl _)
  have hc : min (2 * cdiv o.rows 2) o.rows = o.rows := by unfold cdiv; omega
  rw [hc] at h
  exact h

/-- With no row nothing is packed. -/
theorem mmRegionLen_zero {v : MmVariant} {o : OperandRegs} (h : o.rows = 0) : mmRegionLen v o = 0 := by
  simp [mmRegionLen, h, cdiv]

/-- The two regions MM packs lie in WS (45_matmul.md rule R252). -/
theorem mm_writes_in_ws (v : MmVariant) (m : Memory) (o : OperandRegs) (a : MacArray) (p0 p1 : PackBuf) :
    ∀ w ∈ byteWrites (mmRegion v o 0) (packRegion v.width.bits (mmRows v m o a).lv0 p0).2
        ++ byteWrites (mmRegion v o 1) (packRegion v.width.bits (mmRows v m o a).lv1 p1).2,
      covers (mmSets v o).ws w.1 = true := by
  obtain ⟨h0, h1⟩ := mmRows_length v m o a
  have l0 : (packRegion v.width.bits (mmRows v m o a).lv0 p0).2.length = mmRegionLen v o := by
    rw [packRegion_length, h0]; rfl
  have l1 : (packRegion v.width.bits (mmRows v m o a).lv1 p1).2.length = mmRegionLen v o := by
    rw [packRegion_length, h1]; rfl
  intro w hw
  by_cases hr : o.rows = 0
  · have hz := mmRegionLen_zero (v := v) hr
    rw [hz] at l0 l1
    rw [List.eq_nil_of_length_eq_zero l0, List.eq_nil_of_length_eq_zero l1] at hw
    simp [byteWrites] at hw
  · rw [mmSets, if_neg hr]
    rcases List.mem_append.1 hw with hw | hw
    · simp [byteWrites_in_range (Nat.le_of_eq l0) w hw]
    · simp [byteWrites_in_range (Nat.le_of_eq l1) w hw]

/-! DW. -/

theorem groupLevels_length (m : Memory) (o : OperandRegs) (g : Nat) (a : LaneAccs) :
    (groupLevels m o g a).length = min (o.chIn - 4 * g) 4 := by
  simp [groupLevels, LaneAccs.toList]

theorem pixelLevels_fold_length (m : Memory) (o : OperandRegs) (p : Nat × Nat) (a : LaneAccs) (n : Nat) :
    ((List.range n).foldl (fun (e : LaneAccs × List Nat) g =>
      let b := laneGroup m o p g e.1; (b, e.2 ++ groupLevels m o g b)) (a, [])).2.length = min (4 * n) o.chIn := by
  induction n with
  | zero => simp
  | succ n ih =>
    simp only [List.range_succ, List.foldl_append, List.foldl_cons, List.foldl_nil, List.length_append, ih,
      groupLevels_length]
    omega

/-- A pixel has one level per channel. -/
theorem pixelLevels_length (m : Memory) (o : OperandRegs) (p : Nat × Nat) (a : LaneAccs) :
    (pixelLevels m o p a).2.length = o.chIn := by
  rw [pixelLevels, pixelLevels_fold_length]
  unfold cdiv; omega

theorem mem_dwPixels {o : OperandRegs} {p : Nat × Nat} : p ∈ dwPixels o ↔ p.1 < o.outDim ∧ p.2 < o.outDim := by
  obtain ⟨y, x⟩ := p
  simp [dwPixels]

theorem mem_dwCells {o : OperandRegs} {c : Nat × Nat} : c ∈ dwCells o ↔ c.1 < o.kdim ∧ c.2 < o.kdim := by
  obtain ⟨y, x⟩ := c
  simp [dwCells]

/-- A row-major index of a square with `n` elements a cell stays below the square's size. -/
theorem square_index_lt {d n y x c : Nat} (hy : y < d) (hx : x < d) (hc : c < n) : (y * d + x) * n + c < d * d * n := by
  have h1 : y * d + x + 1 ≤ d * d := by
    have := Nat.mul_le_mul_right d (Nat.succ_le_of_lt hy)
    rw [Nat.succ_mul] at this
    omega
  have h2 := Nat.mul_le_mul_right n h1
  rw [Nat.add_mul] at h2
  omega

/-- The writes of one pixel lie in WS (46_depthwise.md rule R278). -/
theorem dwPixel_writes_in_ws {m : Memory} {o : OperandRegs} {e : DwRun} {p : Nat × Nat} (hp : p ∈ dwPixels o)
    (hc : o.chIn = o.chOut) (he : ∀ w ∈ e.writes, covers (dwSets o).ws w.1 = true) :
    ∀ w ∈ (dwPixel m o e p).writes, covers (dwSets o).ws w.1 = true := by
  obtain ⟨h1, h2⟩ := mem_dwPixels.1 hp
  intro w hw
  simp only [dwPixel, List.mem_append] at hw
  rcases hw with (hw | hw) | hw
  · exact he w hw
  · simp only [im2colWrites, List.mem_flatMap, List.mem_map, List.mem_range] at hw
    obtain ⟨cell, hcell, c, hcc, rfl⟩ := hw
    obtain ⟨k1, k2⟩ := mem_dwCells.1 hcell
    have hs : ¬ (o.chIn ≠ o.chOut ∨ o.outDim = 0 ∨ o.chIn = 0) := by omega
    rw [dwSets, if_neg hs]
    simp [colAddr, ByteRange.contains_addr (square_index_lt k1 k2 hcc)]
  · obtain ⟨i, hi, rfl⟩ := mem_byteWrites.1 hw
    have hl : (packRegion 2 (pixelLevels m o p e.lanes).2 e.pack).2.length = dwPixelLen o := by
      rw [packRegion2_length, pixelLevels_length]
      unfold dwPixelLen cdiv; omega
    rw [hl] at hi
    have hcz : o.chIn ≠ 0 := by
      intro h0
      rw [dwPixelLen, h0] at hi
      simp [cdiv] at hi
    have hs : ¬ (o.chIn ≠ o.chOut ∨ o.outDim = 0 ∨ o.chIn = 0) := by omega
    rw [dwSets, if_neg hs]
    simp [dwPixelAddr, addr_addr, ByteRange.contains_addr (square_index_lt h1 h2 hi)]

/-- Every write of DW lies in WS (rule R278). -/
theorem dw_writes_in_ws (m : Memory) (o : OperandRegs) (a : LaneAccs) (b : PackBuf) (hc : o.chIn = o.chOut) :
    ∀ w ∈ (dwRun m o a b).writes, covers (dwSets o).ws w.1 = true := by
  have key : ∀ (l : List (Nat × Nat)), (∀ p ∈ l, p ∈ dwPixels o) → ∀ e : DwRun,
      (∀ w ∈ e.writes, covers (dwSets o).ws w.1 = true) →
      ∀ w ∈ (l.foldl (dwPixel m o) e).writes, covers (dwSets o).ws w.1 = true := by
    intro l
    induction l with
    | nil => intro _ e he; exact he
    | cons p l ih =>
      intro hl e he
      exact ih (fun q hq => hl q (by simp [hq])) _ (dwPixel_writes_in_ws (hl p (by simp)) hc he)
  exact key _ (fun p hp => hp) _ (by simp)

/-! UNPACK. -/

/-- Every write of UNPACK lies in WS (41_decoder.md rule R176). -/
theorem unpack_writes_in_ws (v : UnpackVariant) (m : Memory) (o : OperandRegs) :
    ∀ w ∈ unpackWrites v m o, covers (unpackSets v o).ws w.1 = true := by
  intro w hw
  simp only [unpackWrites, List.mem_flatMap, List.mem_range] at hw
  obtain ⟨i, hi, hw⟩ := hw
  obtain ⟨j, hj, rfl⟩ := mem_byteWrites.1 hw
  simp only [List.length_cons, List.length_nil] at hj
  simp [unpackSets, addr_addr, ByteRange.contains_addr (show 2 * i + j < 2 * o.count by omega)]

/-! exec. -/

theorem leaveMm_hiddenOnly (o : OperandRegs) (a : MacArray) (p0 p1 : PackBuf) : HiddenOnly (leaveMm o a p0 p1) :=
  fun t => ⟨a, t.lanes, p0, p1, _, rfl⟩

theorem leaveDw_hiddenOnly (o : OperandRegs) (e : DwRun) : HiddenOnly (leaveDw o e) :=
  fun t => ⟨t.mac, e.lanes, e.pack, t.packer1, _, rfl⟩

theorem leaveUnpack_hiddenOnly (o : OperandRegs) : HiddenOnly (leaveUnpack o) :=
  fun t => ⟨t.mac, t.lanes, t.packer0, t.packer1, _, rfl⟩

/-- All that exec can do: DW with mismatched channels completes at once; any other operation is one `runOp` over its own
sets and result address, with writes inside WS, and touches only the hidden working registers besides. -/
theorem exec_cases (i : Instr) (s : State) :
    (operationOf i = .dw ∧ s.snap.chIn ≠ s.snap.chOut ∧ exec i s = .next (complete .sizeMismatch s)) ∨
    ((operationOf i = .dw → s.snap.chIn = s.snap.chOut) ∧ ∃ w hid, HiddenOnly hid ∧
      (∀ x ∈ w, covers (setsOf i s).ws x.1 = true) ∧
      exec i s = runOp (setsOf i s) w (operationResult (operationOf i) s.snap) hid s) := by
  have hmm : ∀ v : MmVariant, ∃ w hid, HiddenOnly hid ∧ (∀ x ∈ w, covers (mmSets v s.snap).ws x.1 = true) ∧
      runMm v s = runOp (mmSets v s.snap) w (operationResult (.mm v) s.snap) hid s := by
    intro v
    exact ⟨_, _, leaveMm_hiddenOnly _ _ _ _, mm_writes_in_ws v s.mem s.snap s.mac s.packer0 s.packer1, rfl⟩
  have hup : ∀ v : UnpackVariant, ∃ w hid, HiddenOnly hid ∧ (∀ x ∈ w, covers (unpackSets v s.snap).ws x.1 = true) ∧
      runUnpack v s = runOp (unpackSets v s.snap) w (operationResult (.unpack v) s.snap) hid s := by
    intro v
    exact ⟨_, _, leaveUnpack_hiddenOnly _, unpack_writes_in_ws v s.mem s.snap, rfl⟩
  cases i
  case dwThrO2 =>
    by_cases h : s.snap.chIn = s.snap.chOut
    · refine .inr ⟨fun _ => h, _, leaveDw s.snap (dwRun s.mem s.snap s.lanes s.packer0), leaveDw_hiddenOnly _ _,
        dw_writes_in_ws s.mem s.snap s.lanes s.packer0 h, ?_⟩
      simp [exec, execDwThrO2, runDw, h, setsOf, operationOf, operationSets]
    · exact .inl ⟨rfl, h, by simp [exec, execDwThrO2, runDw, h]⟩
  case unpackB2 => exact .inr ⟨nofun, hup ⟨.b2, false⟩⟩
  case unpackB2R => exact .inr ⟨nofun, hup ⟨.b2, true⟩⟩
  case unpackB4 => exact .inr ⟨nofun, hup ⟨.b4, false⟩⟩
  case unpackB8 => exact .inr ⟨nofun, hup ⟨.b8, false⟩⟩
  case mmFoldW8O4 => exact .inr ⟨nofun, hmm ⟨.fold, .w8, .o4⟩⟩
  case mmFoldW8O2 => exact .inr ⟨nofun, hmm ⟨.fold, .w8, .o2⟩⟩
  case mmFoldW4O4 => exact .inr ⟨nofun, hmm ⟨.fold, .w4, .o4⟩⟩
  case mmFoldW4O2 => exact .inr ⟨nofun, hmm ⟨.fold, .w4, .o2⟩⟩
  case mmThrW8O4 => exact .inr ⟨nofun, hmm ⟨.thr, .w8, .o4⟩⟩
  case mmThrW8O2 => exact .inr ⟨nofun, hmm ⟨.thr, .w8, .o2⟩⟩
  case mmThrW4O4 => exact .inr ⟨nofun, hmm ⟨.thr, .w4, .o4⟩⟩
  case mmThrW4O2 => exact .inr ⟨nofun, hmm ⟨.thr, .w4, .o2⟩⟩

/-- The four outcomes of exec, spelled out. -/
theorem exec_outcomes (i : Instr) (s : State) :
    (operationOf i = .dw ∧ s.snap.chIn ≠ s.snap.chOut ∧ exec i s = .next (complete .sizeMismatch s)) ∨
    (touchesSideEffect (setsOf i s) s = true ∧ exec i s = .refused .sideEffectMemory) ∨
    (touchesSideEffect (setsOf i s) s = false ∧ refusedBytes s.platform (setsOf i s) ≠ [] ∧
      exec i s = .next (completeBusError (setsOf i s) s)) ∨
    (touchesSideEffect (setsOf i s) s = false ∧ refusedBytes s.platform (setsOf i s) = [] ∧
      (operationOf i = .dw → s.snap.chIn = s.snap.chOut) ∧
      ∃ w hid, HiddenOnly hid ∧ (∀ x ∈ w, covers (setsOf i s).ws x.1 = true) ∧
        exec i s = .next (hid (completeOk (setsOf i s) w (operationResult (operationOf i) s.snap) s))) := by
  rcases exec_cases i s with h | ⟨hd, w, hid, hh, hw, he⟩
  · exact .inl h
  · rcases runOp_cases (setsOf i s) w (operationResult (operationOf i) s.snap) hid s with h | h | h
    · exact .inr (.inl ⟨h.1, he.trans h.2⟩)
    · exact .inr (.inr (.inl ⟨h.1, h.2.1, he.trans h.2.2⟩))
    · exact .inr (.inr (.inr ⟨h.1, h.2.1, hd, w, hid, hh, hw, he.trans h.2.2⟩))

end Sys2Proof.Machine
end

