-- ==== Sys2Proof/Laws/Host.lean ====
section
/-! SUPPORT. The HOST's side: where the registers lie in the window, what a step of the machine can be, and what a HOST
write to data memory leaves. -/

namespace Sys2Proof.Machine

/-! The window. -/

/-- A page of 24 bits before an offset of 8. -/
theorem page_append_toNat (p : BitVec 24) (o : BitVec 8) : (p ++ o : Word).toNat = p.toNat * 256 + o.toNat :=
  append_byte_toNat p o

/-- The window is one page of 256 bytes. -/
theorem Platform.inWindow_iff (p : Platform) (a : Word) : p.inWindow a = true ↔ a.toNat / 256 = p.corePage.toNat := by
  have h := a.isLt
  simp only [Platform.inWindow, beq_iff_eq]
  rw [← BitVec.toNat_inj, BitVec.extractLsb'_toNat, Nat.shiftRight_eq_div_pow, Nat.mod_eq_of_lt (by omega)]

/-- A register's address lies in the window. -/
theorem regAddr_inWindow (p : Platform) (r : RegName) : p.inWindow (regAddr p r) = true := by
  have := r.offset.isLt
  rw [Platform.inWindow_iff, regAddr, page_append_toNat]
  omega

/-- A register's address is word-aligned. -/
theorem regAddr_aligned (p : Platform) (r : RegName) : (regAddr p r).extractLsb' 0 2 = 0 := by
  rw [← BitVec.toNat_inj, BitVec.extractLsb'_toNat, Nat.shiftRight_eq_div_pow, regAddr, page_append_toNat]
  cases r <;> simp [RegName.offset] <;> omega

/-- Bits [7:2] of a register's address select it (30_encoding.md rule R121). -/
@[simp] theorem ofIndex_regAddr (p : Platform) (r : RegName) : RegName.ofIndex (windowIndex (regAddr p r)) = some r := by
  have h : (windowIndex (regAddr p r)).toNat = r.offset.toNat / 4 := by
    have := r.offset.isLt
    rw [windowIndex, BitVec.extractLsb'_toNat, Nat.shiftRight_eq_div_pow, regAddr, page_append_toNat]
    omega
  unfold RegName.ofIndex
  rw [h]
  cases r <;> rfl

/-- An access touches the window when one of its bytes lies in it. -/
theorem touchesWindow_iff (p : Platform) (a : Word) (n : Nat) :
    touchesWindow p a n = true ↔ ∃ i < n, p.inWindow (addr a i) = true := by
  simp [touchesWindow, accessBytes]

/-- A 32-bit access to a register's address is a window access this spec defines. -/
theorem regAddr_access (p : Platform) (r : RegName) :
    touchesWindow p (regAddr p r) AccessSize.word.bytes = true ∧ legalWindowAccess (regAddr p r) .word = true := by
  refine ⟨(touchesWindow_iff _ _ _).2 ⟨0, by decide, ?_⟩, ?_⟩
  · simpa using regAddr_inWindow p r
  · simp [legalWindowAccess, regAddr_aligned]

/-- An index selects a register when it is the register's offset over four. -/
theorem ofIndex_eq_some {x : BitVec 6} {r : RegName} (h : RegName.ofIndex x = some r) : r.offset.toNat = 4 * x.toNat := by
  unfold RegName.ofIndex at h
  split at h <;> cases h
  all_goals simp [*, RegName.offset]

/-- A window access this spec defines reaches a register only at that register's address. -/
theorem eq_regAddr {p : Platform} {a : Word} {size : AccessSize} {r : RegName}
    (ht : touchesWindow p a size.bytes = true) (hl : legalWindowAccess a size = true)
    (hr : RegName.ofIndex (windowIndex a) = some r) : size = .word ∧ a = regAddr p r := by
  have ha := a.isLt
  have ho := r.offset.isLt
  simp only [legalWindowAccess, Bool.and_eq_true, beq_iff_eq] at hl
  obtain ⟨rfl, h4⟩ := hl
  refine ⟨rfl, ?_⟩
  rw [← BitVec.toNat_inj, BitVec.extractLsb'_toNat, Nat.shiftRight_eq_div_pow] at h4
  obtain ⟨i, hi, hw⟩ := (touchesWindow_iff _ _ _).1 ht
  have h5 := ofIndex_eq_some hr
  rw [windowIndex, BitVec.extractLsb'_toNat, Nat.shiftRight_eq_div_pow] at h5
  rw [Platform.inWindow_iff, addr, BitVec.toNat_add, BitVec.toNat_ofNat] at hw
  simp only [AccessSize.bytes] at hi
  change _ = 0 at h4
  rw [← BitVec.toNat_inj, regAddr, page_append_toNat]
  omega

/-- A HOST write to a register's address is that register's write. -/
theorem hostWrite_regAddr (r : RegName) (v : Word) (s : State) :
    hostWrite (regAddr s.platform r) .word v s = .next (advance (regWrite r v s)) := by
  obtain ⟨h1, h2⟩ := regAddr_access s.platform r
  simp [hostWrite, h1, h2, windowWrite]

/-- A HOST read of a register's address is that register's read. -/
theorem hostRead_regAddr (r : RegName) (n : Nat) (s : State) :
    hostRead (regAddr s.platform r) .word n s
      = .next (advance (setTemp n (regRead s r) (afterRead (windowIndex (regAddr s.platform r)) s))) := by
  obtain ⟨h1, h2⟩ := regAddr_access s.platform r
  simp [hostRead, h1, h2, windowRead]

/-- The address of a word index in the window, as a number. -/
theorem coreBase_offset_toNat (p : Platform) {x : Nat} (h : x ≤ 0x3F) :
    (addr p.coreBase (4 * x)).toNat = p.corePage.toNat * 256 + 4 * x := by
  have := p.corePage.isLt
  rw [addr, BitVec.toNat_add, BitVec.toNat_ofNat, Platform.coreBase, page_append_toNat]
  have e : (0 : BitVec 8).toNat = 0 := rfl
  omega

/-- A 32-bit access at a word index of the window is one this spec defines, and selects that index. -/
theorem coreBase_offset_access (p : Platform) {x : Nat} (h : x ≤ 0x3F) :
    touchesWindow p (addr p.coreBase (4 * x)) AccessSize.word.bytes = true ∧
    legalWindowAccess (addr p.coreBase (4 * x)) .word = true ∧
    (windowIndex (addr p.coreBase (4 * x))).toNat = x := by
  have e := coreBase_offset_toNat p h
  refine ⟨(touchesWindow_iff _ _ _).2 ⟨0, by decide, ?_⟩, ?_, ?_⟩
  · have : addr (addr p.coreBase (4 * x)) 0 = addr p.coreBase (4 * x) := by simp [addr]
    rw [this, Platform.inWindow_iff, e]
    omega
  · have : (addr p.coreBase (4 * x)).extractLsb' 0 2 = 0 := by
      rw [← BitVec.toNat_inj, BitVec.extractLsb'_toNat, Nat.shiftRight_eq_div_pow, e]
      change _ = 0
      omega
    simp [legalWindowAccess, this]
  · rw [windowIndex, BitVec.extractLsb'_toNat, Nat.shiftRight_eq_div_pow, e]
    omega

/-- Indices 0x18 to 0x3F select no register (10_state.md rule R55). -/
theorem ofIndex_reserved {x : BitVec 6} (h : 0x18 ≤ x.toNat) : RegName.ofIndex x = none := by
  unfold RegName.ofIndex
  split <;> first | rfl | omega

/-- A HOST write to a reserved offset does nothing. -/
theorem hostWrite_reserved (s : State) {x : Nat} (h : 0x18 ≤ x) (h' : x ≤ 0x3F) (v : Word) :
    hostWrite (addr s.platform.coreBase (4 * x)) .word v s = .next (advance s) := by
  obtain ⟨h1, h2, h3⟩ := coreBase_offset_access s.platform h'
  simp [hostWrite, h1, h2, windowWrite, ofIndex_reserved (x := windowIndex _) (h3 ▸ h)]

/-- A HOST read of a reserved offset gives 0 and observes nothing. -/
theorem hostRead_reserved (s : State) {x : Nat} (h : 0x18 ≤ x) (h' : x ≤ 0x3F) (n : Nat) :
    hostRead (addr s.platform.coreBase (4 * x)) .word n s = .next (advance (setTemp n 0 s)) := by
  obtain ⟨h1, h2, h3⟩ := coreBase_offset_access s.platform h'
  simp [hostRead, h1, h2, windowRead, afterRead, ofIndex_reserved (x := windowIndex _) (h3 ▸ h)]

/-! HOST writes to data memory. -/

/-- What a run of HOST byte writes leaves: memory written in order, the model's record extended, nothing else. -/
theorem foldl_hostStoreByte (l : List (Word × Byte)) (s : State) :
    ∃ r w, l.foldl hostStoreByte s = { s with mem := s.mem.writeAll l, rsWritten := r, hostWrote := w } ∧
      (s.busy = false → r = s.rsWritten ∧ w = s.hostWrote) ∧
      (∀ a ∈ w, a ∈ s.hostWrote ∨ covers (snapshotSets s.snap).ws a = true) := by
  induction l generalizing s with
  | nil => exact ⟨s.rsWritten, s.hostWrote, rfl, fun _ => ⟨rfl, rfl⟩, fun a h => .inl h⟩
  | cons b l ih =>
    obtain ⟨r, w, he, hb, hw⟩ := ih (hostStoreByte s b)
    refine ⟨r, w, he, fun h => ?_, fun a ha => ?_⟩
    · obtain ⟨h1, h2⟩ := hb h
      simp [h1, h2, hostStoreByte, h]
    · rcases hw a ha with h | h
      · simp only [hostStoreByte] at h
        split at h
        · rename_i hc
          rcases List.mem_append.1 h with h | h
          · exact .inl h
          · rw [List.mem_singleton.1 h]
            simp only [Bool.and_eq_true] at hc
            exact .inr hc.1.2
        · exact .inl h
      · exact .inr h

/-- A HOST store writes its bytes and touches nothing else but the model's record of the running operation. -/
theorem hostStore_cases (s : State) (a : Word) (size : AccessSize) (v : Word) :
    ∃ r w, hostStore s a size v
        = { s with mem := s.mem.writeAll (byteWrites a (bytesLE size.bytes v.toNat)), rsWritten := r, hostWrote := w } ∧
      (s.busy = false → r = s.rsWritten ∧ w = s.hostWrote) ∧
      (∀ a ∈ w, a ∈ s.hostWrote ∨ covers (snapshotSets s.snap).ws a = true) :=
  foldl_hostStoreByte _ s

/-! Steps. -/

/-- All that a step can be: the reset, the CORE's completion, or a HOST step. -/
theorem step_cases (s : State) :
    (s.resetIn = true ∧ step s = .next (coreReset s)) ∨
    (s.resetIn = false ∧ s.phase = .busy ∧ s.delay = 0 ∧ step s = coreStep s) ∨
    (s.resetIn = false ∧ s.phase = .busy ∧ ∃ d, s.delay = d + 1 ∧ step s = hostStep { s with delay := d }) ∨
    (s.resetIn = false ∧ s.phase = .idle ∧ step s = hostStep s) := by
  unfold step machineStep
  cases hr : s.resetIn
  · cases hp : s.phase
    · exact .inr (.inr (.inr ⟨rfl, rfl, by simp⟩))
    · cases hd : s.delay with
      | zero => exact .inr (.inl ⟨rfl, rfl, rfl, by simp⟩)
      | succ d => exact .inr (.inr (.inl ⟨rfl, rfl, d, rfl, by simp⟩))
  · exact .inl ⟨rfl, by simp⟩

/-- All that the CORE's completion step can be. -/
theorem coreStep_cases (s : State) :
    (∃ i, decodeWord s.snap.cmd = .ok i ∧ coreStep s = exec i s) ∨
    (∃ e, decodeWord s.snap.cmd = .error e ∧ coreStep s = .next (complete .illegalCmd s)) := by
  unfold coreStep fetchWord
  cases h : decodeWord s.snap.cmd with
  | ok i => exact .inl ⟨i, rfl, rfl⟩
  | error e => exact .inr ⟨e, rfl, rfl⟩

/-- What a START request leaves alone, whatever the phase. -/
theorem requestStart_frame (s : State) :
    (requestStart s).ops = s.ops ∧ (requestStart s).irqEn = s.irqEn ∧ (requestStart s).mem = s.mem ∧
    (requestStart s).result = s.result ∧ (requestStart s).faultAddr = s.faultAddr ∧
    (requestStart s).platform = s.platform ∧ (requestStart s).host = s.host ∧ (requestStart s).resetIn = s.resetIn ∧
    (requestStart s).draws = s.draws ∧ (s.overrun = true → (requestStart s).overrun = true) := by
  unfold requestStart
  split
  · exact ⟨rfl, rfl, rfl, rfl, rfl, rfl, rfl, rfl, rfl, fun _ => rfl⟩
  · split
    · exact ⟨rfl, rfl, rfl, rfl, rfl, rfl, rfl, rfl, rfl, id⟩
    · exact ⟨rfl, rfl, rfl, rfl, rfl, rfl, rfl, rfl, rfl, id⟩

/-- All that a register write can do: the CTRL write, the acknowledge, or a new value of one operand register; writes to
read-only registers do nothing. -/
theorem regWrite_cases (r : RegName) (v : Word) (s : State) :
    (r = .ctrl ∧ regWrite r v s = writeCtrl v s) ∨ (r = .status ∧ regWrite r v s = acknowledge v s) ∨
    (r ≠ .ctrl ∧ r ≠ .status ∧ regWrite r v s = { s with ops := s.ops.put r v }) := by
  cases r
  case ctrl => exact .inl ⟨rfl, rfl⟩
  case status => exact .inr (.inl ⟨rfl, rfl⟩)
  all_goals exact .inr (.inr ⟨nofun, nofun, rfl⟩)

/-- A register write keeps the HOST and the platform as they are. -/
theorem regWrite_agents (r : RegName) (v : Word) (s : State) :
    (regWrite r v s).host = s.host ∧ (regWrite r v s).platform = s.platform ∧ (regWrite r v s).mem = s.mem := by
  rcases regWrite_cases r v s with ⟨-, h⟩ | ⟨-, h⟩ | ⟨-, -, h⟩
  · rw [h, writeCtrl]
    split
    · obtain ⟨-, -, h3, -, -, h6, h7, -⟩ := requestStart_frame { s with irqEn := v.getLsbD 1 }
      exact ⟨h7, h6, h3⟩
    · exact ⟨rfl, rfl, rfl⟩
  · rw [h]; exact ⟨rfl, rfl, rfl⟩
  · rw [h]; exact ⟨rfl, rfl, rfl⟩

/-- No register write ends a running operation or changes how long it stays BUSY. -/
theorem regWrite_busy {r : RegName} {v : Word} {s : State} (h : s.phase = .busy) :
    (regWrite r v s).phase = .busy ∧ (regWrite r v s).delay = s.delay := by
  rcases regWrite_cases r v s with ⟨-, e⟩ | ⟨-, e⟩ | ⟨-, -, e⟩ <;> rw [e]
  · unfold writeCtrl requestStart
    simp only [h]
    split <;> exact ⟨rfl, rfl⟩
  · exact ⟨h, rfl⟩
  · exact ⟨h, rfl⟩

/-- All that a HOST step can do when it answers a next state: a register write; a store to data memory; a change of MEM_OK
while IDLE; or a step that touches only the HOST itself, the model's record of an observed completion, the draw counter and the
reset input. -/
theorem hostStep_cases {s t : State} (h : hostStep s = .next t) :
    (∃ r v, s.host.prog[s.host.pos]? = some (.write (regAddr s.platform r) .word v) ∧ t = advance (regWrite r v s)) ∨
    (∃ a size v, s.host.prog[s.host.pos]? = some (.write a size v) ∧ t = advance (hostStore s a size v)) ∨
    (s.phase = .idle ∧ ∃ l, t = advance { s with platform := { s.platform with refused := l } }) ∨
    ∃ g u d q, t = { s with host := g, unobserved := u, draws := d, resetIn := q } ∧
      (u = s.unobserved ∨ (u = false ∧ (s.phase = .idle ∨ s.done = true))) ∧
      (cellsWf (0 : Word) s.host.temps → cellsWf (0 : Word) g.temps) := by
  unfold hostStep at h
  split at h
  · cases h; exact .inr (.inr (.inr ⟨_, _, _, _, rfl, .inl rfl, id⟩))
  · rename_i a size v hp
    unfold hostWrite at h
    split at h
    · rename_i ht
      split at h
      · rename_i hl
        cases h
        unfold windowWrite
        split
        · rename_i r hr
          obtain ⟨rfl, ha⟩ := eq_regAddr ht hl hr
          exact .inl ⟨r, v, by rw [hp, ha], rfl⟩
        · exact .inr (.inr (.inr ⟨_, _, _, _, rfl, .inl rfl, id⟩))
      · cases h
    · split at h
      · cases h
      · cases h; exact .inr (.inl ⟨a, size, v, hp, rfl⟩)
  · unfold hostRead at h
    split at h
    · split at h
      · cases h
        unfold afterRead
        split
        · rename_i hc
          exact .inr (.inr (.inr ⟨_, _, _, _, rfl, .inr ⟨rfl, .inl hc.2⟩, fun hw => cellSet_wf hw _ _⟩))
        · exact .inr (.inr (.inr ⟨_, _, _, _, rfl, .inl rfl, fun hw => cellSet_wf hw _ _⟩))
      · cases h
    · split at h
      · cases h
      · cases h; exact .inr (.inr (.inr ⟨_, _, _, _, rfl, .inl rfl, fun hw => cellSet_wf hw _ _⟩))
  · cases h
    split <;> exact .inr (.inr (.inr ⟨_, _, _, _, rfl, .inl rfl, id⟩))
  · cases h
    split <;> exact .inr (.inr (.inr ⟨_, _, _, _, rfl, .inl rfl, id⟩))
  · cases h
    split
    · rename_i hi
      simp only [State.irqAt, State.irq, Bool.and_eq_true] at hi
      exact .inr (.inr (.inr ⟨_, _, _, _, rfl, .inr ⟨rfl, .inr hi.2.2⟩, id⟩))
    · exact .inr (.inr (.inr ⟨_, _, _, _, rfl, .inl rfl, id⟩))
  · cases h; exact .inr (.inr (.inr ⟨_, _, _, _, rfl, .inl rfl, id⟩))
  · rename_i l _
    cases h
    by_cases hb : s.busy = true
    · simp only [hb, if_true]
      exact .inr (.inr (.inr ⟨_, _, _, _, rfl, .inl rfl, id⟩))
    · simp only [hb]
      refine .inr (.inr (.inl ⟨?_, l, rfl⟩))
      cases hp : s.phase
      · rfl
      · exact absurd (by simp [State.busy, hp]) hb

/-- No HOST step ends a running operation or changes how long it stays BUSY. -/
theorem hostStep_busy {s t : State} (h : hostStep s = .next t) (hb : s.phase = .busy) :
    t.phase = .busy ∧ t.delay = s.delay := by
  rcases hostStep_cases h with ⟨r, v, -, rfl⟩ | ⟨a, size, v, -, rfl⟩ | ⟨hi, -⟩ | ⟨g, u, d, q, rfl, -⟩
  · exact regWrite_busy hb
  · obtain ⟨_, _, e, -⟩ := hostStore_cases s a size v
    rw [e]; exact ⟨hb, rfl⟩
  · rw [hb] at hi; cases hi
  · exact ⟨hb, rfl⟩

/-! The canonical form of memory, kept by every operation that writes it; okMemory_wf and completeBusError_mem_wf of Laws/Ops.lean
say so of the completions. -/

theorem reset_mem_wf : State.reset.mem.wf := ⟨⟨List.Pairwise.nil, nofun⟩, nofun⟩

theorem placeBytes_wf {m : Memory} (h : m.wf) (a : Word) (l : List Byte) : (placeBytes a l m).wf := Memory.writeAll_wf h _

theorem hostStore_mem_wf {s : State} (h : s.mem.wf) (a : Word) (size : AccessSize) (v : Word) :
    (hostStore s a size v).mem.wf := by
  obtain ⟨r, w, e, -⟩ := hostStore_cases s a size v
  rw [e]
  exact Memory.writeAll_wf h _

theorem coreReset_mem_wf {s : State} (h : s.mem.wf) : (coreReset s).mem.wf := by
  simp only [coreReset]
  split
  · exact Memory.havoc_wf h _ _
  · exact h

end Sys2Proof.Machine
end

