-- ==== Sys2Proof/Laws/PerInstr.lean ====
section
/-! SUPPORT. Laws stated per instruction: the fields each row of the opcode table gives its word are well formed
(30_encoding.md rules R123 to R127). -/

namespace Sys2Proof.Laws.WellFormedFields

/-- The instruction's fields pass every check of WellFormed. -/
def Statement (i : Instr) : Prop := i.wellFormed = true

theorem mmFoldW8O4 : Statement .mmFoldW8O4 := by unfold Statement; decide

theorem mmFoldW8O2 : Statement .mmFoldW8O2 := by unfold Statement; decide

theorem mmFoldW4O4 : Statement .mmFoldW4O4 := by unfold Statement; decide

theorem mmFoldW4O2 : Statement .mmFoldW4O2 := by unfold Statement; decide

theorem mmThrW8O4 : Statement .mmThrW8O4 := by unfold Statement; decide

theorem mmThrW8O2 : Statement .mmThrW8O2 := by unfold Statement; decide

theorem mmThrW4O4 : Statement .mmThrW4O4 := by unfold Statement; decide

theorem mmThrW4O2 : Statement .mmThrW4O2 := by unfold Statement; decide

theorem dwThrO2 : Statement .dwThrO2 := by unfold Statement; decide

theorem unpackB2 : Statement .unpackB2 := by unfold Statement; decide

theorem unpackB2R : Statement .unpackB2R := by unfold Statement; decide

theorem unpackB4 : Statement .unpackB4 := by unfold Statement; decide

theorem unpackB8 : Statement .unpackB8 := by unfold Statement; decide

end Sys2Proof.Laws.WellFormedFields
end

