-- ==== Sys2Proof/Tests/Slice0.lean ====
section
/-! SUPPORT. Tests on fixed values, each with its source in the spec, and a witness for the hypotheses of each statement. -/

namespace Sys2Proof.Tests

-- One test after another: many kernel evaluations at once take more threads than the check's memory limit gives.
set_option Elab.async false

open Sys2Proof Sys2Proof.Machine Sys2Proof.Reference

/-! Well-formedness: one ill-formed term for each check, refused by it (30_encoding.md rules R123 to R127). -/

theorem test_wf_op_reserved :
    (CmdFields.mk 0 false false false 0).opKnown = false ∧ (CmdFields.mk 4 false false false 0).opKnown = false ∧
    (CmdFields.mk 15 false false false 0).wellFormed = false := by decide

theorem test_wf_high_bits :
    (CmdFields.mk 1 false false false 1).hiZero = false ∧ (CmdFields.mk 3 false false false 0x1000000).wellFormed = false := by
  decide

theorem test_wf_dw_reserved :
    (CmdFields.mk 2 true false false 0).dwReservedZero = false ∧ (CmdFields.mk 2 false true false 0).dwReservedZero = false ∧
    (CmdFields.mk 2 false false true 0).wellFormed = false := by decide

theorem test_wf_unpack_width :
    (CmdFields.mk 3 true true false 0).unpackWidthKnown = false ∧ (CmdFields.mk 3 true true true 0).wellFormed = false := by
  decide

theorem test_wf_unpack_reorder :
    (CmdFields.mk 3 true false true 0).unpackReorderLegal = false ∧ (CmdFields.mk 3 false true true 0).wellFormed = false := by
  decide

theorem test_wf_every_instruction (i : Instr) : i.wellFormed = true := by cases i <;> decide

/-! Decoding: words written out from the formats of 30_encoding.md rules R125 (bits 6 O2, 5 W4, 4 POL), R126 and R127
(bits 6 REO, 5:4 KB), against the rows of rule R129. -/

theorem test_decode_mm :
    decodeWord 0b00000000000000000000000000000001 = .ok .mmFoldW8O4 ∧
    decodeWord 0b00000000000000000000000001000001 = .ok .mmFoldW8O2 ∧
    decodeWord 0b00000000000000000000000000100001 = .ok .mmFoldW4O4 ∧
    decodeWord 0b00000000000000000000000001100001 = .ok .mmFoldW4O2 ∧
    decodeWord 0b00000000000000000000000000010001 = .ok .mmThrW8O4 ∧
    decodeWord 0b00000000000000000000000001010001 = .ok .mmThrW8O2 ∧
    decodeWord 0b00000000000000000000000000110001 = .ok .mmThrW4O4 ∧
    decodeWord 0b00000000000000000000000001110001 = .ok .mmThrW4O2 := by decide

theorem test_decode_dw : decodeWord 0b00000000000000000000000000000010 = .ok .dwThrO2 := by decide

theorem test_decode_unpack :
    decodeWord 0b00000000000000000000000000000011 = .ok .unpackB2 ∧
    decodeWord 0b00000000000000000000000001000011 = .ok .unpackB2R ∧
    decodeWord 0b00000000000000000000000000010011 = .ok .unpackB4 ∧
    decodeWord 0b00000000000000000000000000100011 = .ok .unpackB8 := by decide

/-- 95_test_vectors.md E2. -/
theorem test_decode_illegal :
    decodeWord 0x00000000 = .error .reservedOp ∧ decodeWord 0x00000004 = .error .reservedOp ∧
    decodeWord 0x0000000F = .error .reservedOp ∧ decodeWord 0x00000081 = .error .mmReserved ∧
    decodeWord 0x00000012 = .error .dwReserved ∧ decodeWord 0x00000033 = .error .unpackWidth ∧
    decodeWord 0x00000053 = .error .unpackReorder ∧ decodeWord 0x00000063 = .error .unpackReorder ∧
    decodeWord 0x00000073 = .error .unpackWidth ∧ decodeWord 0x80000001 = .error .mmReserved := by decide

/-- Byte order and length of a table word (20_memory.md rule R84; 30_encoding.md rule R122). -/
theorem test_decode_bytes :
    decodeBytes [0x43, 0, 0, 0] = .ok .unpackB2R ∧ decodeBytes [0, 0, 0, 0x43] = .error .reservedOp ∧
    decodeBytes [0x43, 0, 0] = .error .length ∧ decodeTableWord 32 0x43 = some .unpackB2R ∧
    decodeTableWord 8 0x43 = some .unpackB2R ∧ decodeTableWord 64 0x43 = none := by decide

/-! Helpers. -/

def bs (l : List Nat) : List Byte := l.map (BitVec.ofNat 8)

/-- Memory with byte lists placed. -/
def mem (l : List (Nat × List Nat)) : Memory := l.foldl (fun m p => placeBytes (BitVec.ofNat 32 p.1) (bs p.2) m) ⟨[]⟩

def rdn (m : Memory) (a n : Nat) : List Nat := (List.range n).map fun i => (m.read (BitVec.ofNat 32 (a + i))).toNat

/-- Signed elements as little-endian bytes. -/
def s16b (l : List Int) : List Nat := l.flatMap fun v => (bytesLE 2 (BitVec.ofInt 16 v).toNat).map BitVec.toNat

def s32b (l : List Int) : List Nat := l.flatMap fun v => (bytesLE 4 (BitVec.ofInt 32 v).toNat).map BitVec.toNat

/-- A BUSY state at its completion step. -/
def st (o : OperandRegs) (m : Memory) : State := { State.reset with snap := o, mem := m, phase := .busy }

/-- The output bytes, RESULT and ERRCODE of a next state. -/
def out (r : StepOutcome) (a n : Nat) : Option (List Nat × Nat × CompletionCode) :=
  match r with
  | .next t => some (rdn t.mem a n, t.result.toNat, t.errcode)
  | _ => none

def z : OperandRegs := OperandRegs.zero

/-- MM operands: `r` rows, `n` columns, the identity fold. -/
def mmO (r n : Nat) : OperandRegs :=
  { z with src0 := 0x1000, src1 := 0x1100, bias := 0x1200, out := 0x1300, thr := 0x1400, mmDim := BitVec.ofNat 32 (n * 65536 + r), foldM := 0x40000000, foldN := 0xFE }

def mm1 : Memory := mem [(0x1000, [1, 2, 3, 4, 1, 1, 1, 1]), (0x1100, s16b [1, 1, 1, 1, 2, 2, 2, 2])]

/-- `n` thresholds from `a` in steps of `d`. -/
def table (n : Nat) (a d : Int) : List Int := (List.range n).map fun i => a + d * i

def thrMem (l : List Int) : Memory :=
  mem [(0x1000, [200, 0, 1, 255]), (0x1100, s16b [1, 1, -1, 3]), (0x1200, s32b [0, -10]), (0x1400, s16b l)]

/-- DW operands: channels, IN_DIM, K, S, OUT_DIM, the padding on the left and the top, z_in and z_wt. -/
def dwO (c d k sd od pl pt zi zw : Nat) : OperandRegs :=
  { z with cmd := 2, src1 := 0x1000, src0 := 0x1100, bias := 0x1200, thr := 0x1300, col := 0x1400, out := 0x1500, dwCh := BitVec.ofNat 32 (c * 65537), dwDim := BitVec.ofNat 32 (od * 65536 + d), dwKs := BitVec.ofNat 32 (sd * 256 + k), dwPad := BitVec.ofNat 32 (pl + pt * 65536), zp := BitVec.ofNat 32 (zi * 65536 + zw * 16777216) }

def dwM (inp w : List Nat) (b t : List Int) (c : Nat) : Memory :=
  mem [(0x1000, inp), (0x1100, w), (0x1200, s32b b), (0x1300, s16b (List.replicate c t).flatten)]

def up (n : Nat) : List Nat := (List.range n).map (· + 1)

def upkO (n ofs : Nat) : OperandRegs :=
  { z with src1 := 0x1000, out := 0x2000, unpackCnt := BitVec.ofNat 32 n, unpackOfs := BitVec.ofNat 32 ofs }

def upk (i : Instr) (l : List Nat) (n ofs : Nat) : Option (List Nat × Nat × CompletionCode) :=
  out (exec i (st (upkO n ofs) (mem [(0x1000, l)]))) 0x2000 (2 * n)

/-! The units (95_test_vectors.md L2.1 to L2.4). -/

/-- A1, A3, A4, A5, A6, A7, A8, A10. -/
theorem test_affine :
    affine 10 0x40000000 (-2) 4 0 = 10 ∧ affine 10 0x7FFFFFFF 0 4 0 = 4 ∧ affine 10 0x7FFFFFFF (-1) 4 0 = 9 ∧
    affine 100 0x40000000 1 4 0 = 12 ∧ affine 100 0x40000000 2 2 0 = 3 ∧
    affine (BitVec.ofInt 32 (-7)) 0x40000000 (-2) 4 0 = 0 ∧ affine 13 0x40000000 (-2) 4 3 = 0 ∧
    affine (BitVec.ofInt 32 (-5)) (-0x40000000) (-2) 4 0 = 5 := by decide +kernel

/-- A11, A12, A14, A16, A17, A19, A20. -/
theorem test_affine_corners :
    affine 0x40000000 0x40000000 (-2) 4 0 = 0 ∧ affine 0x80000000 (-0x80000000) 0 4 0 = 15 ∧
    affine (BitVec.ofInt 32 (-5)) 0x40000000 40 4 0 = 0 ∧ affine 0x40000000 0x7FFFFFFF (-1) 4 0 = 0 ∧
    affine 7 0x60000000 (-2) 2 1 = 0 ∧ affine 12345 0 5 4 7 = 7 ∧ affine (BitVec.ofInt 32 (-100)) 0x40000000 3 4 0 = 0 := by
  decide +kernel

/-- T1, T2, T4, T5. -/
theorem test_thresholds :
    [-6, -5, 0, 4, 5, 1000, 65539, 32768, -32769].map (fun s => firstAbove (trunc16 (BitVec.ofInt 32 s)) [-5, 0, 5])
      = [0, 1, 2, 2, 3, 3, 2, 0, 3] ∧
    [2, 3, 7].map (fun s => firstAbove (trunc16 (BitVec.ofInt 32 s)) [5, 0, 5]) = [0, 0, 3] ∧
    [0, -1].map (fun s => firstAbove (trunc16 (BitVec.ofInt 32 s)) [0, 0, 0]) = [3, 0] := by decide +kernel

/-- M2, M3, M4, M5. -/
theorem test_dmac :
    (dmac 100 255 255 0x8000 0x8000).toInt = -16711580 ∧ (dmac 2147483647 1 0 1 0).toInt = -2147483648 ∧
    (dmac 0x80000000 255 0 0xFFFF 0).toInt = 2147483393 ∧ (dmac 0 0x8000 0x8000 0x8000 0x8000).toInt = -2147483648 := by
  decide +kernel

/-- K1 to K4, from any buffer. -/
theorem test_packer :
    (packRegion 2 [0, 1, 2, 3] ⟨77, 3⟩).2 = [0xE4] ∧ (packRegion 4 [1, 2, 3] ⟨9, 1⟩).2 = [0x21, 0x03] ∧
    (packRegion 2 [3, 3, 3, 3, 1] ⟨0xFF, 0⟩).2 = [0xFF, 0x01] ∧ (packRegion 4 [] ⟨9, 1⟩).2 = [] := by decide +kernel

/-! The commands (95_test_vectors.md L2.5 to L2.7). -/

/-- MM1. -/
theorem test_mmFoldW8O4 : out (exec .mmFoldW8O4 (st (mmO 2 4) mm1)) 0x1300 2 = some ([0x4A, 0x8F], 0x1302, .ok) := by
  decide +kernel

/-- MM9: an odd row count and an odd column count. -/
theorem test_mmFoldW8O4_odd :
    out (exec .mmFoldW8O4 (st (mmO 3 1) (mem [(0x1000, [2, 3, 4]), (0x1100, s16b [1, 2])]))) 0x1300 4
      = some ([0x32, 0x04, 0x64, 0x08], 0x1304, .ok) := by decide +kernel

/-- MM2. -/
theorem test_mmFoldW8O2 : out (exec .mmFoldW8O2 (st (mmO 2 4) mm1)) 0x1300 2 = some ([0x0F, 0x0F], 0x1302, .ok) := by
  decide +kernel

def mm3 : Memory := mem [(0x1000, [0x21, 0x43, 0x11, 0x11]), (0x1100, s16b [1, 1, 1, 1, 2, 2, 2, 2])]

/-- MM3. -/
theorem test_mmFoldW4O4 : out (exec .mmFoldW4O4 (st (mmO 2 4) mm3)) 0x1300 2 = some ([0x4A, 0x8F], 0x1302, .ok) := by
  decide +kernel

def mm4 : Memory :=
  mem [(0x1000, [0x0F, 7, 0x21, 3, 0x88, 8, 0, 0x0F]), (0x1100, s16b [1, -2, 3, 100, 0, -1]), (0x1200, s32b [5, -5, 0, 1000])]

/-- MM4 (45_matmul.md rule R258): its accumulators and its bytes. -/
theorem test_mmFoldW4O2 :
    [0, 1, 2, 3].map (fun r => (mmAcc .w4 mm4 { mmO 4 3 with zp := 2 } r 0).toInt) = [37, -3, 12, 1041] ∧
    [0, 1, 2, 3].map (fun r => (mmAcc .w4 mm4 { mmO 4 3 with zp := 2 } r 1).toInt) = [1300, -106, 594, 787] ∧
    out (exec .mmFoldW4O2 (st { mmO 4 3 with zp := 2 } mm4)) 0x1300 2 = some ([0xF3, 0xF3], 0x1302, .ok) := by
  decide +kernel

/-- MM5 (rule R259). -/
theorem test_mmThrW8O4 :
    out (exec .mmThrW8O4 (st (mmO 2 2) (thrMem (table 15 0 20 ++ table 15 (-70) 10)))) 0x1300 2
      = some ([0xFB, 0xF0], 0x1302, .ok) := by decide +kernel

/-- MM6 (rule R260). -/
theorem test_mmThrW8O2 :
    out (exec .mmThrW8O2 (st (mmO 2 2) (thrMem [0, 100, 250, -100, 0, 500]))) 0x1300 2 = some ([0x0A, 0x0C], 0x1302, .ok) := by
  decide +kernel

/-- MM7 (rule R261). -/
theorem test_mmThrW4O4 :
    out (exec .mmThrW4O4 (st (mmO 2 2) (mem [(0x1000, [0x1F, 0x20]), (0x1100, s16b [1, 2, -1, 0]),
      (0x1400, s16b (table 15 0 2 ++ table 15 0 2))]))) 0x1300 2 = some ([0x39, 0x10], 0x1302, .ok) := by decide +kernel

/-- MM8 (rule R262): a strided table whose pad entries are not read. -/
theorem test_mmThrW4O2 :
    out (exec .mmThrW4O2 (st { mmO 4 4 with zp := 1, thrStride := 4 }
      (mem [(0x1000, [0x21, 0x43, 255, 255, 0, 0, 1, 0x10]), (0x1100, s16b [0, 1, 2, 3, 3, 2, 1, 0]),
        (0x1200, s32b [0, 0, 10, -10]),
        (0x1400, s16b [5, 20, 40, 32767, 0, 30, 60, 32767, -10, 0, 10, 32767, -20, -5, 0, 32767])]))) 0x1300 2
      = some ([0x6D, 0x6C], 0x1302, .ok) := by decide +kernel

def dw2 : State :=
  st (dwO 4 2 2 1 2 1 1 0 0) (dwM (up 16) ([1, 2, 3, 4].flatMap (List.replicate 4)) [0, 0, 0, 0] [10, 20, 40] 4)

/-- DW2 (46_depthwise.md rule R281): padding on the top and the left. -/
theorem test_dwThrO2 : out (exec .dwThrO2 dw2) 0x1500 4 = some ([0x50, 0xEA, 0xFE, 0xFF], 0x1504, .ok) := by decide +kernel

/-- DW3: a stride of 2 and zero points; the column buffer holds the last patch. -/
theorem test_dwThrO2_stride :
    let r := exec .dwThrO2 (st (dwO 2 3 1 2 2 0 0 1 1) (dwM (up 18) [2, 3] [0, 0] [0, 5, 10] 2))
    out r 0x1500 4 = some ([0x05, 0x0D, 0x0F, 0x0F], 0x1504, .ok) ∧ out r 0x1400 3 = some ([17, 18, 0], 0x1504, .ok) := by
  decide +kernel

/-- U4: a partial last byte and an offset. -/
theorem test_unpackB2 :
    upk .unpackB2 [0xE4, 0x1B] 5 2 = some (s16b [-2, -1, 0, 1, 1], 0x200A, .ok) := by decide +kernel

/-- U2. -/
theorem test_unpackB2R :
    upk .unpackB2R [0xE4, 0x1B] 8 0 = some (s16b [3, 2, 1, 0, 0, 1, 2, 3], 0x2010, .ok) := by decide +kernel

/-- U3: a partial group takes slots 3 and 2. -/
theorem test_unpackB2R_partial :
    upk .unpackB2R [0xE4, 0x1B] 6 1 = some (s16b [2, 1, 0, -1, -1, 0], 0x200C, .ok) := by decide +kernel

/-- U5. -/
theorem test_unpackB4 : upk .unpackB4 [0x21, 0xF0] 4 3 = some (s16b [-2, -1, -3, 12], 0x2008, .ok) := by decide +kernel

/-- U6, with the bytes of -255 and -127. -/
theorem test_unpackB8 :
    upk .unpackB8 [0x00, 0xFF, 0x80] 3 255 = some ([0x01, 0xFF, 0, 0, 0x81, 0xFF], 0x2006, .ok) := by decide +kernel

/-! The registers (95_test_vectors.md L2.8). -/

/-- R2, R3, R8: reserved fields and read-only registers. -/
theorem test_register_writes :
    regRead (regWrite .foldN 0xFFFFFFFE State.reset) .foldN = 0xFE ∧
    regRead (regWrite .dwKs 0xFFFFFFFF State.reset) .dwKs = 0xFFFF ∧
    regRead (regWrite .result 5 (regWrite .id 0 State.reset)) .result = 0 ∧
    regRead (regWrite .id 0 State.reset) .id = 0x51544E49 := by decide +kernel

/-- R4 and R5: an illegal word completes at once with `irq`; the acknowledge drops `irq` and keeps ERRCODE. -/
theorem test_illegal_start :
    let t := regWrite .ctrl 3 State.reset
    regRead t .status = 0x22 ∧ regRead t .ctrl = 2 ∧ t.irq = true ∧
    regRead (regWrite .status 2 t) .status = 0x20 ∧ (regWrite .status 2 t).irq = false := by decide +kernel

/-- R6 and R7: a START while BUSY, then the acknowledge of DONE and OVERRUN after the completion. -/
theorem test_start_while_busy :
    let t := regWrite .ctrl 1 (st (upkO 8 0) ⟨[]⟩)
    regRead t .status = 5 ∧ regRead (complete .ok t) .status = 6 ∧ regRead (regWrite .status 6 (complete .ok t)) .status = 0 := by
  decide +kernel

/-- P5: the channel mismatch of DW_CH = 0x00080004 reads as STATUS 0x12. -/
theorem test_mismatch_start :
    regRead (regWrite .ctrl 1 (regWrite .cmd 2 (regWrite .dwCh 0x00080004 State.reset))) .status = 0x12 := by decide +kernel

/-! Witnesses: concrete states and operands that meet the hypotheses of each statement. -/

/-- The HOST about to do one step, with the CORE IDLE and with the CORE BUSY. -/
def idleHost (h : HostStep) : State := { State.reset with host := ⟨[h], 0, []⟩ }

def busyHost (h : HostStep) : State :=
  { State.reset with snap := { upkO 8 0 with cmd := 3 }, phase := .busy, delay := 1, unobserved := true, host := ⟨[h], 0, []⟩ }

/-- A next state with a property. -/
def nextIs (p : State → Bool) : StepOutcome → Bool
  | .next t => p t
  | _ => false

theorem exists_of_nextIs (r : StepOutcome) (p : State → Bool) (h : nextIs p r = true) : ∃ t, r = .next t ∧ p t = true := by
  cases r with
  | next t => exact ⟨t, rfl, h⟩
  | fault f => cases h
  | refused f => cases h

theorem idleHost_turn (h : HostStep) : HostTurn (idleHost h) (idleHost h) := ⟨rfl, Or.inl ⟨rfl, rfl⟩⟩

theorem busyHost_turn (h : HostStep) : HostTurn (busyHost h) { busyHost h with delay := 0 } :=
  ⟨rfl, Or.inr ⟨rfl, 0, rfl, rfl⟩⟩

theorem witness_LegalExactlyThirteenWords :
    State.reset.phase = .idle ∧ State.reset.ops.cmd ∉ opcodeMap.map Prod.fst := by decide

theorem witness_DecodeEncodeAgree : decodeWord 0x71 = .ok .mmThrW4O2 ∧ (0x71 : Word) = encode .mmThrW4O2 := by decide

/-- One word for each clause; 0x33 and 0x73 for KB = 11 with either REO. -/
theorem witness_ReservedWordsRejected :
    (0xFFFFFFF0 : Word).extractLsb' 0 4 ∉ [1, 2, 3] ∧ (0x4 : Word).extractLsb' 0 4 ∉ [1, 2, 3] ∧
    ((0x81 : Word).extractLsb' 0 4 = 1 ∧ (0x81 : Word).extractLsb' 7 25 ≠ 0) ∧
    ((0x80000001 : Word).extractLsb' 0 4 = 1 ∧ (0x80000001 : Word).extractLsb' 7 25 ≠ 0) ∧
    ((0x12 : Word).extractLsb' 0 4 = 2 ∧ (0x12 : Word).extractLsb' 4 28 ≠ 0) ∧
    ((0x83 : Word).extractLsb' 0 4 = 3 ∧ (0x83 : Word).extractLsb' 7 25 ≠ 0) ∧
    ((0x73 : Word).extractLsb' 0 4 = 3 ∧ (0x73 : Word).extractLsb' 7 25 = 0 ∧ (0x73 : Word).extractLsb' 4 2 = 3) ∧
    ((0x53 : Word).extractLsb' 0 4 = 3 ∧ (0x53 : Word).extractLsb' 7 25 = 0 ∧ (0x53 : Word).getLsbD 6 = true ∧
      (0x53 : Word).extractLsb' 4 2 = 1) ∧
    ((0x63 : Word).extractLsb' 0 4 = 3 ∧ (0x63 : Word).extractLsb' 7 25 = 0 ∧ (0x63 : Word).getLsbD 6 = true ∧
      (0x63 : Word).extractLsb' 4 2 = 2) := by decide

/-- The window's first and last byte, the bytes just outside, and the indices around the last register. -/
theorem witness_WindowSelectsRegister :
    State.reset.platform.inWindow 0x40000000 = true ∧ State.reset.platform.inWindow 0x400000FF = true ∧
    State.reset.platform.inWindow 0x3FFFFFFF = false ∧ State.reset.platform.inWindow 0x40000100 = false ∧
    RegName.ofIndex 0 = some .id ∧ RegName.ofIndex 0x17 = some .faultAddr ∧ RegName.ofIndex 0x18 = none ∧
    RegName.ofIndex 0x3F = none := by decide

theorem witness_StepRunsDecodedCommand :
    (dw2.resetIn = false ∧ dw2.phase = .busy ∧ dw2.delay = 0 ∧ decodeWord dw2.snap.cmd = .ok .dwThrO2) ∧
    decodeWord (st z ⟨[]⟩).snap.cmd = .error .reservedOp ∧ (st z ⟨[]⟩).delay = 0 := by decide

theorem witness_FetchedWordRuns : decodeTableWord 32 0x43 = some .unpackB2R := by decide

/-- The first and the last reserved index, and the index before them. -/
theorem witness_ResetRegisterValues :
    0x18 ≤ (0x18 : BitVec 6).toNat ∧ 0x18 ≤ (0x3F : BitVec 6).toNat ∧ ¬ 0x18 ≤ (0x17 : BitVec 6).toNat := by decide

/-- A busy CORE with a reset asserted: an address outside WS and one inside; and an idle CORE. -/
theorem witness_ResetInputWins :
    let s := { busyHost .assertReset with resetIn := true }
    s.resetIn = true ∧ covers (snapshotSets s.snap).ws 0x2010 = false ∧ covers (snapshotSets s.snap).ws 0x200F = true ∧
    { State.reset with resetIn := true }.phase = .idle := by decide +kernel

theorem witness_OperandWriteReadsBack :
    (RegName.dwKs, (0x0000FFFF : Word)) ∈ operandRegisters ∧ (RegName.cmd, (0xFFFFFFFF : Word)) ∈ operandRegisters ∧
    RegName.src0 ≠ RegName.dwKs := by decide

theorem witness_ReadOnlyWritesIgnored :
    (∀ x ∈ ([0x00, 0x16, 0x17, 0x18, 0x3F] : List (BitVec 6)),
      RegName.ofIndex x ∈ [some .id, some .result, some .faultAddr, none]) ∧
    (6 : Word).extractLsb' 1 2 = (0xFFFFFFFF : Word).extractLsb' 1 2 ∧
    (3 : Word).extractLsb' 0 2 = (0xFFFFFFFF : Word).extractLsb' 0 2 := by decide

theorem witness_StartWhileBusyIgnored : (busyHost .assertReset).phase = .busy ∧ (1 : Word).getLsbD 0 = true := by decide

/-- A legal word, an illegal word, and DW with mismatched channels. -/
theorem witness_StartAccepted :
    let legal := { State.reset with ops := { upkO 8 0 with cmd := 3 } }
    let mismatch := { State.reset with ops := { z with cmd := 2, dwCh := 0x00080004 } }
    legal.phase = .idle ∧ (1 : Word).getLsbD 0 = true ∧ decodeWord legal.ops.cmd = .ok .unpackB2 ∧
    (∀ i, decodeWord State.reset.ops.cmd ≠ .ok i) ∧
    decodeWord mismatch.ops.cmd = .ok .dwThrO2 ∧ mismatch.ops.chIn ≠ mismatch.ops.chOut := by
  refine ⟨rfl, rfl, by decide, fun i h => ?_, by decide, by decide⟩
  cases i <;> exact absurd h (by decide)

theorem witness_HostAccessReachesRegister :
    HostTurn (idleHost (rd State.reset.platform .status 1)) (idleHost (rd State.reset.platform .status 1)) ∧
    nextHostStep (idleHost (rd State.reset.platform .status 1)) = some (.read (regAddr State.reset.platform .status) .word 1) ∧
    HostTurn (busyHost (wr State.reset.platform .ctrl 1)) { busyHost (wr State.reset.platform .ctrl 1) with delay := 0 } ∧
    nextHostStep (busyHost (wr State.reset.platform .ctrl 1)) = some (.write (regAddr State.reset.platform .ctrl) .word 1) :=
  ⟨idleHost_turn _, rfl, busyHost_turn _, rfl⟩

/-- The first and the last reserved offset, 0x60 and 0xFC. -/
theorem witness_HostAccessReservedOffset :
    HostTurn (idleHost (.read (addr State.reset.platform.coreBase (4 * 0x18)) .word 1))
      (idleHost (.read (addr State.reset.platform.coreBase (4 * 0x18)) .word 1)) ∧
    HostTurn (busyHost (.write (addr State.reset.platform.coreBase (4 * 0x3F)) .word 5))
      { busyHost (.write (addr State.reset.platform.coreBase (4 * 0x3F)) .word 5) with delay := 0 } ∧
    addr State.reset.platform.coreBase (4 * 0x18) = 0x40000060 ∧
    addr State.reset.platform.coreBase (4 * 0x3F) = 0x400000FC :=
  ⟨idleHost_turn _, busyHost_turn _, by decide, by decide⟩

/-- A byte access, a misaligned word, and a half that straddles into the window. -/
theorem witness_UnalignedWindowAccessFaults :
    HostTurn (idleHost (.write 0x3FFFFFFF .half 0)) (idleHost (.write 0x3FFFFFFF .half 0)) ∧
    (∃ i < AccessSize.half.bytes, State.reset.platform.inWindow (addr 0x3FFFFFFF i) = true) ∧
    (∃ i < AccessSize.byte.bytes, State.reset.platform.inWindow (addr 0x40000004 i) = true) ∧ AccessSize.byte ≠ .word ∧
    HostTurn (idleHost (.read 0x400000FD .word 0)) (idleHost (.read 0x400000FD .word 0)) ∧
    (∃ i < AccessSize.word.bytes, State.reset.platform.inWindow (addr 0x400000FD i) = true) ∧
    (0x400000FD : Word).toNat % 4 ≠ 0 :=
  ⟨idleHost_turn _, by decide, by decide, by decide, idleHost_turn _, by decide, by decide⟩

theorem witness_HostDataReadAfterWrite :
    let s := { State.reset with host := ⟨[.write 0xFFFFFFFF .half 0x1234, .read 0xFFFFFFFF .half 2], 0, []⟩ }
    s.resetIn = false ∧ s.phase = .idle ∧ s.unobserved = false ∧
    (∀ i < AccessSize.half.bytes,
      s.platform.inWindow (addr 0xFFFFFFFF i) = false ∧ covers s.platform.sideEffect (addr 0xFFFFFFFF i) = false) ∧
    nextHostStep s = some (.write 0xFFFFFFFF .half 0x1234) ∧
    s.host.prog[s.host.pos + 1]? = some (.read 0xFFFFFFFF .half 2) := by
  refine ⟨rfl, rfl, rfl, by decide +kernel, rfl, rfl⟩

/-- A write into WS of the running operation (0x2000) and one into RS (0x1001), while BUSY; one while IDLE. -/
theorem witness_HostDataWriteStep :
    HostTurn (busyHost (.write 0x2000 .byte 7)) { busyHost (.write 0x2000 .byte 7) with delay := 0 } ∧
    covers (snapshotSets (busyHost .assertReset).snap).ws 0x2000 = true ∧
    covers (snapshotSets (busyHost .assertReset).snap).rs 0x1001 = true ∧
    covers (snapshotSets (busyHost .assertReset).snap).rs 0x1002 = false ∧
    (∀ i < AccessSize.byte.bytes, State.reset.platform.inWindow (addr 0x2000 i) = false ∧
      covers State.reset.platform.sideEffect (addr 0x2000 i) = false) ∧
    HostTurn (idleHost (.write 0x2000 .byte 7)) (idleHost (.write 0x2000 .byte 7)) ∧
    nextHostStep (busyHost (.write 0x2000 .byte 7)) = some (.write 0x2000 .byte 7) :=
  ⟨busyHost_turn _, by decide +kernel, by decide +kernel, by decide +kernel, by decide +kernel, idleHost_turn _, rfl⟩

/-- A read just past WS while BUSY, and a read while IDLE. -/
theorem witness_HostDataReadStep :
    HostTurn (busyHost (.read 0x2010 .word 1)) { busyHost (.read 0x2010 .word 1) with delay := 0 } ∧
    (∀ i < AccessSize.word.bytes, covers (snapshotSets (busyHost .assertReset).snap).ws (addr 0x2010 i) = false) ∧
    (∀ i < AccessSize.word.bytes, State.reset.platform.inWindow (addr 0x2010 i) = false ∧
      covers State.reset.platform.sideEffect (addr 0x2010 i) = false) ∧
    nextHostStep (busyHost (.read 0x2010 .word 1)) = some (.read 0x2010 .word 1) ∧
    HostTurn (idleHost (.read 0x2010 .word 1)) (idleHost (.read 0x2010 .word 1)) ∧ State.reset.unobserved = false :=
  ⟨busyHost_turn _, by decide +kernel, by decide +kernel, rfl, idleHost_turn _, rfl⟩

theorem witness_HostWaitPassesOnIrq :
    let s := { idleHost (.waitIrq 0) with irqEn := true, done := true }
    HostTurn s s ∧ nextHostStep s = some (.waitIrq 0) ∧ s.platform.irqLine = 0 ∧
    HostTurn (idleHost (.waitIrq 0)) (idleHost (.waitIrq 0)) ∧ (idleHost (.waitIrq 0)).done = false ∧
    nextHostStep (idleHost (.waitIrq 1)) = some (.waitIrq 1) :=
  ⟨⟨rfl, Or.inl ⟨rfl, rfl⟩⟩, rfl, rfl, idleHost_turn _, rfl, rfl⟩

/-- The last row of an odd row count has no partner; the exact sum of a row fits. -/
theorem witness_MacArrayClosedForm :
    2 < (mmO 3 1).rows ∧ ¬ 2 + 1 < (mmO 3 1).rows ∧ 0 + 1 < (mmO 3 1).rows ∧
    -2 ^ 31 ≤ (bias mm4 (mmO 4 3) 1).toInt + mmDot .w4 mm4 (mmO 4 3) 1 1 ∧
    (bias mm4 (mmO 4 3) 1).toInt + mmDot .w4 mm4 (mmO 4 3) 1 1 < 2 ^ 31 := by decide +kernel

/-- The largest and the smallest accumulator of the range, at both widths. -/
theorem witness_AffineIdentitySetting :
    ((4 = 4 ∨ 4 = 2) ∧ -2 ^ 29 < (0x1FFFFFFF : Word).toInt ∧ (0x1FFFFFFF : Word).toInt < 2 ^ 29 ∧
      affine 0x1FFFFFFF (2 ^ 30) (-2) 4 255 = 14) ∧
    ((2 = 4 ∨ 2 = 2) ∧ -2 ^ 29 < (0xE0000001 : Word).toInt ∧ (0xE0000001 : Word).toInt < 2 ^ 29 ∧
      affine 0xE0000001 (2 ^ 30) (-2) 2 255 = 3) := by decide +kernel

/-- One setting for each clause: a negative multiplier, shifts of 32 and more on either side, both signs of the product. -/
theorem witness_AffineCornerCases :
    (0 ≤ (shl32 5 (preShift (0xFE : BitVec 8).toInt)).toInt ∧ (0x80000000 : Word).toInt < 0) ∧
    32 ≤ preShift (0xE0 : BitVec 8).toInt ∧ 32 ≤ preShift (0x80 : BitVec 8).toInt ∧ 32 ≤ postShift (0x20 : BitVec 8).toInt ∧
    32 ≤ postShift (0x7F : BitVec 8).toInt ∧ 0 ≤ mulHigh 5 (0x40000000 : Word).toInt ∧
    mulHigh (BitVec.ofInt 32 (-5)) (0x40000000 : Word).toInt < 0 := by decide +kernel

/-- T4: a table that is not monotonic, at which the first index stops early; T1: levels 0 and 3. -/
theorem witness_ThresholdFirstIndex :
    thresh (mem [(0x1400, s16b [5, 0, 5])]) (mmO 1 1) 3 0 2 = 0 ∧ thresh (mem [(0x1400, s16b [5, 0, 5])]) (mmO 1 1) 7 0 2 = 3 := by
  decide +kernel

theorem witness_ThresholdBucketUnique :
    let m := mem [(0x1400, s16b [-5, 0, 5])]
    Monotone (slice m (mmO 1 1) 2 0) ∧ thresh m (mmO 1 1) 5 0 2 = 3 ∧ thresh m (mmO 1 1) 4 0 2 = 2 ∧
    thresh m (mmO 1 1) (BitVec.ofInt 32 (-6)) 0 2 = 0 := by
  refine ⟨?_, by decide +kernel, by decide +kernel, by decide +kernel⟩
  have h : slice (mem [(0x1400, s16b [-5, 0, 5])]) (mmO 1 1) 2 0 = [BitVec.ofInt 16 (-5), 0, 5] := by decide +kernel
  rw [h]
  intro i j hi hj hij
  simp only [List.length_cons, List.length_nil] at hi hj
  have h2 : ∀ i j : Fin 3, i ≤ j →
      ([BitVec.ofInt 16 (-5), 0, 5][i.val] : Half).toInt ≤ ([BitVec.ofInt 16 (-5), 0, 5][j.val] : Half).toInt := by decide
  exact h2 ⟨i, hi⟩ ⟨j, hj⟩ hij

/-- A partial last byte of each width. -/
theorem witness_PackerMatchesPlacement :
    (2 = 4 ∨ 2 = 2) ∧ cdiv ([3, 3, 3, 3, 1].length * 2) 8 = 2 ∧ cdiv ([1, 2, 3].length * 4) 8 = 2 ∧
    packedByte 2 5 ([3, 3, 3, 3, 1].getD · 0) 1 = 1 ∧ packedByte 4 3 ([1, 2, 3].getD · 0) 1 = 3 := by decide +kernel

/-- K3 in memory: five crumbs, with a partial last group. -/
theorem witness_PackUnpackRoundTrip :
    let levels := [3, 2, 1, 0, 1]
    let m := mem [(0x1000, [0x1B, 0x01])]
    (∀ l ∈ levels, l < 2 ^ ElementWidth.b2.bits) ∧ (upkO 5 0).offset = 0 ∧
    (∀ b (h : b < (packRegion 2 levels ⟨7, 1⟩).2.length),
      m.read (addr (upkO 5 0).src1 b) = (packRegion 2 levels ⟨7, 1⟩).2[b]) ∧
    (packRegion 2 levels ⟨7, 1⟩).2.length = 2 := by decide +kernel

/-- Five channels: the lane of the fifth exists, the next three do not. -/
theorem witness_DepthwiseLanesClosedForm :
    4 * 1 + 0 < (dwO 5 2 1 1 2 0 0 1 5).chIn ∧ ¬ 4 * 1 + 1 < (dwO 5 2 1 1 2 0 0 1 5).chIn := by decide +kernel

/-- Pixel (0, 0) of a 1x1 input behind a padding of 2: both cells of each row are outside. -/
theorem witness_DepthwisePaddingLaw :
    (∀ cell ∈ dwCells (dwO 4 1 2 1 1 2 2 10 2), dwInBounds (dwO 4 1 2 1 1 2 2 10 2) (0, 0) cell = false) ∧
    dwCells (dwO 4 1 2 1 1 2 2 10 2) ≠ [] ∧ 4 * 0 + 3 < (dwO 4 1 2 1 1 2 2 10 2).chIn := by decide +kernel

/-- Two memories that differ in channel 1 agree on channel 0. -/
theorem witness_DepthwiseChannelsIndependent :
    let o := dwO 2 1 1 1 1 0 0 0 0
    let m := dwM [5, 6] [1, 2] [3, 4] [0, 5, 10] 2
    let m' := dwM [5, 7] [1, 9] [3, 8] [0, 5, 10] 2
    0 < o.chIn ∧ (∀ y < o.inDim, ∀ x < o.inDim, input m o y x 0 = input m' o y x 0) ∧
    (∀ ky < o.kdim, ∀ kx < o.kdim, dwWeight m o ky kx 0 = dwWeight m' o ky kx 0) ∧ bias m o 0 = bias m' o 0 ∧
    (∀ i < 3, threshold m o 2 0 i = threshold m' o 2 0 i) ∧ input m o 0 0 1 ≠ input m' o 0 0 1 := by decide +kernel

theorem witness_MmFoldCommandsComplete :
    OpClean (setsOf .mmFoldW8O4 (st (mmO 2 4) mm1)) (st (mmO 2 4) mm1) ∧
    OpClean (setsOf .mmFoldW8O2 (st (mmO 3 1) mm1)) (st (mmO 3 1) mm1) ∧
    OpClean (setsOf .mmFoldW4O4 (st (mmO 2 4) mm3)) (st (mmO 2 4) mm3) ∧
    OpClean (setsOf .mmFoldW4O2 (st (mmO 0 4) mm3)) (st (mmO 0 4) mm3) := by decide +kernel

theorem witness_MmThresholdCommandsComplete :
    OpClean (setsOf .mmThrW8O4 (st (mmO 2 2) mm1)) (st (mmO 2 2) mm1) ∧
    OpClean (setsOf .mmThrW8O2 (st (mmO 3 1) mm1)) (st (mmO 3 1) mm1) ∧
    OpClean (setsOf .mmThrW4O4 (st (mmO 2 0) mm3)) (st (mmO 2 0) mm3) ∧
    OpClean (setsOf .mmThrW4O2 (st (mmO 4 4) mm3)) (st (mmO 4 4) mm3) := by decide +kernel

theorem witness_DepthwiseCommandCompletes :
    dw2.snap.chIn = dw2.snap.chOut ∧ OpClean (setsOf .dwThrO2 dw2) dw2 ∧ 0 < dw2.snap.outDim := by decide +kernel

theorem witness_UnpackCommandsComplete :
    OpClean (setsOf .unpackB2 (st (upkO 5 2) ⟨[]⟩)) (st (upkO 5 2) ⟨[]⟩) ∧
    OpClean (setsOf .unpackB4 (st (upkO 3 3) ⟨[]⟩)) (st (upkO 3 3) ⟨[]⟩) ∧
    OpClean (setsOf .unpackB8 (st (upkO 0 255) ⟨[]⟩)) (st (upkO 0 255) ⟨[]⟩) ∧
    OpClean (setsOf .unpackB2R (st (upkO 6 1) ⟨[]⟩)) (st (upkO 6 1) ⟨[]⟩) := by decide +kernel

theorem witness_DepthwiseMismatchCompletes :
    let o := { z with cmd := 2, dwCh := 0x00080004 }
    { State.reset with ops := o }.phase = .idle ∧ decodeWord o.cmd = .ok .dwThrO2 ∧ o.chIn ≠ o.chOut := by decide

/-- UNPACK of 8 elements with the platform refusing 0x2008 .. 0x20FF. -/
def refusedState : State :=
  { st (upkO 8 0) ⟨[]⟩ with platform := { State.reset.platform with refused := [⟨0x2008, 0xF8⟩] } }

/-- Both sides: a refused byte in WS, and none. -/
theorem witness_BusErrorExactlyOnRefusedByte :
    touchesSideEffect (setsOf .unpackB2 refusedState) refusedState = false ∧
    covers ((setsOf .unpackB2 refusedState).rs ++ (setsOf .unpackB2 refusedState).ws) 0x2008 = true ∧
    refusedState.platform.memOk 0x2008 = false ∧ refusedState.platform.memOk 0x2007 = true ∧
    refusedBytes State.reset.platform (setsOf .unpackB2 (st (upkO 8 0) ⟨[]⟩)) = [] := by decide +kernel

/-- An UNPACK whose output covers its source, and one into whose source the HOST wrote. -/
def overlapState : State := st { upkO 8 0 with out := 0x1000 } ⟨[]⟩

def rsWrittenState : State := { st (upkO 8 0) ⟨[]⟩ with rsWritten := true }

theorem witness_FreeWriteSetStillCompletes :
    (touchesSideEffect (setsOf .unpackB2 overlapState) overlapState = false ∧
      refusedBytes overlapState.platform (setsOf .unpackB2 overlapState) = [] ∧
      (setsOf .unpackB2 overlapState).overlap = true) ∧
    touchesSideEffect (setsOf .unpackB2 rsWrittenState) rsWrittenState = false ∧
    refusedBytes rsWrittenState.platform (setsOf .unpackB2 rsWrittenState) = [] ∧ rsWrittenState.rsWritten = true := by
  decide +kernel

theorem witness_HostWrittenByteHoldsEitherValue :
    let s := { st (upkO 8 0) ⟨[]⟩ with hostWrote := [0x2003] }
    OpClean (setsOf .unpackB2 s) { s with hostWrote := [] } ∧ (0x2003 : Word) ∈ s.hostWrote ∧ (0x2004 : Word) ∉ s.hostWrote := by
  decide +kernel

/-- The last source byte lies on memory with read side effects. -/
theorem witness_SideEffectBufferRefused :
    let s := { st (upkO 8 0) ⟨[]⟩ with platform := { State.reset.platform with sideEffect := [⟨0x1001, 1⟩] } }
    covers ((setsOf .unpackB2 s).rs ++ (setsOf .unpackB2 s).ws) 0x1001 = true ∧
    s.platform.hasSideEffect 0x1001 = true := by decide +kernel

/-- For NoCommandWritesOutsideWriteSet, CompletionRaisesIrq and EnginesLeaveOtherHiddenState: each engine answers a next
state. -/
theorem witness_EnginesAnswerNext :
    (∃ t, exec .mmFoldW8O4 (st (mmO 2 4) mm1) = .next t ∧ (t.phase == .idle) = true) ∧
    operationOf .mmFoldW8O4 = .mm ⟨.fold, .w8, .o4⟩ ∧
    (∃ t, exec .dwThrO2 dw2 = .next t ∧ (t.phase == .idle) = true) ∧ operationOf .dwThrO2 = .dw ∧
    operationOf .unpackB2 = .unpack ⟨.b2, false⟩ :=
  ⟨exists_of_nextIs _ (·.phase == .idle) (by decide +kernel), rfl,
    exists_of_nextIs _ (·.phase == .idle) (by decide +kernel), rfl, rfl⟩

theorem witness_CommandAnswersNext :
    (∃ t, exec .unpackB2 (st (upkO 8 0) ⟨[]⟩) = .next t ∧ (t.phase == .idle) = true) ∧
    covers (setsOf .unpackB2 (st (upkO 8 0) ⟨[]⟩)).ws 0x2010 = false :=
  ⟨exists_of_nextIs _ (·.phase == .idle) (by decide +kernel), by decide +kernel⟩

/-- An illegal word and a channel mismatch, which complete inside the START. -/
theorem witness_CompletionRaisesIrq :
    State.reset.phase = .idle ∧ immediateCode State.reset.ops = some .illegalCmd ∧
    immediateCode { z with cmd := 2, dwCh := 0x00080004 } = some .sizeMismatch := by decide

/-- A memory that differs outside RS. -/
theorem witness_OutputDependsOnlyOnReadSet :
    let s := st (upkO 8 0) (mem [(0x1000, [0xE4, 0x1B]), (0x2000, [9])])
    let m := mem [(0x1000, [0xE4, 0x1B]), (0x1002, [1]), (0x2001, [3])]
    OpClean (setsOf .unpackB2 s) s ∧ (setsOf .unpackB2 s).rs = [⟨0x1000, 2⟩] ∧ m.read 0x1000 = s.mem.read 0x1000 ∧
    m.read 0x1001 = s.mem.read 0x1001 ∧ m ≠ s.mem := by decide +kernel

/-- The HOST clears OVERRUN. -/
theorem witness_OverrunStaysUntilCleared :
    let s := { idleHost (wr State.reset.platform .status 4) with overrun := true }
    s.overrun = true ∧ ∃ t, step s = .next t ∧ (!t.overrun) = true :=
  ⟨rfl, exists_of_nextIs _ (!·.overrun) (by decide +kernel)⟩

/-- A START that makes the CORE BUSY, and a completion step that makes it IDLE. -/
theorem witness_PhaseChangesOnlyByStartAndCompletion :
    (let s := { idleHost (startStep State.reset.platform false) with ops := { upkO 8 0 with cmd := 3 } }
     s.phase = .idle ∧ ∃ t, step s = .next t ∧ (t.phase == .busy) = true) ∧
    dw2.phase = .busy ∧ ∃ t, step dw2 = .next t ∧ (t.phase == .idle) = true :=
  ⟨⟨rfl, exists_of_nextIs _ (·.phase == .busy) (by decide +kernel)⟩,
    rfl, exists_of_nextIs _ (·.phase == .idle) (by decide +kernel)⟩

/-- A HOST step while BUSY: a remap, which must wait, and a register write. For PlatformStaticWhileBusy too. -/
theorem witness_BusyStepKeepsOperation :
    (∃ t, step (busyHost (.remap [⟨0, 1⟩])) = .next t ∧ (t.phase == .busy) = true) ∧
    ∃ t, step (busyHost (wr State.reset.platform .src1 7)) = .next t ∧ (t.phase == .busy && t.ops.src1 == 7) = true :=
  ⟨exists_of_nextIs _ (·.phase == .busy) (by decide +kernel),
    exists_of_nextIs _ (fun t => t.phase == .busy && t.ops.src1 == 7) (by decide +kernel)⟩

/-- A HOST that polls STATUS while BUSY, a last step, and a HOST whose program has ended. -/
theorem witness_EveryOperationCompletes :
    (let s := busyHost (rd State.reset.platform .status 1)
     s.resetIn = false ∧ s.phase = .busy ∧ s.delay = 0 + 1 ∧ ∃ t, step s = .next t ∧ (t.delay == 0) = true) ∧
    (dw2.resetIn = false ∧ dw2.phase = .busy ∧ dw2.delay = 0 ∧ touchesSideEffect (snapshotSets dw2.snap) dw2 = false) ∧
    let s := { busyHost .assertReset with host := ⟨[], 0, []⟩, delay := 3 }
    s.resetIn = false ∧ s.phase = .busy ∧ HostEnded s ∧ touchesSideEffect (snapshotSets s.snap) s = false :=
  ⟨⟨rfl, rfl, rfl, exists_of_nextIs _ (·.delay == 0) (by decide +kernel)⟩, by decide +kernel, by decide +kernel⟩

/-- A busy state, with a HOST write recorded, whose next HOST step writes data. -/
def recordedState : State := { busyHost (.write 0x2004 .word 7) with hostWrote := [0x2003] }

/-- It meets the invariant and takes a step. -/
theorem witness_StepKeepsInvariant :
    Inv recordedState ∧ ∃ t, step recordedState = .next t ∧ (t.phase == .busy) = true where
  left := {
    memWf := by decide +kernel
    tempsWf := by decide +kernel
    opsReserved := by decide +kernel
    snapReserved := by decide +kernel
    busyNotDone := by decide +kernel
    busyCode := by decide +kernel
    busyLegal := by decide +kernel
    busyOpen := by decide +kernel
    idleClear := by decide +kernel
    wroteInWs := fun a h => by
      have e : a = 0x2003 := List.mem_singleton.1 h
      subst e
      decide +kernel }
  right := exists_of_nextIs _ (·.phase == .busy) (by decide +kernel)

end Sys2Proof.Tests
end

section
/-! The decoder accepts only the word its instruction encodes to, and the step of a BUSY CORE that is due to complete
(obligations O6 and O7). -/

namespace Sys2Proof

/-! The decoder and the encoder. -/

/-- Cutting a word into its fields loses no bit (30_encoding.md rules R125 to R127). -/
@[simp] theorem joinFields_splitWord (w : Word) : joinFields (splitWord w) = w := by
  apply BitVec.eq_of_getLsbD_eq
  intro i hi
  show BitVec.getLsbD (w := 25 + 1 + 1 + 1 + 4) _ i = _
  simp only [joinFields, splitWord, BitVec.getLsbD_append, BitVec.getLsbD_extractLsb', BitVec.getLsbD_ofBool]
  -- bit `i` is read from the one field whose place holds it
  grind

/-- Format MM: three free bits name the row with those bits (rule R125). -/
theorem fields_mmRow (pol w4 o2 : Bool) : (mmRow pol w4 o2).fields = ⟨1, pol, w4, o2, 0⟩ := by
  cases pol <;> cases w4 <;> cases o2 <;> rfl

/-- Format UNPACK: the legal combinations of KB and REO name the row with those bits (rule R127). -/
theorem fields_of_unpackRow {kb0 kb1 reo : Bool} {i : Instr} (h : unpackRow kb0 kb1 reo = .ok i) :
    i.fields = ⟨3, kb0, kb1, reo, 0⟩ := by
  cases kb0 <;> cases kb1 <;> cases reo <;> cases h <;> rfl

/-- Fields that name an instruction are that instruction's fields. -/
theorem fields_of_decodeFields {f : CmdFields} {i : Instr} (h : decodeFields f = .ok i) : i.fields = f := by
  obtain ⟨op, b4, b5, b6, hi⟩ := f
  unfold decodeFields at h
  split_ifs at h with hmm hhi hdw hzero hunpack hhi
  · cases h
    obtain rfl : op = 1 := hmm
    obtain rfl : hi = 0 := hhi
    exact fields_mmRow b4 b5 b6
  · cases h
    obtain rfl : op = 2 := hdw
    obtain ⟨rfl, rfl, rfl, rfl⟩ := hzero
    rfl
  · obtain rfl : op = 3 := hunpack
    obtain rfl : hi = 0 := hhi
    exact fields_of_unpackRow h

/-- Only the word of an instruction decodes to it (rule R122: no don't-care bits). -/
theorem encode_of_decodeWord {w : Word} {i : Instr} (h : decodeWord w = .ok i) : encode i = w := by
  rw [encode, fields_of_decodeFields h, joinFields_splitWord]

/-- A table word of 32 bits names an instruction when its low 32 bits decode to it. -/
theorem decodeTableWord_eq_some {w : Nat} {i : Instr} :
    decodeTableWord 32 w = some i ↔ decodeWord (BitVec.ofNat 32 (w % 2 ^ 32)) = .ok i := by
  rw [decodeTableWord, if_neg (lt_irrefl 32), decodeBytes_bytesLE]
  cases decodeWord (BitVec.ofNat 32 (w % 2 ^ 32)) <;> simp

end Sys2Proof

namespace Sys2Proof.Machine

/-! The CORE's completion step. -/

/-- A command word that names an instruction runs it (00_scope.md rule R9). -/
theorem coreStep_of_decode_ok {s : State} {i : Instr} (h : decodeWord s.snap.cmd = .ok i) : coreStep s = exec i s := by
  simp only [coreStep, fetchWord, h]

/-- A command word that names none completes with ILLEGAL_CMD (30_encoding.md rule R124). -/
theorem coreStep_of_decode_error {s : State} {e : DecodeError} (h : decodeWord s.snap.cmd = .error e) :
    coreStep s = .next (complete .illegalCmd s) := by
  simp only [coreStep, fetchWord, h]

/-- A BUSY CORE with no HOST step left before the completion, and no reset asserted, takes its own step. -/
theorem step_of_due {s : State} (hreset : s.resetIn = false) (hphase : s.phase = .busy) (hdelay : s.delay = 0) :
    step s = coreStep s := by
  simp [step, machineStep, hreset, hphase, hdelay]

@[simp] theorem selectCommand_snap (w : Word) (s : State) : (selectCommand w s).snap = { s.snap with cmd := w } := rfl

/-- A state set up to run a command word is due to complete. -/
@[simp] theorem step_selectCommand (w : Word) (s : State) : step (selectCommand w s) = coreStep (selectCommand w s) :=
  step_of_due rfl rfl rfl

/-- Settles O6: the due step is the CORE's own, which splits on whether the snapshot's word decodes. -/
theorem stepRunsDecodedCommand : Obligations.StepRunsDecodedCommand := by
  intro s hreset hphase hdelay
  rw [step_of_due hreset hphase hdelay]
  exact ⟨fun _ => coreStep_of_decode_ok, fun _ => coreStep_of_decode_error⟩

/-- Settles O7: the table word's 32 bits are put in the snapshot, decode to the instruction, and so are its encoding. -/
theorem fetchedWordRuns : Obligations.FetchedWordRuns := by
  intro s w i htable
  have hdecode := decodeTableWord_eq_some.1 htable
  unfold State.withFetchWord
  refine ⟨?_, ?_, selectCommand_mem _ s⟩
  · rw [step_selectCommand]
    exact coreStep_of_decode_ok hdecode
  · rw [selectCommand_snap, encode_of_decodeWord hdecode]

end Sys2Proof.Machine
end

section
/-! Inversion lemmas for the steps of the machine: the HOST's turn, what a START request, a register write and the CORE's own
step can leave. -/

namespace Sys2Proof.Machine

open Sys2Proof.Reference

/-! The HOST's turn. -/

/-- On the HOST's turn the machine's step is the HOST's, on the state with the delay used up. -/
theorem step_of_hostTurn {s s' : State} (h : HostTurn s s') : step s = hostStep s' := by
  obtain ⟨hreset, ⟨hphase, rfl⟩ | ⟨hphase, d, hdelay, rfl⟩⟩ := h
  · simp [step, machineStep, hreset, hphase]
  · simp [step, machineStep, hreset, hphase, hdelay]

/-- The HOST acts on the same state but for the delay. -/
theorem eq_of_hostTurn {s s' : State} (h : HostTurn s s') : ∃ d, s' = { s with delay := d } := by
  obtain ⟨-, ⟨-, rfl⟩ | ⟨-, d, -, rfl⟩⟩ := h
  · exact ⟨s'.delay, rfl⟩
  · exact ⟨d, rfl⟩

/-- A step that answers a next state is the reset, the CORE's completion step or a HOST step. -/
theorem step_next_cases {s t : State} (h : step s = .next t) :
    (s.resetIn = true ∧ t = coreReset s) ∨
    (s.phase = .busy ∧ s.delay = 0 ∧ coreStep s = .next t) ∨
    ∃ s', HostTurn s s' ∧ hostStep s' = .next t := by
  rcases step_cases s with ⟨hreset, e⟩ | ⟨-, hphase, hdelay, e⟩ | ⟨hreset, hphase, d, hdelay, e⟩ | ⟨hreset, hphase, e⟩
  · cases e.symm.trans h
    exact .inl ⟨hreset, rfl⟩
  · exact .inr (.inl ⟨hphase, hdelay, e ▸ h⟩)
  · exact .inr (.inr ⟨_, ⟨hreset, .inr ⟨hphase, d, hdelay, rfl⟩⟩, e ▸ h⟩)
  · exact .inr (.inr ⟨s, ⟨hreset, .inl ⟨hphase, rfl⟩⟩, e ▸ h⟩)

/-! START requests and register writes. -/

/-- A snapshot that START does not complete at once holds a legal word (40_control.md rule R151). -/
theorem decodes_of_immediateCode_none {o : OperandRegs} (h : immediateCode o = none) : ∃ i, decodeWord o.cmd = .ok i := by
  unfold immediateCode at h
  split at h
  · cases h
  · exact ⟨_, ‹_›⟩

/-- All that a START request can do: set OVERRUN while BUSY; while IDLE complete at once, or leave the CORE BUSY (rules R151,
R152). -/
theorem requestStart_cases (s : State) :
    (s.phase = .busy ∧ requestStart s = { s with overrun := true }) ∨
    (s.phase = .idle ∧ ∃ code, immediateCode s.ops = some code ∧ requestStart s = complete code (acceptStart s)) ∨
    (s.phase = .idle ∧ immediateCode s.ops = none ∧
      requestStart s = { acceptStart s with delay := s.schedule.headD 0, schedule := s.schedule.tail }) := by
  unfold requestStart
  cases s.phase with
  | busy => exact .inl ⟨rfl, rfl⟩
  | idle =>
    cases immediateCode s.ops with
    | some code => exact .inr (.inl ⟨rfl, code, rfl, rfl⟩)
    | none => exact .inr (.inr ⟨rfl, rfl, rfl⟩)

/-- A write to CTRL without START sets IRQ_EN alone (rule R153). -/
theorem writeCtrl_without_start {v : Word} (h : v.getLsbD 0 = false) (s : State) :
    writeCtrl v s = { s with irqEn := v.getLsbD 1 } :=
  if_neg (ne_true_of_eq_false h)

/-- A write to CTRL with START sets IRQ_EN first (rule R153). -/
theorem writeCtrl_with_start {v : Word} (h : v.getLsbD 0 = true) (s : State) :
    writeCtrl v s = requestStart { s with irqEn := v.getLsbD 1 } :=
  if_pos h

/-- A register write makes an IDLE CORE BUSY only as a START with a legal word (rule R58). -/
theorem start_of_regWrite_busy {r : RegName} {v : Word} {s : State} (hidle : s.phase = .idle)
    (hbusy : (regWrite r v s).phase = .busy) :
    r = .ctrl ∧ v.getLsbD 0 = true ∧ ∃ i, decodeWord s.ops.cmd = .ok i := by
  have not_idle : s.phase ≠ .busy := by simp [hidle]
  rcases regWrite_cases r v s with ⟨rfl, e⟩ | ⟨-, e⟩ | ⟨-, -, e⟩ <;> rw [e] at hbusy
  · cases hstart : v.getLsbD 0 with
    | false =>
      rw [writeCtrl_without_start hstart] at hbusy
      exact absurd hbusy not_idle
    | true =>
      rw [writeCtrl_with_start hstart] at hbusy
      rcases requestStart_cases { s with irqEn := v.getLsbD 1 } with ⟨hphase, -⟩ | ⟨-, code, -, e'⟩ | ⟨-, hlegal, -⟩
      · exact absurd hphase not_idle
      · rw [e', complete_phase] at hbusy
        cases hbusy
      · exact ⟨rfl, rfl, decodes_of_immediateCode_none hlegal⟩
  · exact absurd hbusy not_idle
  · exact absurd hbusy not_idle

/-- A register write clears OVERRUN only as a write of 1 to that bit of STATUS (rule R154). -/
theorem acknowledge_of_regWrite_overrun {r : RegName} {v : Word} {s : State} (hset : s.overrun = true)
    (hclear : (regWrite r v s).overrun = false) : r = .status ∧ v.getLsbD 2 = true := by
  rcases regWrite_cases r v s with ⟨-, e⟩ | ⟨hr, e⟩ | ⟨-, -, e⟩ <;> rw [e] at hclear
  · cases hstart : v.getLsbD 0 with
    | false =>
      rw [writeCtrl_without_start hstart] at hclear
      exact absurd hset (ne_true_of_eq_false hclear)
    | true =>
      obtain ⟨-, -, -, -, -, -, -, -, -, hkept⟩ := requestStart_frame { s with irqEn := v.getLsbD 1 }
      rw [writeCtrl_with_start hstart, hkept hset] at hclear
      cases hclear
  · exact ⟨hr, by simpa [hset] using hclear⟩
  · exact absurd hset (ne_true_of_eq_false hclear)

/-- A register write while BUSY reaches only the operand registers, IRQ_EN, DONE and OVERRUN, and never sets DONE (rules R59,
R152, R154, R155). -/
theorem regWrite_busy_eq {s : State} (hbusy : s.phase = .busy) (r : RegName) (v : Word) :
    ∃ o e d u, regWrite r v s = { s with ops := o, irqEn := e, done := d, overrun := u } ∧ (d = true → s.done = true) := by
  rcases regWrite_cases r v s with ⟨-, e⟩ | ⟨-, e⟩ | ⟨-, -, e⟩ <;> rw [e]
  · cases hstart : v.getLsbD 0 with
    | false => exact ⟨_, _, _, _, writeCtrl_without_start hstart s, id⟩
    | true =>
      rw [writeCtrl_with_start hstart]
      rcases requestStart_cases { s with irqEn := v.getLsbD 1 } with ⟨-, e'⟩ | ⟨hidle, -⟩ | ⟨hidle, -⟩
      · exact ⟨_, _, _, _, e', id⟩
      · cases hbusy.symm.trans hidle
      · cases hbusy.symm.trans hidle
  · exact ⟨_, _, _, _, rfl, fun h => (Bool.and_eq_true_iff.1 h).1⟩
  · exact ⟨_, _, _, _, rfl, id⟩

/-! The CORE's step. -/

/-- The CORE's step ends in a completion, before which only memory, RESULT, FAULT_ADDR, the hidden working registers and the
draw counter have changed (60_exceptions.md rule R292). -/
theorem coreStep_next {s t : State} (h : coreStep s = .next t) :
    ∃ code m r f n mac lanes p0 p1 sq, (s.mem.wf → m.wf) ∧
      t = complete code
        { s with
          mem := m, result := r, faultAddr := f, draws := n, mac := mac, lanes := lanes, packer0 := p0, packer1 := p1,
          seq := sq } := by
  rcases coreStep_cases s with ⟨i, -, e⟩ | ⟨-, -, e⟩
  · rcases exec_outcomes i s with ⟨-, -, e'⟩ | ⟨-, e'⟩ | ⟨-, -, e'⟩ | ⟨-, -, -, w, hid, hhid, -, e'⟩
    · cases (e.trans e').symm.trans h
      exact ⟨_, _, _, _, _, _, _, _, _, _, id, rfl⟩
    · cases (e.trans e').symm.trans h
    · cases (e.trans e').symm.trans h
      exact ⟨_, _, _, _, _, _, _, _, _, _, fun hwf => completeBusError_mem_wf hwf _, rfl⟩
    · cases (e.trans e').symm.trans h
      obtain ⟨mac, lanes, p0, p1, sq, e''⟩ :=
        hhid (completeOk (setsOf i s) w (operationResult (operationOf i) s.snap) s)
      exact ⟨_, _, _, _, _, mac, lanes, p0, p1, sq, fun hwf => okMemory_wf hwf _ _, e''⟩
  · cases e.symm.trans h
    exact ⟨_, _, _, _, _, _, _, _, _, _, id, rfl⟩

/-- The CORE's step answers an IDLE CORE with OVERRUN as it was. -/
theorem coreStep_next_frame {s t : State} (h : coreStep s = .next t) : t.phase = .idle ∧ t.overrun = s.overrun := by
  obtain ⟨_, _, _, _, _, _, _, _, _, _, -, rfl⟩ := coreStep_next h
  exact ⟨rfl, rfl⟩

end Sys2Proof.Machine
end

section
/-! The invariant, kept by every operation that a step is made of (obligation O57). -/

namespace Sys2Proof.Machine

open Sys2Proof.Reference

/-! Reserved fields (10_state.md rule R56). -/

theorem zero_reservedZero : OperandRegs.zero.reservedZero := by decide

/-- A field that a mask leaves out reads 0. -/
theorem extractLsb'_and_eq_zero {mask : Word} {lo n : Nat} (h : mask.extractLsb' lo n = 0) (v : Word) :
    (v &&& mask).extractLsb' lo n = 0 := by
  rw [BitVec.extractLsb'_and, h]
  exact BitVec.and_zero

/-- An operand write keeps the reserved fields 0: only four registers have one, and their masks leave it out. -/
theorem put_reservedZero {o : OperandRegs} (h : o.reservedZero) (r : RegName) (v : Word) : (o.put r v).reservedZero := by
  obtain ⟨hdwKs, hfoldN, hthrStride, hunpackOfs⟩ := h
  cases r
  case dwKs => exact ⟨extractLsb'_and_eq_zero (by decide) v, hfoldN, hthrStride, hunpackOfs⟩
  case foldN => exact ⟨hdwKs, extractLsb'_and_eq_zero (by decide) v, hthrStride, hunpackOfs⟩
  case thrStride => exact ⟨hdwKs, hfoldN, extractLsb'_and_eq_zero (by decide) v, hunpackOfs⟩
  case unpackOfs => exact ⟨hdwKs, hfoldN, hthrStride, extractLsb'_and_eq_zero (by decide) v⟩
  all_goals exact ⟨hdwKs, hfoldN, hthrStride, hunpackOfs⟩

/-! The invariant. -/

/-- While IDLE the invariant asks only for canonical forms, reserved fields 0 and an empty record. -/
theorem Inv.of_idle {s : State} (hphase : s.phase = .idle) (hmem : s.mem.wf) (htemps : cellsWf (0 : Word) s.host.temps)
    (hops : s.ops.reservedZero) (hsnap : s.snap.reservedZero)
    (hclear : s.delay = 0 ∧ s.rsWritten = false ∧ s.hostWrote = []) : Inv s where
  memWf := hmem
  tempsWf := htemps
  opsReserved := hops
  snapReserved := hsnap
  busyNotDone hbusy := by cases hphase.symm.trans hbusy
  busyCode hbusy := by cases hphase.symm.trans hbusy
  busyLegal hbusy := by cases hphase.symm.trans hbusy
  busyOpen hbusy := by cases hphase.symm.trans hbusy
  idleClear _ := hclear
  wroteInWs a ha := by
    obtain ⟨-, -, hwrote⟩ := hclear
    rw [hwrote] at ha
    cases ha

/-- Moving the HOST on keeps the invariant. -/
theorem Inv.advance {s : State} (h : Inv s) : Inv (advance s) := { h with }

/-- Using up a HOST step keeps the invariant, since the CORE is BUSY. -/
theorem Inv.hostTurn {s s' : State} (h : Inv s) (hturn : HostTurn s s') : Inv s' := by
  obtain ⟨-, ⟨-, rfl⟩ | ⟨hbusy, d, -, rfl⟩⟩ := hturn
  · exact h
  · exact { h with idleClear := fun hidle => by cases hbusy.symm.trans hidle }

theorem Inv.coreReset {s : State} (h : Inv s) : Inv (coreReset s) :=
  .of_idle rfl (coreReset_mem_wf h.memWf) h.tempsWf zero_reservedZero h.snapReserved ⟨rfl, rfl, rfl⟩

theorem Inv.acceptStart {s : State} (h : Inv s) (hlegal : immediateCode s.ops = none) : Inv (acceptStart s) where
  memWf := h.memWf
  tempsWf := h.tempsWf
  opsReserved := h.opsReserved
  snapReserved := h.opsReserved
  busyNotDone _ := rfl
  busyCode _ := rfl
  busyLegal _ := hlegal
  busyOpen _ := rfl
  idleClear := nofun
  wroteInWs := nofun

theorem Inv.requestStart {s : State} (h : Inv s) : Inv (requestStart s) := by
  rcases requestStart_cases s with ⟨-, e⟩ | ⟨-, code, -, e⟩ | ⟨-, hlegal, e⟩ <;> rw [e]
  · exact { h with }
  · exact .of_idle rfl h.memWf h.tempsWf h.opsReserved h.opsReserved ⟨rfl, rfl, rfl⟩
  · exact { h.acceptStart hlegal with idleClear := nofun }

theorem Inv.regWrite {s : State} (h : Inv s) (r : RegName) (v : Word) : Inv (regWrite r v s) := by
  have hctrl : Inv { s with irqEn := v.getLsbD 1 } := { h with }
  rcases regWrite_cases r v s with ⟨-, e⟩ | ⟨-, e⟩ | ⟨-, -, e⟩ <;> rw [e]
  · cases hstart : v.getLsbD 0 with
    | false => exact writeCtrl_without_start hstart s ▸ hctrl
    | true => exact writeCtrl_with_start hstart s ▸ hctrl.requestStart
  · exact { h with busyNotDone := fun hbusy => by rw [acknowledge_done, h.busyNotDone hbusy, Bool.false_and] }
  · exact { h with opsReserved := put_reservedZero h.opsReserved r v }

/-- A HOST store to data memory records only bytes of WS, and nothing while IDLE. -/
theorem Inv.hostStore {s : State} (h : Inv s) (a : Word) (size : AccessSize) (v : Word) : Inv (hostStore s a size v) := by
  obtain ⟨rs, wrote, e, hidle, hwrote⟩ := hostStore_cases s a size v
  rw [e]
  refine { h with memWf := Memory.writeAll_wf h.memWf _, idleClear := fun hphase => ?_, wroteInWs := fun b hb => ?_ }
  · obtain ⟨hdelay, hrs, hclear⟩ := h.idleClear hphase
    obtain ⟨rfl, rfl⟩ := hidle (by simp [State.busy, show s.phase = .idle from hphase])
    exact ⟨hdelay, hrs, hclear⟩
  · exact (hwrote b hb).elim (h.wroteInWs b) id

theorem Inv.hostStep {s t : State} (h : Inv s) (hstep : hostStep s = .next t) : Inv t := by
  rcases hostStep_cases hstep with ⟨r, v, -, rfl⟩ | ⟨a, size, v, -, rfl⟩ | ⟨-, l, rfl⟩ | ⟨g, u, d, q, rfl, hobs, htemps⟩
  · exact (h.regWrite r v).advance
  · exact (h.hostStore a size v).advance
  · exact { h with }
  · refine { h with tempsWf := htemps h.tempsWf, busyOpen := fun hbusy => ?_ }
    -- an observation needs the CORE IDLE or DONE set, neither of which a BUSY state has
    rcases hobs with rfl | ⟨-, hidle | hdone⟩
    · exact h.busyOpen hbusy
    · cases hidle.symm.trans hbusy
    · cases hdone.symm.trans (h.busyNotDone hbusy)

theorem Inv.coreStep {s t : State} (h : Inv s) (hstep : coreStep s = .next t) : Inv t := by
  obtain ⟨_, _, _, _, _, _, _, _, _, _, hwf, rfl⟩ := coreStep_next hstep
  exact .of_idle rfl (hwf h.memWf) h.tempsWf h.opsReserved h.snapReserved ⟨rfl, rfl, rfl⟩

/-- Settles O57: each of the three things a step can be keeps the invariant. -/
theorem stepKeepsInvariant : Obligations.StepKeepsInvariant := by
  intro s t h hstep
  rcases step_next_cases hstep with ⟨-, rfl⟩ | ⟨-, -, hcore⟩ | ⟨s', hturn, hhost⟩
  · exact h.coreReset
  · exact h.coreStep hcore
  · exact (h.hostTurn hturn).hostStep hhost

end Sys2Proof.Machine
end

section
/-! What a step of the machine leaves of OVERRUN, the phase and a running operation (obligations O51, O52 and O54). -/

namespace Sys2Proof.Machine

open Sys2Proof.Reference

/-! HOST steps. -/

/-- A HOST step clears OVERRUN only as a write of 1 to that bit of STATUS (10_state.md rule R33). -/
theorem status_write_of_hostStep_overrun {s t : State} (h : hostStep s = .next t) (hset : s.overrun = true)
    (hclear : t.overrun = false) :
    ∃ v : Word, nextHostStep s = some (.write (regAddr s.platform .status) .word v) ∧ v.getLsbD 2 = true := by
  have not_clear : s.overrun ≠ false := ne_false_of_eq_true hset
  rcases hostStep_cases h with ⟨r, v, hnext, rfl⟩ | ⟨a, size, v, -, rfl⟩ | ⟨-, l, rfl⟩ | ⟨g, u, d, q, rfl, -⟩
  · obtain ⟨rfl, hv⟩ := acknowledge_of_regWrite_overrun hset hclear
    exact ⟨v, hnext, hv⟩
  · obtain ⟨_, _, e, -⟩ := hostStore_cases s a size v
    rw [e] at hclear
    exact absurd hclear not_clear
  · exact absurd hclear not_clear
  · exact absurd hclear not_clear

/-- A HOST step makes an IDLE CORE BUSY only as a START with a legal word (rule R58). -/
theorem ctrl_write_of_hostStep_busy {s t : State} (h : hostStep s = .next t) (hidle : s.phase = .idle)
    (hbusy : t.phase = .busy) :
    ∃ v : Word, nextHostStep s = some (.write (regAddr s.platform .ctrl) .word v) ∧ v.getLsbD 0 = true ∧
      ∃ i, decodeWord s.ops.cmd = .ok i := by
  have not_busy : s.phase ≠ .busy := by simp [hidle]
  rcases hostStep_cases h with ⟨r, v, hnext, rfl⟩ | ⟨a, size, v, -, rfl⟩ | ⟨-, l, rfl⟩ | ⟨g, u, d, q, rfl, -⟩
  · obtain ⟨rfl, hstart, hlegal⟩ := start_of_regWrite_busy hidle hbusy
    exact ⟨v, hnext, hstart, hlegal⟩
  · obtain ⟨_, _, e, -⟩ := hostStore_cases s a size v
    rw [e] at hbusy
    exact absurd hbusy not_busy
  · exact absurd hbusy not_busy
  · exact absurd hbusy not_busy

/-- The snapshot, the completion registers and the hidden working registers are as they were, and DONE is not newly set. -/
abbrev OperationKept (s t : State) : Prop :=
  t.snap = s.snap ∧ t.result = s.result ∧ t.faultAddr = s.faultAddr ∧ t.errcode = s.errcode ∧ t.mac = s.mac ∧
  t.lanes = s.lanes ∧ t.packer0 = s.packer0 ∧ t.packer1 = s.packer1 ∧ t.seq = s.seq ∧
  (t.done = true → s.done = true)

/-- A HOST step keeps a running operation (rules R59, R155). -/
theorem hostStep_operationKept {s t : State} (h : hostStep s = .next t) (hbusy : s.phase = .busy) : OperationKept s t := by
  rcases hostStep_cases h with ⟨r, v, -, rfl⟩ | ⟨a, size, v, -, rfl⟩ | ⟨-, l, rfl⟩ | ⟨g, u, d, q, rfl, -⟩
  · obtain ⟨_, _, _, _, e, hdone⟩ := regWrite_busy_eq hbusy r v
    rw [e]
    exact ⟨rfl, rfl, rfl, rfl, rfl, rfl, rfl, rfl, rfl, hdone⟩
  · obtain ⟨_, _, e, -⟩ := hostStore_cases s a size v
    rw [e]
    exact ⟨rfl, rfl, rfl, rfl, rfl, rfl, rfl, rfl, rfl, id⟩
  · exact ⟨rfl, rfl, rfl, rfl, rfl, rfl, rfl, rfl, rfl, id⟩
  · exact ⟨rfl, rfl, rfl, rfl, rfl, rfl, rfl, rfl, rfl, id⟩

/-! Steps of the machine. -/

/-- Settles O51: a completion keeps OVERRUN, so only the reset or the HOST can have cleared it. -/
theorem overrunStaysUntilCleared : Obligations.OverrunStaysUntilCleared := by
  intro s t hstep hset hclear
  rcases step_next_cases hstep with ⟨hreset, -⟩ | ⟨-, -, hcore⟩ | ⟨s', hturn, hhost⟩
  · exact .inl hreset
  · obtain ⟨-, hkept⟩ := coreStep_next_frame hcore
    rw [hkept, hset] at hclear
    cases hclear
  · obtain ⟨d, rfl⟩ := eq_of_hostTurn hturn
    exact .inr (status_write_of_hostStep_overrun (s := { s with delay := d }) hhost hset hclear)

/-- Settles O52: the reset and the CORE's step both end IDLE, and the HOST starts an operation only by CTRL and never ends one. -/
theorem phaseChangesOnlyByStartAndCompletion : Obligations.PhaseChangesOnlyByStartAndCompletion := by
  intro s t hstep
  rcases step_next_cases hstep with ⟨hreset, rfl⟩ | ⟨hphase, hdelay, -⟩ | ⟨s', hturn, hhost⟩
  · exact ⟨fun _ => nofun, fun _ _ => .inl hreset⟩
  · exact ⟨fun hidle => absurd (hidle.symm.trans hphase) nofun, fun _ _ => .inr hdelay⟩
  · have hreset : s.resetIn = false := hturn.1
    obtain ⟨d, rfl⟩ := eq_of_hostTurn hturn
    refine ⟨fun hidle hbusy => ?_, fun hbusy hidle => ?_⟩
    · exact ⟨hreset, ctrl_write_of_hostStep_busy (s := { s with delay := d }) hhost hidle hbusy⟩
    · obtain ⟨hstill, -⟩ := hostStep_busy hhost hbusy
      cases hidle.symm.trans hstill

/-- Settles O54: a step that leaves the CORE BUSY is neither the reset nor the CORE's, and a HOST step keeps the operation. -/
theorem busyStepKeepsOperation : Obligations.BusyStepKeepsOperation := by
  intro s t hstep hbusy hstill
  rcases step_next_cases hstep with ⟨-, rfl⟩ | ⟨-, -, hcore⟩ | ⟨s', hturn, hhost⟩
  · cases hstill
  · obtain ⟨hidle, -⟩ := coreStep_next_frame hcore
    cases hidle.symm.trans hstill
  · obtain ⟨d, rfl⟩ := eq_of_hostTurn hturn
    exact hostStep_operationKept (s := { s with delay := d }) hhost hbusy

end Sys2Proof.Machine
end

section
/-! The HOST's accesses to the register window (obligation O17). -/

namespace Sys2Proof.Machine

open Sys2Proof.Reference

/-- A HOST temporary reads as last written. -/
@[simp] theorem temp_setTemp_same (h : HostAgent) (n : Nat) (v : Word) : (h.setTemp n v).temp n = v :=
  cellGet_cellSet_same h.temps n v

/-- Writing a HOST temporary keeps the others. -/
theorem temp_setTemp_other (h : HostAgent) {n k : Nat} (v : Word) (hk : k ≠ n) : (h.setTemp n v).temp k = h.temp k :=
  cellGet_cellSet_other h.temps v hk

/-- Of the register reads only that of STATUS while IDLE is an observation (20_memory.md rule R103). -/
theorem afterRead_regAddr (p : Platform) (r : RegName) (s : State) :
    afterRead (windowIndex (regAddr p r)) s
      = { s with unobserved := if r = .status ∧ s.phase = .idle then false else s.unobserved } := by
  simp only [afterRead, ofIndex_regAddr, Option.some.injEq]
  split <;> rfl

/-- A HOST write step is a write. -/
theorem hostStep_of_write {s : State} {a : Word} {size : AccessSize} {v : Word}
    (h : nextHostStep s = some (.write a size v)) : hostStep s = hostWrite a size v s := by
  simp only [hostStep, h]

/-- A HOST read step is a read. -/
theorem hostStep_of_read {s : State} {a : Word} {size : AccessSize} {n : Nat}
    (h : nextHostStep s = some (.read a size n)) : hostStep s = hostRead a size n s := by
  simp only [hostStep, h]

/-- A HOST step that writes a register's address writes that register (40_control.md rule R155). -/
theorem hostStep_write_regAddr {s : State} {r : RegName} {v : Word}
    (h : nextHostStep s = some (.write (regAddr s.platform r) .word v)) : hostStep s = .next (advance (regWrite r v s)) := by
  rw [hostStep_of_write h, hostWrite_regAddr]

/-- A HOST step that reads a register's address changes the temporary and, for STATUS while IDLE, the record of the
observation (rule R150; 20_memory.md rule R103). -/
theorem hostStep_read_regAddr {s : State} {r : RegName} {n : Nat}
    (h : nextHostStep s = some (.read (regAddr s.platform r) .word n)) :
    ∃ t, hostStep s = .next t ∧ t.host.temp n = regRead s r ∧ (∀ k, k ≠ n → t.host.temp k = s.host.temp k) ∧
      t.host.pos = s.host.pos + 1 ∧ t.host.prog = s.host.prog ∧
      t = { s with host := t.host, unobserved := if r = .status ∧ s.phase = .idle then false else s.unobserved } := by
  rw [hostStep_of_read h, hostRead_regAddr, afterRead_regAddr]
  exact ⟨_, rfl, temp_setTemp_same _ _ _, fun k hk => temp_setTemp_other _ _ hk, rfl, rfl, rfl⟩

/-- A HOST step that writes a reserved offset writes nothing (10_state.md rule R55). -/
theorem hostStep_write_reserved {s : State} {x : Nat} {v : Word} (hlo : 0x18 ≤ x) (hhi : x ≤ 0x3F)
    (h : nextHostStep s = some (.write (addr s.platform.coreBase (4 * x)) .word v)) : hostStep s = .next (advance s) := by
  rw [hostStep_of_write h, hostWrite_reserved s hlo hhi]

/-- A HOST step that reads a reserved offset reads 0 and changes the temporary alone (rule R55). -/
theorem hostStep_read_reserved {s : State} {x n : Nat} (hlo : 0x18 ≤ x) (hhi : x ≤ 0x3F)
    (h : nextHostStep s = some (.read (addr s.platform.coreBase (4 * x)) .word n)) :
    ∃ t, hostStep s = .next t ∧ t.host.temp n = 0 ∧ (∀ k, k ≠ n → t.host.temp k = s.host.temp k) ∧
      t.host.pos = s.host.pos + 1 ∧ t.host.prog = s.host.prog ∧ t = { s with host := t.host } := by
  rw [hostStep_of_read h, hostRead_reserved s hlo hhi]
  exact ⟨_, rfl, temp_setTemp_same _ _ _, fun k hk => temp_setTemp_other _ _ hk, rfl, rfl, rfl⟩

/-- Settles O17: on the HOST's turn the step is its access, which acts on the same state but for the delay. -/
theorem hostAccessReachesRegister : Obligations.HostAccessReachesRegister := by
  intro s s' hturn
  rw [step_of_hostTurn hturn]
  obtain ⟨d, rfl⟩ := eq_of_hostTurn hturn
  refine ⟨fun r => ⟨fun v hnext => ?_, fun n hnext => ?_⟩, fun x hlo hhi => ⟨fun v hnext => ?_, fun n hnext => ?_⟩⟩
  · exact hostStep_write_regAddr hnext
  · exact hostStep_read_regAddr (s := { s with delay := d }) hnext
  · exact hostStep_write_reserved hlo hhi hnext
  · exact hostStep_read_reserved (s := { s with delay := d }) hlo hhi hnext

end Sys2Proof.Machine
end

section
/-! The engine that each instruction runs: what it leaves of the hidden working registers, and what it reads of the live
registers (obligations O46 and O48). -/

namespace Sys2Proof.Machine

open Sys2Proof.Reference

/-- The engine of an operation, with the operands of the snapshot. -/
def runOperation : Operation → State → StepOutcome
  | .mm v => runMm v
  | .dw => runDw
  | .unpack v => runUnpack v

/-- An instruction runs the engine of the operation its row selects (30_encoding.md rule R129). -/
theorem exec_eq_runOperation (i : Instr) (s : State) : exec i s = runOperation (operationOf i) s := by
  cases i <;> rfl

/-- DW with mismatched channels completes in its engine's check (46_depthwise.md rule R271; log entry 16). -/
theorem runDw_of_mismatch {s : State} (h : s.snap.chIn ≠ s.snap.chOut) : runDw s = .next (complete .sizeMismatch s) :=
  if_pos h

/-- DW with matching channels is one `runOp` (rule R280). -/
theorem runDw_of_match {s : State} (h : s.snap.chIn = s.snap.chOut) :
    runDw s = runOp (dwSets s.snap) (dwRun s.mem s.snap s.lanes s.packer0).writes (operationResult .dw s.snap)
      (leaveDw s.snap (dwRun s.mem s.snap s.lanes s.packer0)) s :=
  if_neg (not_not.2 h)

/-- The next states of an operation that passed its checks: BUS_ERROR, or OK with the engine's hidden registers. -/
theorem runOp_next {c : OpSets} {w : List (Word × Byte)} {r : Word} {hid : State → State} {s t : State}
    (h : runOp c w r hid s = .next t) : t = completeBusError c s ∨ t = hid (completeOk c w r s) := by
  rcases runOp_cases c w r hid s with ⟨-, e⟩ | ⟨-, -, e⟩ | ⟨-, -, e⟩
  · cases e.symm.trans h
  · cases e.symm.trans h
    exact .inl rfl
  · cases e.symm.trans h
    exact .inr rfl

/-! Hidden working registers (10_state.md rules R60 to R63). -/

/-- MM leaves the lanes and every index but its row and column. -/
theorem runMm_hidden {v : MmVariant} {s t : State} (h : runMm v s = .next t) :
    t.lanes = s.lanes ∧ t.seq = { s.seq with row := t.seq.row, col := t.seq.col } := by
  rcases runOp_next h with rfl | rfl <;> exact ⟨rfl, rfl⟩

/-- DW leaves the MAC array, the second packer and every index but its own five. -/
theorem runDw_hidden {s t : State} (h : runDw s = .next t) :
    t.mac = s.mac ∧ t.packer1 = s.packer1 ∧
      t.seq = { s.seq with oy := t.seq.oy, ox := t.seq.ox, chan := t.seq.chan, ky := t.seq.ky, kx := t.seq.kx } := by
  by_cases hch : s.snap.chIn = s.snap.chOut
  · rw [runDw_of_match hch] at h
    rcases runOp_next h with rfl | rfl <;> exact ⟨rfl, rfl, rfl⟩
  · cases (runDw_of_mismatch hch).symm.trans h
    exact ⟨rfl, rfl, rfl⟩

/-- UNPACK leaves every accumulator and packer and every index but its element. -/
theorem runUnpack_hidden {v : UnpackVariant} {s t : State} (h : runUnpack v s = .next t) :
    t.mac = s.mac ∧ t.lanes = s.lanes ∧ t.packer0 = s.packer0 ∧ t.packer1 = s.packer1 ∧
      t.seq = { s.seq with elem := t.seq.elem } := by
  rcases runOp_next h with rfl | rfl <;> exact ⟨rfl, rfl, rfl, rfl, rfl⟩

/-- Settles O46, engine by engine. -/
theorem enginesLeaveOtherHiddenState : Obligations.EnginesLeaveOtherHiddenState := by
  intro i s t h
  rw [exec_eq_runOperation] at h
  refine ⟨fun v hmm => ?_, fun hdw => ?_, fun v hunpack => ?_⟩
  · rw [hmm] at h
    exact runMm_hidden h
  · rw [hdw] at h
    exact runDw_hidden h
  · rw [hunpack] at h
    exact runUnpack_hidden h

/-! Live registers (rule R59). -/

/-- The live registers replaced. -/
def withOps (o : OperandRegs) (s : State) : State := { s with ops := o }

/-- An operation whose engine leaves the live registers alone ends the same way whatever they hold. -/
theorem runOp_withOps {hid : State → State} (o : OperandRegs) (hhid : ∀ t, hid (withOps o t) = withOps o (hid t))
    (c : OpSets) (w : List (Word × Byte)) (r : Word) (s : State) :
    runOp c w r hid (withOps o s) = mapNext (withOps o) (runOp c w r hid s) := by
  have hside : touchesSideEffect c (withOps o s) = touchesSideEffect c s := rfl
  have hplatform : (withOps o s).platform = s.platform := rfl
  unfold runOp
  rw [hside, hplatform]
  split
  · rfl
  · split
    · exact congrArg Host.Outcome.next (hhid (completeOk c w r s))
    · rfl

/-- Every engine takes its operands from the snapshot alone. -/
theorem runOperation_withOps (p : Operation) (o : OperandRegs) (s : State) :
    runOperation p (withOps o s) = mapNext (withOps o) (runOperation p s) := by
  cases p with
  | mm v => exact runOp_withOps (hid := leaveMm s.snap _ _ _) o (fun _ => rfl) _ _ _ s
  | dw =>
    show runDw (withOps o s) = mapNext (withOps o) (runDw s)
    by_cases hch : s.snap.chIn = s.snap.chOut
    · rw [runDw_of_match hch, runDw_of_match (s := withOps o s) hch]
      exact runOp_withOps (hid := leaveDw s.snap _) o (fun _ => rfl) _ _ _ s
    · rw [runDw_of_mismatch hch, runDw_of_mismatch (s := withOps o s) hch]
      rfl
  | unpack v => exact runOp_withOps (hid := leaveUnpack s.snap) o (fun _ => rfl) _ _ _ s

/-- Settles O48: an instruction is its engine, which reads the snapshot. -/
theorem runningOperationIgnoresLiveRegisters : Obligations.RunningOperationIgnoresLiveRegisters := by
  intro i s o
  rw [exec_eq_runOperation, exec_eq_runOperation]
  exact runOperation_withOps (operationOf i) o s

end Sys2Proof.Machine
end

section
/-! The fields of the registers as numbers (obligations O16 and O59). -/

namespace Sys2Proof.Machine

/-! Status and control. -/

/-- Concatenation as a sum. -/
theorem toNat_append_eq_add {n m : Nat} (a : BitVec n) (b : BitVec m) : (a ++ b).toNat = a.toNat * 2 ^ m + b.toNat := by
  rw [BitVec.toNat_append, Nat.shiftLeft_eq, Nat.mul_comm, ← Nat.two_pow_add_eq_or_of_lt b.isLt]

/-- CTRL as a number: IRQ_EN in bit 1, START reads 0 (10_state.md rule R32). -/
theorem ctrlWord_toNat (s : State) : s.ctrlWord.toNat = 2 * s.irqEn.toNat := by
  show BitVec.toNat (w := 30 + 1 + 1) _ = _
  simp only [State.ctrlWord, toNat_append_eq_add, BitVec.toNat_ofBool, BitVec.ofNat_eq_ofNat, BitVec.toNat_ofNat]
  omega

/-- STATUS as a number: BUSY, DONE, OVERRUN and ERRCODE in their places (rule R33). -/
theorem statusWord_toNat (s : State) :
    s.statusWord.toNat = s.busy.toNat + 2 * s.done.toNat + 4 * s.overrun.toNat + 16 * s.errcode.bits.toNat := by
  show BitVec.toNat (w := 24 + 4 + 1 + 1 + 1 + 1) _ = _
  simp only [State.statusWord, toNat_append_eq_add, BitVec.toNat_ofBool, BitVec.ofNat_eq_ofNat,
    BitVec.toNat_ofNat]
  omega

/-- BUSY as a number mirrors the phase (rule R58). -/
theorem busy_toNat (s : State) : s.busy.toNat = if s.phase = .busy then 1 else 0 := by
  unfold State.busy
  cases s.phase <;> rfl

/-- Settles O16, register by register. -/
theorem registerReadFields : Obligations.RegisterReadFields := by
  intro s
  refine ⟨rfl, ctrlWord_toNat s, ?_⟩
  rw [regRead, statusWord_toNat, busy_toNat]
  cases s.errcode <;> rfl

/-! Operand fields. -/

theorem field16_eq (w : Word) (lo : Nat) : field16 w lo = w.toNat / 2 ^ lo % 2 ^ 16 := by
  rw [field16, BitVec.extractLsb'_toNat, Nat.shiftRight_eq_div_pow]

theorem field8_eq (w : Word) (lo : Nat) : field8 w lo = w.toNat / 2 ^ lo % 2 ^ 8 := by
  rw [field8, BitVec.extractLsb'_toNat, Nat.shiftRight_eq_div_pow]

/-- The low half of a register. -/
theorem field16_low (w : Word) : field16 w 0 = w.toNat % 2 ^ 16 := by
  rw [field16_eq, pow_zero, Nat.div_one]

/-- The high half of a register, with nothing above it. -/
theorem field16_high (w : Word) : field16 w 16 = w.toNat / 2 ^ 16 := by
  have := w.isLt
  rw [field16_eq]
  omega

/-- The low byte of a register. -/
theorem field8_low (w : Word) : field8 w 0 = w.toNat % 2 ^ 8 := by
  rw [field8_eq, pow_zero, Nat.div_one]

/-- The top byte of a register, with nothing above it. -/
theorem field8_high (w : Word) : field8 w 24 = w.toNat / 2 ^ 24 := by
  have := w.isLt
  rw [field8_eq]
  omega

/-- `n_zero` is the low byte of FOLD_N, signed (rule R49). -/
theorem nZero_eq (o : OperandRegs) : o.nZero = Int.bmod (o.foldN.toNat % 2 ^ 8 : Nat) (2 ^ 8) := by
  rw [OperandRegs.nZero, BitVec.toInt_eq_toNat_bmod, ← field8_low, field8]

/-- Settles O59: halves and bytes by place, FOLD_M and FOLD_N signed. -/
theorem operandFieldPlaces : Obligations.OperandFieldPlaces := fun o =>
  ⟨field16_low _, field16_high _, field16_low _, field16_high _, field16_low _, field16_high _,
    field8_low _, field8_eq _ 8, field8_low _, field8_eq _ 16,
    field8_low _, field8_eq _ 8, field8_eq _ 16, field8_high _,
    BitVec.toInt_eq_toNat_bmod _, nZero_eq o, rfl, field8_low _⟩

end Sys2Proof.Machine
end

section
/-! The HOST's accesses to data memory (obligations O18 to O21). -/

namespace Sys2Proof.Machine

open Sys2Proof.Reference

/-! Accesses to the window. -/

/-- An access that is not a 32-bit transfer to a word-aligned offset is none this spec defines (20_memory.md rule R113). -/
theorem legalWindowAccess_eq_false {a : Word} {size : AccessSize} (h : size ≠ .word ∨ a.toNat % 4 ≠ 0) :
    legalWindowAccess a size = false := by
  rw [legalWindowAccess, Bool.and_eq_false_iff, beq_eq_false_iff_ne, beq_eq_false_iff_ne]
  refine h.imp id fun hne hlow => hne ?_
  have hlow := congrArg BitVec.toNat hlow
  rwa [BitVec.extractLsb'_toNat, Nat.shiftRight_zero] at hlow

/-- A window access this spec does not define faults, in either direction (rule R113). -/
theorem hostAccess_illegal {s : State} {a : Word} {size : AccessSize}
    (htouch : touchesWindow s.platform a size.bytes = true) (hlegal : legalWindowAccess a size = false) :
    (∀ v, hostWrite a size v s = .fault .windowAccess) ∧ ∀ n, hostRead a size n s = .fault .windowAccess :=
  ⟨fun v => by simp [hostWrite, htouch, hlegal], fun n => by simp [hostRead, htouch, hlegal]⟩

/-- Settles O18: the access touches the window and is not one the window defines, so the HOST's step faults. -/
theorem unalignedWindowAccessFaults : Obligations.UnalignedWindowAccessFaults := by
  intro s s' a size hturn hin hsize
  have htouch := (touchesWindow_iff s.platform a size.bytes).2 hin
  rw [step_of_hostTurn hturn]
  obtain ⟨d, rfl⟩ := eq_of_hostTurn hturn
  obtain ⟨hwrite, hread⟩ := hostAccess_illegal (s := { s with delay := d }) htouch (legalWindowAccess_eq_false hsize)
  exact ⟨fun v hnext => (hostStep_of_write (s := { s with delay := d }) hnext).trans (hwrite v),
    fun n hnext => (hostStep_of_read (s := { s with delay := d }) hnext).trans (hread n)⟩

/-! Accesses outside the window. -/

/-- Every byte of an access lies outside the window and on memory without read side effects. -/
abbrev DataAccess (p : Platform) (a : Word) (size : AccessSize) : Prop :=
  ∀ i < size.bytes, p.inWindow (addr a i) = false ∧ covers p.sideEffect (addr a i) = false

/-- A data access neither touches the window nor memory with read side effects. -/
theorem DataAccess.outside {p : Platform} {a : Word} {size : AccessSize} (h : DataAccess p a size) :
    touchesWindow p a size.bytes = false ∧ (accessBytes a size.bytes).any (covers p.sideEffect) = false := by
  constructor
  · rw [← Bool.not_eq_true, touchesWindow_iff]
    rintro ⟨i, hi, hin⟩
    cases (h i hi).1.symm.trans hin
  · simp only [accessBytes, List.any_map, List.any_eq_false, List.mem_range, Function.comp_apply, Bool.not_eq_true]
    exact fun i hi => (h i hi).2

/-- A HOST write of data memory is a store (log entry 25: MEM_OK does not bind it). -/
theorem hostWrite_data {s : State} {a : Word} {size : AccessSize} (h : DataAccess s.platform a size) (v : Word) :
    hostWrite a size v s = .next (advance (hostStore s a size v)) := by
  obtain ⟨hwindow, heffect⟩ := h.outside
  simp [hostWrite, hwindow, heffect]

/-- A HOST read of data memory loads a temporary and counts one draw of free values. -/
theorem hostRead_data {s : State} {a : Word} {size : AccessSize} (h : DataAccess s.platform a size) (n : Nat) :
    hostRead a size n s = .next (advance (setTemp n (hostLoad s a size) { s with draws := s.draws + 1 })) := by
  obtain ⟨hwindow, heffect⟩ := h.outside
  simp [hostRead, hwindow, heffect]

/-! Stores. -/

/-- Consecutive bytes written from a base stand there, as long as they do not wrap onto themselves. -/
theorem Memory.read_writeAll_byteWrites (m : Memory) (base : Word) {l : List Byte} (hlen : l.length ≤ 2 ^ 32) {i : Nat}
    (hi : i < l.length) : (m.writeAll (byteWrites base l)).read (addr base i) = l[i] := by
  refine Memory.read_writeAll_of_mem m (fun w hw heq => ?_) ⟨_, mem_byteWrites.2 ⟨i, hi, rfl⟩, rfl⟩
  obtain ⟨j, hj, rfl⟩ := mem_byteWrites.1 hw
  obtain rfl : j = i := addr_inj (by omega) (by omega) heq
  rfl

/-- A byte at no offset of consecutive writes keeps its value. -/
theorem Memory.read_writeAll_byteWrites_other (m : Memory) {base b : Word} {l : List Byte}
    (h : ∀ i < l.length, addr base i ≠ b) : (m.writeAll (byteWrites base l)).read b = m.read b := by
  refine Memory.read_writeAll_of_not_mem m fun w hw => ?_
  obtain ⟨i, hi, rfl⟩ := mem_byteWrites.1 hw
  exact h i hi

/-- The addresses a store writes. -/
theorem exists_mem_byteWrites_bytesLE {a : Word} {n v : Nat} {P : Word → Prop} :
    (∃ w ∈ byteWrites a (bytesLE n v), P w.1) ↔ ∃ i < n, P (addr a i) := by
  constructor
  · rintro ⟨w, hw, hP⟩
    obtain ⟨i, hi, rfl⟩ := mem_byteWrites.1 hw
    exact ⟨i, by simpa using hi, hP⟩
  · rintro ⟨i, hi, hP⟩
    exact ⟨_, mem_byteWrites.2 ⟨i, by simpa using hi, rfl⟩, hP⟩

/-- The record of RS grows by the bytes of RS written while BUSY, and by nothing else (rule R103; log entry 8). -/
theorem foldl_hostStoreByte_rsWritten (l : List (Word × Byte)) (s : State) :
    (l.foldl hostStoreByte s).rsWritten = true ↔
      s.rsWritten = true ∨ s.busy = true ∧ ∃ w ∈ l, covers (snapshotSets s.snap).rs w.1 = true := by
  induction l generalizing s with
  | nil => simp
  | cons w l ih =>
    have hbusy : (hostStoreByte s w).busy = s.busy := rfl
    rw [List.foldl_cons, ih, hbusy]
    simp only [hostStoreByte_rsWritten, hostStoreByte_snap, List.exists_mem_cons_iff, Bool.or_eq_true, Bool.and_eq_true]
    tauto

/-- One HOST byte write while BUSY records its address exactly where it lies in WS. -/
theorem mem_hostStoreByte_hostWrote (s : State) (w : Word × Byte) (b : Word) :
    b ∈ (hostStoreByte s w).hostWrote ↔
      b ∈ s.hostWrote ∨ s.busy = true ∧ covers (snapshotSets s.snap).ws b = true ∧ w.1 = b := by
  simp only [hostStoreByte]
  split
  · next h =>
    simp only [Bool.and_eq_true] at h
    obtain ⟨⟨hbusy, hws⟩, -⟩ := h
    rw [List.mem_append, List.mem_singleton]
    refine or_congr_right ⟨?_, fun h => h.2.2.symm⟩
    rintro rfl
    exact ⟨hbusy, hws, rfl⟩
  · next h =>
    refine ⟨.inl, ?_⟩
    rintro (hmem | ⟨hbusy, hws, rfl⟩)
    · exact hmem
    · simpa [hbusy, hws] using h

/-- The record of WS grows by the bytes of WS written while BUSY, and by nothing else (rule R103; log entry 8). -/
theorem mem_foldl_hostStoreByte_hostWrote (l : List (Word × Byte)) (s : State) (b : Word) :
    b ∈ (l.foldl hostStoreByte s).hostWrote ↔
      b ∈ s.hostWrote ∨ s.busy = true ∧ covers (snapshotSets s.snap).ws b = true ∧ ∃ w ∈ l, w.1 = b := by
  induction l generalizing s with
  | nil => simp
  | cons w l ih =>
    have hbusy : (hostStoreByte s w).busy = s.busy := rfl
    rw [List.foldl_cons, ih, mem_hostStoreByte_hostWrote, hbusy, hostStoreByte_snap, List.exists_mem_cons_iff]
    tauto

theorem AccessSize.bytes_le (size : AccessSize) : size.bytes ≤ 4 := by cases size <;> decide

/-- What a HOST store leaves in memory, and that it leaves everything but memory and the record. -/
theorem hostStore_mem (s : State) (a : Word) (size : AccessSize) (v : Word) :
    (∀ i < size.bytes, (hostStore s a size v).mem.read (addr a i) = BitVec.ofNat 8 (v.toNat / 256 ^ i)) ∧
    ∀ b, (∀ i < size.bytes, addr a i ≠ b) → (hostStore s a size v).mem.read b = s.mem.read b := by
  obtain ⟨_, _, e, -⟩ := hostStore_cases s a size v
  have hsmall := size.bytes_le
  have hlen := bytesLE_length size.bytes v.toNat
  rw [e]
  refine ⟨fun i hi => ?_, fun b hb => ?_⟩
  · rw [Memory.read_writeAll_byteWrites s.mem a (by omega) (hlen.symm ▸ hi), bytesLE_getElem]
  · exact Memory.read_writeAll_byteWrites_other s.mem (hlen.symm ▸ hb)

/-- A HOST store touches memory and the model's record, nothing else. -/
theorem hostStore_eq (s : State) (a : Word) (size : AccessSize) (v : Word) :
    hostStore s a size v
      = { s with
          mem := (hostStore s a size v).mem
          rsWritten := (hostStore s a size v).rsWritten
          hostWrote := (hostStore s a size v).hostWrote } := by
  obtain ⟨_, _, e, -⟩ := hostStore_cases s a size v
  rw [e]

/-- While IDLE a HOST store records nothing. -/
theorem hostStore_record_idle {s : State} (h : s.phase = .idle) (a : Word) (size : AccessSize) (v : Word) :
    (hostStore s a size v).rsWritten = s.rsWritten ∧ (hostStore s a size v).hostWrote = s.hostWrote := by
  obtain ⟨_, _, e, hidle, -⟩ := hostStore_cases s a size v
  rw [e]
  exact hidle (by simp [State.busy, h])

/-- While BUSY a HOST store records whether it wrote a byte of RS, and which bytes of WS it wrote. -/
theorem hostStore_record_busy {s : State} (h : s.phase = .busy) (a : Word) (size : AccessSize) (v : Word) :
    ((hostStore s a size v).rsWritten = true ↔
      s.rsWritten = true ∨ ∃ i < size.bytes, covers (snapshotSets s.snap).rs (addr a i) = true) ∧
    ∀ b, b ∈ (hostStore s a size v).hostWrote ↔
      b ∈ s.hostWrote ∨ (covers (snapshotSets s.snap).ws b = true ∧ ∃ i < size.bytes, addr a i = b) := by
  have hbusy : s.busy = true := by simp [State.busy, h]
  refine ⟨?_, fun b => ?_⟩
  · rw [hostStore, foldl_hostStoreByte_rsWritten,
      exists_mem_byteWrites_bytesLE (P := fun x => covers (snapshotSets s.snap).rs x = true)]
    simp only [hbusy, true_and]
  · rw [hostStore, mem_foldl_hostStoreByte_hostWrote, exists_mem_byteWrites_bytesLE (P := fun x => x = b)]
    simp only [hbusy, true_and]

/-- A HOST step that writes data memory is one store. -/
theorem hostStep_write_data {s : State} {a : Word} {size : AccessSize} {v : Word}
    (h : nextHostStep s = some (.write a size v)) (hdata : DataAccess s.platform a size) :
    hostStep s = .next (advance (hostStore s a size v)) := by
  rw [hostStep_of_write h, hostWrite_data hdata]

/-- Settles O20: the step is one store, whose bytes, frame and record are those of its byte writes. -/
theorem hostDataWriteStep : Obligations.HostDataWriteStep := by
  intro s s' a size v hturn hdata hnext
  obtain ⟨d, rfl⟩ := eq_of_hostTurn hturn
  rw [step_of_hostTurn hturn]
  obtain ⟨hbytes, hframe⟩ := hostStore_mem { s with delay := d } a size v
  refine ⟨_, hostStep_write_data (s := { s with delay := d }) hnext hdata, hbytes, hframe, ?_, fun hidle => ?_,
    fun hbusy => ?_⟩
  · exact congrArg advance (hostStore_eq { s with delay := d } a size v)
  · exact hostStore_record_idle (s := { s with delay := d }) hidle a size v
  · exact hostStore_record_busy (s := { s with delay := d }) hbusy a size v

/-! Loads. -/

/-- A byte that is not in WS of an open contract reads as memory holds it (rule R103). -/
theorem hostLoadByte_exact {s : State} {a : Word}
    (h : (s.phase = .idle ∧ s.unobserved = false) ∨ covers (snapshotSets s.snap).ws a = false) :
    hostLoadByte s a = s.mem.read a := by
  rcases h with ⟨hphase, hobserved⟩ | hws
  · simp [hostLoadByte, contractOpen, State.busy, hphase, hobserved]
  · simp [hostLoadByte, hws]

/-- The bytes of a load, the least significant first, with nothing above them (rules R84, R88; log entry 26). -/
theorem hostLoad_bytes (s : State) (a : Word) (size : AccessSize) :
    (∀ i < size.bytes, (hostLoad s a size).toNat / 256 ^ i % 256 = (hostLoadByte s (addr a i)).toNat) ∧
    (hostLoad s a size).toNat < 256 ^ size.bytes := by
  have byte_lt (i : Nat) : (hostLoadByte s (addr a i)).toNat < 2 ^ 8 := BitVec.isLt _
  have h0 := byte_lt 0
  have h1 := byte_lt 1
  have h2 := byte_lt 2
  have h3 := byte_lt 3
  cases size with
  | byte =>
    have e : (hostLoad s a .byte).toNat = (hostLoadByte s (addr a 0)).toNat := by
      rw [addr_zero, hostLoad, BitVec.toNat_setWidth]
      omega
    refine ⟨fun i hi => ?_, by rw [e]; exact h0⟩
    obtain rfl : i = 0 := Nat.lt_one_iff.1 hi
    omega
  | half =>
    have e : (hostLoad s a .half).toNat
        = (hostLoadByte s (addr a 1)).toNat * 256 + (hostLoadByte s (addr a 0)).toNat := by
      rw [addr_zero, hostLoad, BitVec.toNat_setWidth, append_byte_toNat]
      omega
    refine ⟨fun i hi => ?_, by rw [e]; simp only [AccessSize.bytes]; omega⟩
    match i, hi with
    | 0, _ => omega
    | 1, _ => omega
  | word =>
    have e : (hostLoad s a .word).toNat
        = (((hostLoadByte s (addr a 3)).toNat * 256 + (hostLoadByte s (addr a 2)).toNat) * 256
            + (hostLoadByte s (addr a 1)).toNat) * 256 + (hostLoadByte s (addr a 0)).toNat := by
      rw [addr_zero, hostLoad]
      show BitVec.toNat (w := 8 + 8 + 8 + 8) _ = _
      rw [append_byte_toNat, append_byte_toNat, append_byte_toNat]
    refine ⟨fun i hi => ?_, by rw [e]; simp only [AccessSize.bytes]; omega⟩
    match i, hi with
    | 0, _ => omega
    | 1, _ => omega
    | 2, _ => omega
    | 3, _ => omega

/-- A HOST step that reads data memory writes the temporary with the load and counts one draw. -/
theorem hostStep_read_data {s : State} {a : Word} {size : AccessSize} {n : Nat}
    (h : nextHostStep s = some (.read a size n)) (hdata : DataAccess s.platform a size) :
    hostStep s = .next (advance (setTemp n (hostLoad s a size) { s with draws := s.draws + 1 })) := by
  rw [hostStep_of_read h, hostRead_data hdata]

/-- Settles O21: the step is one load, exact byte by byte outside WS of an open contract. -/
theorem hostDataReadStep : Obligations.HostDataReadStep := by
  intro s s' a size n hturn hdata hnext
  rw [step_of_hostTurn hturn]
  obtain ⟨d, rfl⟩ := eq_of_hostTurn hturn
  obtain ⟨hbytes, hlt⟩ := hostLoad_bytes { s with delay := d } a size
  have htemp : ∀ v : Word, (s.host.setTemp n v).temp n = v := temp_setTemp_same s.host n
  refine ⟨_, hostStep_read_data (s := { s with delay := d }) hnext hdata, fun i hi hexact => ?_, ?_, ?_, rfl, rfl, rfl⟩
  · have hbyte := (hbytes i hi).trans (congrArg BitVec.toNat (hostLoadByte_exact (s := { s with delay := d }) hexact))
    exact (congrArg (fun v : Word => v.toNat / 256 ^ i % 256) (htemp _)).trans hbyte
  · exact (congrArg BitVec.toNat (htemp _)).trans_lt hlt
  · exact fun k hk => temp_setTemp_other s.host _ hk

/-! Two steps. -/

/-- A number below `256 ^ n` with the `n` low bytes of another is the other cut to its low bytes. -/
theorem eq_mod_of_bytes_eq {n x v : Nat} (hlt : x < 256 ^ n) (h : ∀ i < n, x / 256 ^ i % 256 = v / 256 ^ i % 256) :
    x = v % 256 ^ n := by
  induction n generalizing x v with
  | zero => omega
  | succ n ih =>
    have hlow : x % 256 = v % 256 := by simpa using h 0 (by omega)
    have hhigh : x / 256 = v / 256 % 256 ^ n := by
      refine ih (Nat.div_lt_of_lt_mul (by rwa [pow_succ'] at hlt)) fun i hi => ?_
      have hi' := h (i + 1) (by omega)
      rwa [pow_succ', ← Nat.div_div_eq_div_mul, ← Nat.div_div_eq_div_mul] at hi'
    rw [pow_succ', Nat.mod_mul, ← hlow, ← hhigh, Nat.mod_add_div]

/-- A state on the HOST's turn by being IDLE. -/
theorem hostTurn_of_idle {s : State} (hreset : s.resetIn = false) (hidle : s.phase = .idle) : HostTurn s s :=
  ⟨hreset, .inl ⟨hidle, rfl⟩⟩

/-- Two steps that answer next states are a run. -/
theorem runsTo_two {s t u : State} (h : step s = .next t) (h' : step t = .next u) : RunsTo 2 s u := by
  simp [RunsTo, Host.Core.run, h, h']

/-- Settles O19: the store of O20, then the load of O21 on the state it leaves. -/
theorem hostDataReadAfterWrite : Obligations.HostDataReadAfterWrite := by
  intro s a size v n hreset hidle hobserved hdata hwrite hread
  obtain ⟨t, hstep, hbytes, hframe, ht, -⟩ :=
    hostDataWriteStep s s a size v (hostTurn_of_idle hreset hidle) hdata hwrite
  have hkept : t.resetIn = false ∧ t.phase = .idle ∧ t.unobserved = false ∧ t.platform = s.platform ∧
      nextHostStep t = some (.read a size n) := by
    rw [ht]
    exact ⟨hreset, hidle, hobserved, rfl, hread⟩
  obtain ⟨hreset', hidle', hobserved', hplatform, hread'⟩ := hkept
  obtain ⟨u, hstep', hload, hlt, -, -, -, hu⟩ :=
    hostDataReadStep t t a size n (hostTurn_of_idle hreset' hidle') (hplatform ▸ hdata) hread'
  have hmem : u.mem = t.mem := by rw [hu]
  refine ⟨u, runsTo_two hstep hstep', ?_, fun b hb => (congrArg (·.read b) hmem).trans (hframe b hb)⟩
  rw [pow_mul]
  refine eq_mod_of_bytes_eq hlt fun i hi => ?_
  rw [hload i hi (.inl ⟨hidle', hobserved'⟩), hbytes i hi, BitVec.toNat_ofNat]

end Sys2Proof.Machine
end

section
/-! What a completed operation leaves, with its writes named (obligations O42 to O45), and the platform's parameters
over a step (obligation O53). -/

namespace Sys2Proof.Machine

open Sys2Proof.Reference

/-! The engine's one shared operation, with its parts named. -/

/-- The byte writes of an operation, in the order its engine makes them. -/
def operationWrites : Operation → State → List (Word × Byte)
  | .mm v, s =>
    let e := mmRows v s.mem s.snap s.mac
    byteWrites (mmRegion v s.snap 0) (packRegion v.width.bits e.lv0 s.packer0).2
      ++ byteWrites (mmRegion v s.snap 1) (packRegion v.width.bits e.lv1 s.packer1).2
  | .dw, s => (dwRun s.mem s.snap s.lanes s.packer0).writes
  | .unpack v, s => unpackWrites v s.mem s.snap

/-- An operation computes its writes without the record of the HOST's (log entry 8). -/
theorem operationWrites_ignores_record (p : Operation) (s : State) (l : List Word) :
    operationWrites p { s with hostWrote := l } = operationWrites p s := by
  cases p <;> rfl

/-- What an operation leaves in the hidden working registers. -/
def leaveOperation : Operation → State → State → State
  | .mm v, s =>
    let e := mmRows v s.mem s.snap s.mac
    leaveMm s.snap e.mac (packRegion v.width.bits e.lv0 s.packer0).1 (packRegion v.width.bits e.lv1 s.packer1).1
  | .dw, s => leaveDw s.snap (dwRun s.mem s.snap s.lanes s.packer0)
  | .unpack _, s => leaveUnpack s.snap

theorem leaveOperation_hiddenOnly (p : Operation) (s : State) : HiddenOnly (leaveOperation p s) := by
  cases p with
  | mm v => exact leaveMm_hiddenOnly _ _ _ _
  | dw => exact leaveDw_hiddenOnly _ _
  | unpack v => exact leaveUnpack_hiddenOnly _

/-- Only DW.THR.O2 selects the depthwise engine (30_encoding.md rule R129). -/
theorem operationOf_eq_dw {i : Instr} (h : operationOf i = .dw) : i = .dwThrO2 := by
  cases i
  case dwThrO2 => rfl
  all_goals cases h

/-- An instruction past its engine's channel check is one `runOp` over its sets, writes and result address. -/
theorem exec_eq_runOp {i : Instr} {s : State} (hch : i = .dwThrO2 → s.snap.chIn = s.snap.chOut) :
    exec i s = runOp (setsOf i s) (operationWrites (operationOf i) s) (operationResult (operationOf i) s.snap)
      (leaveOperation (operationOf i) s) s := by
  rw [exec_eq_runOperation, setsOf]
  cases hp : operationOf i with
  | mm v => rfl
  | dw => exact runDw_of_match (hch (operationOf_eq_dw hp))
  | unpack v => rfl

/-! What a completion leaves. -/

/-- Hidden working registers are no part of what completion leaves to be seen. -/
theorem HiddenOnly.outputs {f : State → State} (h : HiddenOnly f) (t : State) :
    (f t).mem = t.mem ∧ (f t).result = t.result ∧ (f t).faultAddr = t.faultAddr ∧ (f t).errcode = t.errcode := by
  obtain ⟨_, _, _, _, _, e⟩ := h t
  rw [e]
  exact ⟨rfl, rfl, rfl, rfl⟩

theorem HiddenOnly.completedFrame {f : State → State} (h : HiddenOnly f) {s t : State} (hframe : CompletedFrame s t) :
    CompletedFrame s (f t) := by
  obtain ⟨_, _, _, _, _, e⟩ := h t
  rw [e]
  exact hframe

/-- Every completion keeps the frame: its updates are of memory, RESULT, FAULT_ADDR and the draw counter (rule R292). -/
theorem completedFrame_complete (code : CompletionCode) (s : State) (m : Memory) (r f : Word) (n : Nat) :
    CompletedFrame s (complete code { s with mem := m, result := r, faultAddr := f, draws := n }) :=
  ⟨rfl, rfl, rfl, rfl, rfl, rfl, rfl, rfl, rfl, rfl, rfl⟩

/-- Settles O45, outcome by outcome: a mismatch writes nothing, BUS_ERROR and OK only inside WS. -/
theorem noCommandWritesOutsideWriteSet : Obligations.NoCommandWritesOutsideWriteSet := by
  intro i s t h
  rcases exec_outcomes i s with ⟨-, -, e⟩ | ⟨-, e⟩ | ⟨-, -, e⟩ | ⟨-, -, -, w, hid, hhid, hw, e⟩
  · cases e.symm.trans h
    exact ⟨completedFrame_complete _ s _ _ _ _, fun _ _ => rfl⟩
  · cases e.symm.trans h
  · cases e.symm.trans h
    exact ⟨completedFrame_complete _ s _ _ _ _, fun a ha => read_completeBusError _ s a (.inl ha)⟩
  · cases e.symm.trans h
    obtain ⟨hmem, -⟩ := hhid.outputs (completeOk (setsOf i s) w (operationResult (operationOf i) s.snap) s)
    refine ⟨hhid.completedFrame (completedFrame_complete _ s _ _ _ _), fun a ha => ?_⟩
    rw [hmem, completeOk_mem, read_okMemory_of_not_ws hw ha]

/-- With no byte of its sets refused or with read side effects an operation completes with OK (rule R292). -/
theorem exec_ok {i : Instr} {s : State} (hch : i = .dwThrO2 → s.snap.chIn = s.snap.chOut)
    (hside : touchesSideEffect (setsOf i s) s = false) (hrefused : refusedBytes s.platform (setsOf i s) = []) :
    ∃ t, exec i s = .next t ∧ t.mem = okMemory (setsOf i s) (operationWrites (operationOf i) s) s ∧
      t.result = operationResult (operationOf i) s.snap ∧ t.faultAddr = s.faultAddr ∧ t.errcode = .ok := by
  refine ⟨_, ?_, (leaveOperation_hiddenOnly (operationOf i) s).outputs (completeOk (setsOf i s)
    (operationWrites (operationOf i) s) (operationResult (operationOf i) s.snap) s)⟩
  rw [exec_eq_runOp hch]
  simp only [runOp, hside, hrefused, if_true, Bool.false_eq_true, if_false]

/-- Settles O42: OK does not ask for an intact RS, and its frame is that of O45. -/
theorem freeWriteSetStillCompletes : Obligations.FreeWriteSetStillCompletes := by
  intro i s hch hside hrefused _
  obtain ⟨t, hexec, -, hresult, hfault, hcode⟩ := exec_ok hch hside hrefused
  obtain ⟨hframe, hother⟩ := noCommandWritesOutsideWriteSet i s t hexec
  exact ⟨t, hexec, hframe, hcode, hfault, hresult, hother⟩

/-- Memory after an OK with WS determined: the operation's writes, then the HOST's or the CORE's value of each byte that the
HOST wrote (rule R103). -/
theorem okMemory_of_not_free {c : OpSets} {s : State} (hoverlap : c.overlap = false) (hrs : s.rsWritten = false)
    (w : List (Word × Byte)) : okMemory c w s = Memory.settle s.draws s.hostWrote s.mem (s.mem.writeAll w) := by
  simp [okMemory, writesFree, hoverlap, hrs]

/-- Settles O43: the two runs make the same writes, and only the recorded bytes are then settled. -/
theorem hostWrittenByteHoldsEitherValue : Obligations.HostWrittenByteHoldsEitherValue := by
  intro i s hclean hch
  have ⟨hside, hrefused, hoverlap, hrs, _⟩ := hclean
  obtain ⟨t, hexec, ht, -⟩ := exec_ok (s := s) hch hside hrefused
  obtain ⟨u, hexec', hu, -⟩ := exec_ok (s := { s with hostWrote := [] }) hch hside hrefused
  rw [okMemory_clean hclean, operationWrites_ignores_record] at hu
  rw [okMemory_of_not_free (s := s) hoverlap hrs] at ht
  refine ⟨t, u, hexec, hexec', fun a => ?_⟩
  rw [ht, hu, Memory.read_settle]
  refine ⟨fun _ => ?_, fun ha => if_neg fun h => ha h.1⟩
  split
  · exact .inl rfl
  · exact .inr rfl

/-- Settles O44: `runOp` looks for read side effects first, and an operation past its checks is one `runOp`. -/
theorem sideEffectBufferRefused : Obligations.SideEffectBufferRefused := by
  rintro i s hch ⟨a, hcover, heffect⟩
  have hside : touchesSideEffect (setsOf i s) s = true := anyByte_iff.2 ⟨a, covers_iff.1 hcover, heffect⟩
  rw [exec_eq_runOp hch, runOp, if_pos hside]

/-! The platform (20_memory.md rule R82). -/

/-- A HOST step changes at most MEM_OK, and only while the CORE is IDLE (log entry 18). -/
theorem hostStep_platform {s t : State} (h : hostStep s = .next t) :
    (s.phase = .busy → t.platform = s.platform) ∧ ∃ l, t.platform = { s.platform with refused := l } := by
  rcases hostStep_cases h with ⟨r, v, -, rfl⟩ | ⟨a, size, v, -, rfl⟩ | ⟨hidle, l, rfl⟩ | ⟨g, u, d, q, rfl, -⟩
  · obtain ⟨-, hplatform, -⟩ := regWrite_agents r v s
    exact ⟨fun _ => hplatform, _, hplatform⟩
  · obtain ⟨_, _, e, -⟩ := hostStore_cases s a size v
    rw [e]
    exact ⟨fun _ => rfl, _, rfl⟩
  · exact ⟨fun hbusy => absurd (hidle.symm.trans hbusy) nofun, l, rfl⟩
  · exact ⟨fun _ => rfl, _, rfl⟩

/-- A step of the machine does the same: the reset and the CORE's step keep the platform. -/
theorem step_platform {s t : State} (h : step s = .next t) :
    (s.phase = .busy → t.platform = s.platform) ∧ ∃ l, t.platform = { s.platform with refused := l } := by
  rcases step_next_cases h with ⟨-, rfl⟩ | ⟨-, -, hcore⟩ | ⟨s', hturn, hhost⟩
  · exact ⟨fun _ => rfl, _, rfl⟩
  · obtain ⟨_, _, _, _, _, _, _, _, _, _, -, rfl⟩ := coreStep_next hcore
    exact ⟨fun _ => rfl, _, rfl⟩
  · obtain ⟨d, rfl⟩ := eq_of_hostTurn hturn
    exact hostStep_platform (s := { s with delay := d }) hhost

/-- Settles O53: MEM_OK is the one parameter a step can change. -/
theorem platformStaticWhileBusy : Obligations.PlatformStaticWhileBusy := by
  intro s t h
  obtain ⟨hbusy, l, hplatform⟩ := step_platform h
  rw [hplatform]
  exact ⟨fun hphase => hplatform ▸ hbusy hphase, rfl, rfl, rfl⟩

end Sys2Proof.Machine
end

section
/-! Two memories that agree on RS: the engines compute the same from both (for obligation O50). -/

namespace Sys2Proof.Machine

open Sys2Proof.Reference

/-! Agreement on byte ranges. -/

/-- Two memories hold the same bytes on the ranges of a list. -/
def AgreeOn (l : List ByteRange) (m m' : Memory) : Prop := ∀ a, covers l a = true → m.read a = m'.read a

variable {l : List ByteRange} {m m' : Memory}

/-- A byte of a listed range reads the same. -/
theorem AgreeOn.read (h : AgreeOn l m m') {base : Word} {n i : Nat} (hr : ⟨base, n⟩ ∈ l) (hi : i < n) :
    m.read (addr base i) = m'.read (addr base i) :=
  h _ (covers_of_mem hr (ByteRange.contains_addr hi))

/-- Two bytes of a listed range load the same. -/
theorem AgreeOn.loadHalf (h : AgreeOn l m m') {base : Word} {n i : Nat} (hr : ⟨base, n⟩ ∈ l) (hi : i + 1 < n) :
    m.loadHalf (addr base i) = m'.loadHalf (addr base i) := by
  simp only [Memory.loadHalf, addr_addr]
  rw [h.read hr hi, h.read hr (Nat.lt_of_succ_lt hi)]

/-- Four bytes of a listed range load the same. -/
theorem AgreeOn.loadWord (h : AgreeOn l m m') {base : Word} {n i : Nat} (hr : ⟨base, n⟩ ∈ l) (hi : i + 3 < n) :
    m.loadWord (addr base i) = m'.loadWord (addr base i) := by
  simp only [Memory.loadWord, addr_addr]
  rw [h.read hr hi, h.read (i := i + 2) hr (by omega), h.read (i := i + 1) hr (by omega), h.read (i := i) hr (by omega)]

/-- The bias table of `n` words reads the same (20_memory.md rule R94). -/
theorem AgreeOn.bias (h : AgreeOn l m m') {o : OperandRegs} {n r : Nat} (hr : ⟨o.bias, 4 * n⟩ ∈ l) (hlt : r < n) :
    bias m o r = bias m' o r :=
  h.loadWord hr (by omega)

/-- The threshold slice of a listed channel reads the same (rule R95). -/
theorem AgreeOn.thresholds (h : AgreeOn l m m') {o : OperandRegs} {k n ch : Nat}
    (hr : ∀ r ∈ thresholdSlices o k n, r ∈ l) (hlt : ch < n) : thresholds m o k ch = thresholds m' o k ch := by
  refine List.map_congr_left fun i hi => ?_
  have hslice : ByteRange.mk (addr o.thr (2 * (ch * o.thrStep k))) (2 * (2 ^ k - 1)) ∈ l :=
    hr _ (List.mem_map.2 ⟨ch, List.mem_range.2 hlt, rfl⟩)
  have hi := List.mem_range.1 hi
  have hload := h.loadHalf (i := 2 * i) hslice (by omega)
  rwa [addr_addr, ← Nat.mul_add] at hload

/-- So the level is the same (43_requant.md rule R218). -/
theorem AgreeOn.thresh (h : AgreeOn l m m') {o : OperandRegs} {k n ch : Nat}
    (hr : ∀ r ∈ thresholdSlices o k n, r ∈ l) (hlt : ch < n) (s : Word) : thresh m o s ch k = thresh m' o s ch k :=
  congrArg (firstAbove (trunc16 s)) (h.thresholds hr hlt)

/-! MM. -/

/-- Two memories agree on every element that MM uses (45_matmul.md rule R252). -/
structure MmAgree (v : MmVariant) (m m' : Memory) (o : OperandRegs) : Prop where
  weight : ∀ r < o.rows, ∀ c < o.cols, weight v.wb m o r c = weight v.wb m' o r c
  activation : ∀ j < 2, ∀ c < o.cols, activation m o j c = activation m' o j c
  bias : ∀ r < o.rows, bias m o r = bias m' o r
  requantize : ∀ r < o.rows, ∀ acc, requantize v m o acc r = requantize v m' o acc r

/-- A row-major index stays below the matrix's size. -/
theorem row_index_lt {r c n k : Nat} (hr : r < n) (hc : c < k) : r * k + c < n * k := by
  have := Nat.mul_le_mul_right k (Nat.succ_le_of_lt hr)
  rw [Nat.succ_mul] at this
  omega

/-- A weight is a matter of its byte (20_memory.md rules R90, R91). -/
theorem weight_congr {wb : WeightWidth} {o : OperandRegs} {r c : Nat}
    (h : m.read (weightAddr wb o r c) = m'.read (weightAddr wb o r c)) : weight wb m o r c = weight wb m' o r c := by
  cases wb <;> simp only [weight, h]

/-- RS of MM holds every byte of its elements. -/
theorem MmAgree.of_agreeOn {v : MmVariant} {o : OperandRegs} (hrows : o.rows ≠ 0) (h : AgreeOn (mmSets v o).rs m m') :
    MmAgree v m m' o := by
  rw [mmSets, if_neg hrows] at h
  constructor
  · intro r hr c hc
    refine weight_congr ?_
    cases hwb : v.wb with
    | w8 => exact h.read (n := mmWeightLen v o) (by simp) (by rw [mmWeightLen, hwb]; exact row_index_lt hr hc)
    | w4 =>
      have hhalf : c / 2 < cdiv o.cols 2 := (cdiv_le_iff (by decide)).2 (by omega)
      exact h.read (n := mmWeightLen v o) (by simp) (by rw [mmWeightLen, hwb]; exact row_index_lt hr hhalf)
  · intro j hj c hc
    refine h.loadHalf (n := 4 * o.cols) (by simp) ?_
    have := row_index_lt hj hc
    omega
  · intro r hr
    exact h.bias (n := o.rows) (by simp) hr
  · intro r hr acc
    cases hpol : v.pol with
    | fold => simp only [Machine.requantize, hpol]
    | thr =>
      simp only [Machine.requantize, hpol]
      refine h.thresh (n := o.rows) (fun x hx => ?_) hr acc
      simp only [hpol]
      exact List.mem_append_right _ hx

section
variable {v : MmVariant} {o : OperandRegs}

/-- Updates by functions that agree on the four accumulators agree. -/
theorem MacArray.update_congr {f g : Nat → Nat → Word → Word} (h : ∀ i, ∀ j < 2, ∀ a, f i j a = g i j a) :
    MacArray.update f = MacArray.update g := by
  funext a
  simp only [MacArray.update, h _ 0 (by decide), h _ 1 (by decide)]

theorem MmAgree.zeroOffset (h : MmAgree v m m' o) {j : Nat} (hj : j < 2) : zeroOffset m o j = zeroOffset m' o j := by
  have hsum : columnSum m o j = columnSum m' o j :=
    List.foldl_ext _ _ _ fun s c hc => by rw [h.activation j hj c (List.mem_range.1 hc)]
  rw [Machine.zeroOffset, Machine.zeroOffset, hsum]

theorem MmAgree.macInit (h : MmAgree v m m' o) (z0 z1 : Word) (r : Nat) : macInit m o z0 z1 r = macInit m' o z0 z1 r := by
  refine MacArray.update_congr fun i j _ a => ?_
  by_cases hrow : r + i < o.rows
  · rw [h.bias _ hrow]
  · simp [rowActive, hrow]

theorem MmAgree.weightLane (h : MmAgree v m m' o) {r c : Nat} (hr : r < o.rows) (hc : c < o.cols) :
    weightLane v.wb m o r c = weightLane v.wb m' o r c := by
  rw [Machine.weightLane, Machine.weightLane, h.weight r hr c hc]

theorem MmAgree.macStep (h : MmAgree v m m' o) (r : Nat) {t : Nat} (ht : t < o.cols / 2) :
    macStep v.wb m o r t = macStep v.wb m' o r t := by
  have hlo : 2 * t < o.cols := by omega
  have hhi : 2 * t + 1 < o.cols := by omega
  refine MacArray.update_congr fun i j hj a => ?_
  by_cases hrow : r + i < o.rows
  · rw [h.weightLane hrow hlo, h.weightLane hrow hhi, h.activation j hj _ hlo, h.activation j hj _ hhi]
  · simp [rowActive, hrow]

theorem MmAgree.macTail (h : MmAgree v m m' o) (r : Nat) : macTail v.wb m o r = macTail v.wb m' o r := by
  unfold Machine.macTail
  split
  · next hodd =>
    have hlast : o.cols - 1 < o.cols := by omega
    refine MacArray.update_congr fun i j hj a => ?_
    by_cases hrow : r + i < o.rows
    · rw [h.weightLane hrow hlast, h.activation j hj _ hlast]
    · simp [rowActive, hrow]
  · rfl

theorem MmAgree.macPair (h : MmAgree v m m' o) (z0 z1 : Word) (r : Nat) (a : MacArray) :
    macPair v.wb m o z0 z1 r a = macPair v.wb m' o z0 z1 r a := by
  rw [Machine.macPair, Machine.macPair, h.macInit, h.macTail]
  exact congrArg _ (List.foldl_ext _ _ _ fun b t ht => by rw [h.macStep r (List.mem_range.1 ht)])

theorem MmAgree.mmPair (h : MmAgree v m m' o) (z0 z1 : Word) (e : MmRun) {r : Nat} (hr : r < o.rows) :
    mmPair v m o z0 z1 e r = mmPair v m' o z0 z1 e r := by
  rw [Machine.mmPair, Machine.mmPair, h.macPair]
  by_cases hrow : r + 1 < o.rows
  · simp only [h.requantize r hr, h.requantize (r + 1) hrow]
  · simp [h.requantize r hr, rowActive, hrow]

/-- MM computes the same levels from memories that agree on its elements (rule R100). -/
theorem MmAgree.mmRows (h : MmAgree v m m' o) (a : MacArray) : mmRows v m o a = mmRows v m' o a := by
  rw [Machine.mmRows, Machine.mmRows, h.zeroOffset (j := 0) (by decide), h.zeroOffset (j := 1) (by decide)]
  refine List.foldl_ext _ _ _ fun e i hi => h.mmPair _ _ e ?_
  have := (cdiv_le_iff (by decide)).1 (List.mem_range.1 hi)
  omega

end

/-! DW. -/

/-- Two memories agree on every element that DW uses (46_depthwise.md rule R278). -/
structure DwAgree (m m' : Memory) (o : OperandRegs) : Prop where
  staged : ∀ p ∈ dwPixels o, ∀ cell ∈ dwCells o, ∀ c < o.chIn, stagedByte m o p cell c = stagedByte m' o p cell c
  weight : ∀ cell ∈ dwCells o, ∀ c < o.chIn, dwWeight m o cell.1 cell.2 c = dwWeight m' o cell.1 cell.2 c
  bias : ∀ c < o.chIn, bias m o c = bias m' o c
  thresh : ∀ c < o.chIn, ∀ s, thresh m o s c 2 = thresh m' o s c 2

/-- The channels of an input byte follow each other (20_memory.md rule R96). -/
theorem inputAddr_eq (o : OperandRegs) (y x c : Nat) : inputAddr o y x c = addr (inputAddr o y x 0) c := by
  rw [inputAddr, inputAddr, addr_addr, Nat.add_zero]

/-- RS of DW holds every byte of its elements, once its checks have passed. -/
theorem DwAgree.of_agreeOn {o : OperandRegs} (hs : ¬ (o.chIn ≠ o.chOut ∨ o.outDim = 0 ∨ o.chIn = 0))
    (h : AgreeOn (dwSets o).rs m m') : DwAgree m m' o := by
  rw [dwSets, if_neg hs] at h
  constructor
  · intro p hp cell hcell c hc
    unfold stagedByte
    split
    · next hin =>
      have hrange : ByteRange.mk (inputAddr o (dwY o p.1 cell.1).toNat (dwX o p.2 cell.2).toNat 0) o.chIn
          ∈ dwInputRanges o := by
        simp only [dwInputRanges, List.mem_flatMap, List.mem_map, List.mem_filter]
        exact ⟨p, hp, cell, ⟨hcell, hin⟩, rfl⟩
      rw [input, input, inputAddr_eq]
      exact h.read (by simp [hrange]) hc
    · rfl
  · intro cell hcell c hc
    obtain ⟨hy, hx⟩ := mem_dwCells.1 hcell
    exact h.read (n := o.kdim * o.kdim * o.chIn) (by simp) (square_index_lt hy hx hc)
  · intro c hc
    exact h.bias (n := o.chIn) (by simp) hc
  · intro c hc s
    exact h.thresh (n := o.chIn) (fun r hr => by simp [hr]) hc s

section
variable {o : OperandRegs}

/-- Updates by functions that agree lane by lane agree. -/
theorem LaneAccs.update_congr {f g : Nat → Word → Word} (h : ∀ l a, f l a = g l a) :
    LaneAccs.update f = LaneAccs.update g := by
  rw [show f = g from funext fun l => funext (h l)]

theorem DwAgree.laneCell (h : DwAgree m m' o) {p cell : Nat × Nat} (hp : p ∈ dwPixels o) (hcell : cell ∈ dwCells o)
    (g : Nat) (a : LaneAccs) : laneCell m o p g a cell = laneCell m' o p g a cell := by
  unfold Machine.laneCell
  split
  · refine congrFun (LaneAccs.update_congr fun l b => ?_) a
    split
    · next hl => rw [h.staged p hp cell hcell _ hl, h.weight cell hcell _ hl]
    · rfl
  · rfl

theorem DwAgree.laneGroup (h : DwAgree m m' o) {p : Nat × Nat} (hp : p ∈ dwPixels o) (g : Nat) (a : LaneAccs) :
    laneGroup m o p g a = laneGroup m' o p g a := by
  have hinit : LaneAccs.update (fun l b => if 4 * g + l < o.chIn then Machine.bias m o (4 * g + l) else b)
      = LaneAccs.update (fun l b => if 4 * g + l < o.chIn then Machine.bias m' o (4 * g + l) else b) := by
    refine LaneAccs.update_congr fun l b => ?_
    split
    · next hl => exact h.bias _ hl
    · rfl
  rw [Machine.laneGroup, Machine.laneGroup, hinit]
  exact List.foldl_ext _ _ _ fun b cell hcell => h.laneCell hp hcell g b

theorem DwAgree.groupLevels (h : DwAgree m m' o) (g : Nat) (a : LaneAccs) : groupLevels m o g a = groupLevels m' o g a := by
  refine List.map_congr_left fun v hv => h.thresh _ ?_ _
  obtain ⟨i, hi, rfl⟩ := List.mem_iff_getElem.1 hv
  simp only [List.length_zipIdx, List.length_take] at hi
  simp only [List.getElem_zipIdx]
  omega

theorem DwAgree.pixelLevels (h : DwAgree m m' o) {p : Nat × Nat} (hp : p ∈ dwPixels o) (a : LaneAccs) :
    pixelLevels m o p a = pixelLevels m' o p a :=
  List.foldl_ext _ _ _ fun e g _ => by simp only [h.laneGroup hp, h.groupLevels]

theorem DwAgree.im2colWrites (h : DwAgree m m' o) {p : Nat × Nat} (hp : p ∈ dwPixels o) :
    im2colWrites m o p = im2colWrites m' o p :=
  List.flatMap_congr fun cell hcell => List.map_congr_left fun c hc => by
    rw [h.staged p hp cell hcell c (List.mem_range.1 hc)]

/-- DW makes the same writes from memories that agree on its elements (rules R100, R276). -/
theorem DwAgree.dwRun (h : DwAgree m m' o) (a : LaneAccs) (b : PackBuf) : dwRun m o a b = dwRun m' o a b :=
  List.foldl_ext _ _ _ fun e p hp => by
    simp only [Machine.dwPixel, h.pixelLevels hp, h.im2colWrites hp]

end

/-! UNPACK. -/

/-- UNPACK makes the same writes from memories that agree on its packed stream, whose bytes the reordered crumbs do not leave
(41_decoder.md rules R176, R180). -/
theorem unpackWrites_congr {v : UnpackVariant} {o : OperandRegs} (hreo : v.reo = true → v.width = .b2)
    (h : AgreeOn (unpackSets v o).rs m m') : unpackWrites v m o = unpackWrites v m' o := by
  refine List.flatMap_congr fun i hi => ?_
  have hi : i < o.count := List.mem_range.1 hi
  have hbyte : laneIndex v.reo i * v.width.bits / 8 < cdiv (o.count * v.width.bits) 8 := by
    rw [cdiv_le_iff (by decide)]
    cases hr : v.reo with
    | false => cases v.width <;> simp only [laneIndex, ElementWidth.bits, Bool.false_eq_true, if_false] <;> omega
    | true =>
      rw [hreo hr]
      simp only [laneIndex, ElementWidth.bits, if_true]
      omega
  have hread := h.read (base := o.src1) (n := cdiv (o.count * v.width.bits) 8) (by simp [unpackSets]) hbyte
  rw [unpackValue, unpackValue, packedField, packedField, hread]

end Sys2Proof.Machine
end

section
/-! The writes of an operation fill WS and depend only on RS (obligation O50). -/

namespace Sys2Proof.Machine

open Sys2Proof.Reference

/-- Some write of a list goes to the address. -/
def WritesTo (l : List (Word × Byte)) (a : Word) : Prop := ∃ w ∈ l, w.1 = a

theorem writesTo_append {l l' : List (Word × Byte)} {a : Word} :
    WritesTo (l ++ l') a ↔ WritesTo l a ∨ WritesTo l' a := by
  simp only [WritesTo, List.mem_append, or_and_right, exists_or]

/-- Consecutive writes go to every offset below their number. -/
theorem writesTo_byteWrites {base : Word} {l : List Byte} {i : Nat} (h : i < l.length) :
    WritesTo (byteWrites base l) (addr base i) :=
  ⟨_, mem_byteWrites.2 ⟨i, h, rfl⟩, rfl⟩

/-- A byte that a list of writes goes to holds what the list says, whatever memory held. -/
theorem Memory.read_writeAll_congr {l : List (Word × Byte)} {a : Word} (h : WritesTo l a) (m m' : Memory) :
    (m.writeAll l).read a = (m'.writeAll l).read a := by
  induction l generalizing m m' with
  | nil => obtain ⟨w, hw, -⟩ := h; cases hw
  | cons w l ih =>
    by_cases hlater : WritesTo l a
    · exact ih hlater _ _
    · have hlast : ∀ x ∈ l, x.1 ≠ a := fun x hx he => hlater ⟨x, hx, he⟩
      obtain ⟨x, hx, rfl⟩ := h
      obtain rfl : x = w := (List.mem_cons.1 hx).resolve_right fun hx => hlater ⟨x, hx, rfl⟩
      simp only [Memory.writeAll_cons, Memory.read_writeAll_of_not_mem _ hlast, Memory.read_write_same]

/-- MM writes every byte of both regions (45_matmul.md rule R247). -/
theorem mm_writesTo_ws {v : MmVariant} {s : State} {a : Word} (h : covers (mmSets v s.snap).ws a = true) :
    WritesTo (operationWrites (.mm v) s) a := by
  obtain ⟨h0, h1⟩ := mmRows_length v s.mem s.snap s.mac
  have fills (j : Nat) (l : List Nat) (p : PackBuf) (hl : l.length = s.snap.rows)
      (hin : (ByteRange.mk (mmRegion v s.snap j) (mmRegionLen v s.snap)).contains a = true) :
      WritesTo (byteWrites (mmRegion v s.snap j) (packRegion v.width.bits l p).2) a := by
    obtain ⟨i, hi, rfl⟩ := ByteRange.mem_bytes.1 (ByteRange.contains_iff.1 hin)
    exact writesTo_byteWrites (by rwa [packRegion_length, hl])
  unfold mmSets at h
  split at h
  · cases h
  · simp only [covers_cons, covers_nil, Bool.or_false, Bool.or_eq_true] at h
    exact writesTo_append.2 (h.imp (fills 0 _ _ h0) (fills 1 _ _ h1))

/-- Every index below a square's size is a row-major index of it. -/
theorem exists_square_index {d n i : Nat} (h : i < d * d * n) :
    ∃ y < d, ∃ x < d, ∃ c < n, (y * d + x) * n + c = i := by
  have hn : 0 < n := Nat.pos_of_ne_zero fun h0 => by simp [h0] at h
  have hd : 0 < d := Nat.pos_of_ne_zero fun h0 => by simp [h0] at h
  refine ⟨i / n / d, ?_, i / n % d, Nat.mod_lt _ hd, i % n, Nat.mod_lt _ hn, ?_⟩
  · rw [Nat.div_lt_iff_lt_mul hd, Nat.div_lt_iff_lt_mul hn]
    exact h
  · rw [Nat.div_add_mod', Nat.div_add_mod']

/-- One pixel writes the column buffer and the pixel's own bytes (46_depthwise.md rules R275, R276). -/
theorem dwPixel_writesTo (m : Memory) (o : OperandRegs) (e : DwRun) (p : Nat × Nat) :
    (∀ cell ∈ dwCells o, ∀ c < o.chIn, WritesTo (dwPixel m o e p).writes (colAddr o cell.1 cell.2 c)) ∧
    (∀ b < dwPixelLen o, WritesTo (dwPixel m o e p).writes (addr (dwPixelAddr o p) b)) ∧
    ∀ a, WritesTo e.writes a → WritesTo (dwPixel m o e p).writes a := by
  simp only [dwPixel, writesTo_append]
  refine ⟨fun cell hcell c hc => .inl (.inr ?_), fun b hb => .inr (writesTo_byteWrites ?_),
    fun a ha => .inl (.inl ha)⟩
  · exact ⟨_, List.mem_flatMap.2 ⟨cell, hcell, List.mem_map.2 ⟨c, List.mem_range.2 hc, rfl⟩⟩, rfl⟩
  · rw [packRegion2_length, pixelLevels_length]
    rw [dwPixelLen, cdiv_le_iff (by decide)] at hb
    rw [cdiv_le_iff (by decide)]
    omega

/-- The pixels that follow keep what was written. -/
theorem writesTo_foldl_dwPixel {m : Memory} {o : OperandRegs} {a : Word} (l : List (Nat × Nat)) {e : DwRun}
    (h : WritesTo e.writes a) : WritesTo (l.foldl (dwPixel m o) e).writes a := by
  induction l generalizing e with
  | nil => exact h
  | cons q l ih =>
    obtain ⟨-, -, hkeep⟩ := dwPixel_writesTo m o e q
    exact ih (hkeep a h)

/-- What one pixel of a run writes to whatever came before it, the run writes to. -/
theorem writesTo_of_dwPixel {m : Memory} {o : OperandRegs} {p : Nat × Nat} {a : Word}
    (hpixel : ∀ e, WritesTo (dwPixel m o e p).writes a) {l : List (Nat × Nat)} (hp : p ∈ l) (e : DwRun) :
    WritesTo (l.foldl (dwPixel m o) e).writes a := by
  induction l generalizing e with
  | nil => cases hp
  | cons q l ih =>
    rcases List.mem_cons.1 hp with rfl | hp
    · exact writesTo_foldl_dwPixel l (hpixel e)
    · exact ih hp _

/-- DW writes every byte of its output and of the column buffer (rules R275, R276). -/
theorem dw_writesTo_ws {s : State} {a : Word} (h : covers (dwSets s.snap).ws a = true) :
    WritesTo (operationWrites .dw s) a := by
  unfold dwSets at h
  split at h
  · cases h
  · next hs =>
    simp only [covers_cons, covers_nil, Bool.or_false, Bool.or_eq_true, ByteRange.contains_iff,
      ByteRange.mem_bytes] at h
    obtain ⟨i, hi, rfl⟩ | ⟨i, hi, rfl⟩ := h
    · obtain ⟨y, hy, x, hx, b, hb, rfl⟩ := exists_square_index hi
      refine writesTo_of_dwPixel (p := (y, x)) (fun e => ?_) (mem_dwPixels.2 ⟨hy, hx⟩) _
      obtain ⟨-, hout, -⟩ := dwPixel_writesTo s.mem s.snap e (y, x)
      simpa only [dwPixelAddr, addr_addr] using hout b hb
    · obtain ⟨ky, hky, kx, hkx, c, hc, rfl⟩ := exists_square_index hi
      have hpos : 0 < s.snap.outDim := by omega
      refine writesTo_of_dwPixel (p := (0, 0)) (fun e => ?_) (mem_dwPixels.2 ⟨hpos, hpos⟩) _
      obtain ⟨hcol, -⟩ := dwPixel_writesTo s.mem s.snap e (0, 0)
      exact hcol (ky, kx) (mem_dwCells.2 ⟨hky, hkx⟩) c hc

/-- UNPACK writes both bytes of every output element (41_decoder.md rule R177). -/
theorem unpack_writesTo_ws {v : UnpackVariant} {s : State} {a : Word} (h : covers (unpackSets v s.snap).ws a = true) :
    WritesTo (operationWrites (.unpack v) s) a := by
  simp only [unpackSets, covers_cons, covers_nil, Bool.or_false, ByteRange.contains_iff, ByteRange.mem_bytes] at h
  obtain ⟨i, hi, rfl⟩ := h
  obtain ⟨w, hw, he⟩ := writesTo_byteWrites (base := addr s.snap.out (2 * (i / 2))) (i := i % 2)
    (l := [(unpackValue v s.mem s.snap (i / 2)).setWidth 8, (unpackValue v s.mem s.snap (i / 2) >>> 8).setWidth 8])
    (Nat.mod_lt _ (by decide))
  refine ⟨w, List.mem_flatMap.2 ⟨i / 2, List.mem_range.2 (by omega), hw⟩, ?_⟩
  rw [he, addr_addr, Nat.div_add_mod]

/-- Every operation fills its WS. -/
theorem operationWrites_fill (p : Operation) {s : State} {a : Word} (h : covers (operationSets p s.snap).ws a = true) :
    WritesTo (operationWrites p s) a := by
  cases p with
  | mm v => exact mm_writesTo_ws h
  | dw => exact dw_writesTo_ws h
  | unpack v => exact unpack_writesTo_ws h

/-- Only UNPACK.B2 has a reordered form (30_encoding.md rule R127). -/
theorem width_of_reo {i : Instr} {v : UnpackVariant} (h : operationOf i = .unpack v) (hreo : v.reo = true) :
    v.width = .b2 := by
  cases i <;> cases h
  case unpackB2R => rfl
  all_goals cases hreo

/-- Where an operation has any byte to write, its writes depend only on the bytes of RS (20_memory.md rule R100). -/
theorem operationWrites_congr {i : Instr} {s : State} {m : Memory} {a : Word} (hws : covers (setsOf i s).ws a = true)
    (h : AgreeOn (setsOf i s).rs m s.mem) :
    operationWrites (operationOf i) { s with mem := m } = operationWrites (operationOf i) s := by
  rw [setsOf] at hws h
  cases hp : operationOf i with
  | mm v =>
    rw [hp] at hws h
    have hrows : s.snap.rows ≠ 0 := fun h0 => by simp [operationSets, mmSets, h0] at hws
    have hagree : MmAgree v m s.mem s.snap := .of_agreeOn hrows h
    simp only [operationWrites, hagree.mmRows]
  | dw =>
    rw [hp] at hws h
    have hs : ¬ (s.snap.chIn ≠ s.snap.chOut ∨ s.snap.outDim = 0 ∨ s.snap.chIn = 0) := fun h0 => by
      rw [operationSets, dwSets, if_pos h0] at hws
      cases hws
    have hagree : DwAgree m s.mem s.snap := .of_agreeOn hs h
    simp only [operationWrites, hagree.dwRun]
  | unpack v =>
    rw [hp] at h
    exact unpackWrites_congr (width_of_reo hp) h

/-- Settles O50: both runs complete with their writes in memory; the writes are the same and go to every byte of WS. -/
theorem outputDependsOnlyOnReadSet : Obligations.OutputDependsOnlyOnReadSet := by
  intro i s m hclean hch hagree
  have hclean' : OpClean (setsOf i s) { s with mem := m } := hclean
  have ⟨hside, hrefused, _⟩ := hclean
  obtain ⟨t, hexec, ht, hresult, -⟩ := exec_ok (s := s) hch hside hrefused
  obtain ⟨u, hexec', hu, hresult', -⟩ := exec_ok (s := { s with mem := m }) hch hside hrefused
  rw [okMemory_clean hclean] at ht
  rw [okMemory_clean hclean'] at hu
  refine ⟨t, u, hexec, hexec', hresult.trans hresult'.symm, fun a ha => ?_⟩
  rw [ht, hu, operationWrites_congr ha hagree]
  exact Memory.read_writeAll_congr (operationWrites_fill _ ha) _ _

end Sys2Proof.Machine
end

section
/-! The layouts of the operands in memory (obligation O60). -/

namespace Sys2Proof.Machine

open Sys2Proof.Reference

/-- A loaded half as a signed number of two bytes (00_scope.md rule R14). -/
theorem loadHalf_toInt (m : Memory) (a : Word) : (m.loadHalf a).toInt = s16At m a := by
  have e : (m.loadHalf a).toNat = (m.read a).toNat + 2 ^ 8 * (m.read (a + 1)).toNat := by
    rw [Memory.loadHalf, append_byte_toNat, Nat.add_comm, Nat.mul_comm]
    rfl
  exact (BitVec.toInt_eq_toNat_bmod _).trans (congrArg (fun x : Nat => Int.bmod x (2 ^ 16)) e)

/-- A loaded word as a signed number of four bytes (rule R14). -/
theorem loadWord_toInt (m : Memory) (a : Word) : (m.loadWord a).toInt = s32At m a := by
  have e : (m.loadWord a).toNat = (m.read a).toNat + 2 ^ 8 * (m.read (a + 1)).toNat + 2 ^ 16 * (m.read (a + 2)).toNat
      + 2 ^ 24 * (m.read (a + 3)).toNat := by
    rw [Memory.loadWord]
    show BitVec.toNat (w := 8 + 8 + 8 + 8) _ = _
    rw [append_byte_toNat, append_byte_toNat, append_byte_toNat]
    simp only [addr, BitVec.ofNat_eq_ofNat]
    omega
  exact (BitVec.toInt_eq_toNat_bmod _).trans (congrArg (fun x : Nat => Int.bmod x (2 ^ 32)) e)

/-- A 4-bit weight is a nibble of its byte, the low one in an even column (20_memory.md rule R91). -/
theorem weight_w4_eq (m : Memory) (o : OperandRegs) (r c : Nat) :
    weight .w4 m o r c
      = (m.read (o.src0 + BitVec.ofNat 32 (r * ((o.cols + 1) / 2) + c / 2))).toNat >>> (4 * (c % 2)) &&& 0xF := by
  have hmask : ∀ x : Nat, x &&& 0xF = x % 16 := fun x => Nat.and_two_pow_sub_one_eq_mod x 4
  rw [hmask, Nat.shiftRight_eq_div_pow]
  rfl

/-- The stride of the threshold table: THR_STRIDE, or the dense `2^k - 1` (rule R95). -/
theorem thrStep_eq (o : OperandRegs) (k : Nat) :
    o.thrStep k = if o.thrStride.toNat % 2 ^ 16 ≠ 0 then o.thrStride.toNat % 2 ^ 16 else 2 ^ k - 1 := by
  rw [OperandRegs.thrStep, field16_low, ite_not]

/-- The slice of a channel, threshold by threshold (rule R95). -/
theorem thresholds_getElem? (m : Memory) (o : OperandRegs) {k i : Nat} (ch : Nat) (h : i < 2 ^ k - 1) :
    (thresholds m o k ch)[i]? = some (threshold m o k ch i) := by
  simp [thresholds, List.getElem?_range h]

theorem threshold_toInt (m : Memory) (o : OperandRegs) (k ch i : Nat) :
    (threshold m o k ch i).toInt = s16At m (o.thr + BitVec.ofNat 32
      (2 * (ch * (if o.thrStride.toNat % 2 ^ 16 ≠ 0 then o.thrStride.toNat % 2 ^ 16 else 2 ^ k - 1) + i))) := by
  rw [← thrStep_eq]
  exact loadHalf_toInt m _

/-- The two columns of activations follow each other (rule R93). -/
theorem activation_toInt (m : Memory) (o : OperandRegs) (j c : Nat) :
    (activation m o j c).toInt = s16At m (o.src1 + BitVec.ofNat 32 (2 * (j * o.cols) + 2 * c)) :=
  loadHalf_toInt m _

/-- The input row of a kernel cell (46_depthwise.md rule R273). -/
theorem dwY_eq (o : OperandRegs) (oy ky : Nat) : dwY o oy ky = (oy : Int) * o.stride + ky - o.padTop := by
  rw [dwY, Nat.cast_add, Nat.cast_mul]

/-- The input column of a kernel cell (rule R273). -/
theorem dwX_eq (o : OperandRegs) (ox kx : Nat) : dwX o ox kx = (ox : Int) * o.stride + kx - o.padLeft := by
  rw [dwX, Nat.cast_add, Nat.cast_mul]

theorem dwInBounds_iff (o : OperandRegs) (p cell : Nat × Nat) :
    dwInBounds o p cell = true ↔
      0 ≤ dwY o p.1 cell.1 ∧ dwY o p.1 cell.1 < o.inDim ∧ 0 ≤ dwX o p.2 cell.2 ∧ dwX o p.2 cell.2 < o.inDim :=
  decide_eq_true_iff

/-- Settles O60, layout by layout, with each field at its place by O59. -/
theorem operandLayouts : Obligations.OperandLayouts := by
  intro m o
  obtain ⟨-, hcols, hchIn, -, hinDim, -, hkdim, hstride, hpadLeft, hpadTop, -⟩ := operandFieldPlaces o
  simp only [← hcols, ← hchIn, ← hinDim, ← hkdim, ← hstride, ← hpadLeft, ← hpadTop]
  refine ⟨fun _ _ => rfl, weight_w4_eq m o, fun c => ⟨?_, ?_⟩, fun r => loadWord_toInt m _,
    fun k ch => ⟨?_, fun i hi => ?_⟩, fun _ _ _ => rfl, fun _ _ _ => ⟨rfl, rfl⟩,
    fun oy ox ky kx => ⟨dwY_eq o oy ky, dwX_eq o ox kx, ?_⟩⟩
  · simpa using activation_toInt m o 0 c
  · simpa using activation_toInt m o 1 c
  · simp [thresholds]
  · exact ⟨thresholds_getElem? m o ch hi, threshold_toInt m o k ch i⟩
  · rw [← dwY_eq, ← dwX_eq]
    exact dwInBounds_iff o (oy, ox) (ky, kx)

end Sys2Proof.Machine
end

section
/-! The decoder and the encoder are inverse, and what the decoder answers for every kind of reserved word (obligations O1 to
O4). -/

namespace Sys2Proof

/-! The encoder. -/

/-- Each bit of a joined word is read from the one field whose place holds it (30_encoding.md rules R125 to R127). -/
theorem getLsbD_joinFields (f : CmdFields) (i : Nat) :
    (joinFields f).getLsbD i =
      if i < 4 then f.op.getLsbD i else if i = 4 then f.b4 else if i = 5 then f.b5 else if i = 6 then f.b6
      else f.hi.getLsbD (i - 7) := by
  show BitVec.getLsbD (w := 25 + 1 + 1 + 1 + 4) _ i = _
  simp only [joinFields, BitVec.getLsbD_append, BitVec.getLsbD_ofBool]
  grind

/-- Joining fields loses none of them: with `joinFields_splitWord`, the two are inverse. -/
@[simp] theorem splitWord_joinFields (f : CmdFields) : splitWord (joinFields f) = f := by
  have hop : (joinFields f).extractLsb' 0 4 = f.op := by
    refine BitVec.eq_of_getLsbD_eq fun i hi => ?_
    simp [getLsbD_joinFields, hi]
  have hhi : (joinFields f).extractLsb' 7 25 = f.hi := by
    refine BitVec.eq_of_getLsbD_eq fun i hi => ?_
    rw [BitVec.getLsbD_extractLsb', getLsbD_joinFields]
    grind
  simp only [splitWord, hop, hhi, getLsbD_joinFields]
  rfl

/-- The fields of a row name that row (rule R129). -/
@[simp] theorem decodeFields_fields (i : Instr) : decodeFields i.fields = .ok i := by
  cases i <;> rfl

/-- The word of an instruction decodes to it (rule R129). -/
@[simp] theorem decodeWord_encode (i : Instr) : decodeWord (encode i) = .ok i := by
  rw [decodeWord, encode, splitWord_joinFields, decodeFields_fields]

/-- Settles O3: the decoder takes an instruction's word to it, and only that word. -/
theorem decodeEncodeAgree : Obligations.DecodeEncodeAgree := by
  intro w i
  constructor
  · intro h
    exact (encode_of_decodeWord h).symm
  · rintro rfl
    exact decodeWord_encode i

/-! The opcode table. -/

open Sys2Proof.Reference

/-- The table pairs each instruction with its word and with no other (rule R129). -/
theorem mem_opcodeMap_iff {w : Word} {i : Instr} : (w, i) ∈ opcodeMap ↔ w = encode i := by
  constructor
  · have table : ∀ e ∈ opcodeMap, e.1 = encode e.2 := by decide
    exact table (w, i)
  · rintro rfl
    cases i <;> decide

/-- A word stands in the table when it is the word of an instruction. -/
theorem mem_opcodeWords_iff {w : Word} : w ∈ opcodeMap.map Prod.fst ↔ ∃ i, w = encode i := by
  simp only [List.mem_map, Prod.exists, exists_and_right, exists_eq_right, mem_opcodeMap_iff]

/-- A word names an instruction when it stands in the table (rule R124). -/
theorem decodes_iff_mem_opcodeWords {w : Word} : (∃ i, decodeWord w = .ok i) ↔ w ∈ opcodeMap.map Prod.fst :=
  (exists_congr (decodeEncodeAgree w)).trans mem_opcodeWords_iff.symm

/-- Settles O1: each word of the table is the encoding of its instruction. -/
theorem thirteenWordsDecode : Obligations.ThirteenWordsDecode := fun e he =>
  (decodeEncodeAgree e.1 e.2).2 (mem_opcodeMap_iff.1 he)

/-! Reserved words. -/

/-- OP other than 1, 2 and 3 names no operation (30_encoding.md rule R123). -/
theorem decodeFields_reservedOp {f : CmdFields} (h : f.op ∉ [1, 2, 3]) : decodeFields f = .error .reservedOp := by
  simp only [List.mem_cons, List.not_mem_nil, or_false, not_or] at h
  obtain ⟨hmm, hdw, hunpack⟩ := h
  rw [decodeFields, if_neg hmm, if_neg hdw, if_neg hunpack]

/-- Format MM by its reserved bits (rule R125). -/
theorem decodeFields_mm {f : CmdFields} (hop : f.op = 1) :
    decodeFields f = if f.hi = 0 then .ok (mmRow f.b4 f.b5 f.b6) else .error .mmReserved := by
  rw [decodeFields, if_pos hop]

/-- Format DW by its reserved bits (rule R126). -/
theorem decodeFields_dw {f : CmdFields} (hop : f.op = 2) :
    decodeFields f = if f.hi = 0 ∧ f.b4 = false ∧ f.b5 = false ∧ f.b6 = false then .ok .dwThrO2
      else .error .dwReserved := by
  rw [decodeFields, if_neg (by rw [hop]; decide), if_pos hop]

/-- Format UNPACK by its reserved bits (rule R127). -/
theorem decodeFields_unpack {f : CmdFields} (hop : f.op = 3) :
    decodeFields f = if f.hi = 0 then unpackRow f.b4 f.b5 f.b6 else .error .unpackReserved := by
  rw [decodeFields, if_neg (by rw [hop]; decide), if_neg (by rw [hop]; decide), if_pos hop]

/-- The reserved bits of format DW are bits [6:4] and [31:7] (rule R126). -/
theorem decodeWord_dwReserved {w : Word} (hop : w.extractLsb' 0 4 = 2) (hbits : w.extractLsb' 4 28 ≠ 0) :
    decodeWord w = .error .dwReserved := by
  have hdw := decodeFields_dw (f := splitWord w) hop
  split_ifs at hdw
  · -- the one word of the format has no reserved bit set
    obtain rfl := (decodeEncodeAgree w .dwThrO2).1 hdw
    exact absurd (by decide) hbits
  · exact hdw

/-- KB is bits [5:4] (rule R127). -/
theorem extractLsb'_kb (w : Word) : w.extractLsb' 4 2 = BitVec.ofBool (w.getLsbD 5) ++ BitVec.ofBool (w.getLsbD 4) := by
  refine BitVec.eq_of_getLsbD_eq fun i hi => ?_
  show _ = BitVec.getLsbD (w := 1 + 1) _ i
  rw [BitVec.getLsbD_extractLsb', BitVec.getLsbD_append, BitVec.getLsbD_ofBool, BitVec.getLsbD_ofBool]
  obtain rfl | rfl : i = 0 ∨ i = 1 := by omega
  · simp
  · simp

/-- An UNPACK word without reserved bits is read by KB and REO (rule R127). -/
theorem decodeWord_unpack {w : Word} (hop : w.extractLsb' 0 4 = 3) (hhi : w.extractLsb' 7 25 = 0) :
    decodeWord w = unpackRow (w.getLsbD 4) (w.getLsbD 5) (w.getLsbD 6) :=
  (decodeFields_unpack (f := splitWord w) hop).trans (if_pos hhi)

/-- KB = 11 has both of its bits set. -/
theorem kb_eq_three {w : Word} (h : w.extractLsb' 4 2 = 3) : w.getLsbD 4 = true ∧ w.getLsbD 5 = true := by
  rw [extractLsb'_kb] at h
  revert h
  cases w.getLsbD 4 <;> cases w.getLsbD 5 <;> decide

/-- KB = 01 and KB = 10 have one of its bits set. -/
theorem kb_eq_one_or_two {w : Word} (h : w.extractLsb' 4 2 = 1 ∨ w.extractLsb' 4 2 = 2) :
    w.getLsbD 5 = !w.getLsbD 4 := by
  rw [extractLsb'_kb] at h
  revert h
  cases w.getLsbD 4 <;> cases w.getLsbD 5 <;> decide

/-- The reordered form is for KB = 00 alone (rule R127). -/
theorem unpackRow_reorder (kb0 : Bool) : unpackRow kb0 (!kb0) true = .error .unpackReorder := by
  cases kb0 <;> rfl

/-- Settles O4, format by format. -/
theorem reservedWordsRejected : Obligations.ReservedWordsRejected := by
  refine ⟨fun w hop => ?_, fun w hop hhi => ?_, fun w hop hbits => ?_, fun w hop hhi => ?_, fun w hop hhi hkb => ?_,
    fun w hop hhi hreo hkb => ?_⟩
  · exact decodeFields_reservedOp (f := splitWord w) hop
  · exact (decodeFields_mm (f := splitWord w) hop).trans (if_neg hhi)
  · exact decodeWord_dwReserved hop hbits
  · exact (decodeFields_unpack (f := splitWord w) hop).trans (if_neg hhi)
  · obtain ⟨h4, h5⟩ := kb_eq_three hkb
    rw [decodeWord_unpack hop hhi, h4, h5]
    rfl
  · rw [decodeWord_unpack hop hhi, hreo, kb_eq_one_or_two hkb, unpackRow_reorder]

end Sys2Proof

namespace Sys2Proof.Machine

open Sys2Proof.Reference

/-! Illegal words at START. -/

/-- A snapshot whose word names no instruction completes at once (60_exceptions.md rule R293). -/
theorem immediateCode_of_illegal {o : OperandRegs} (h : ¬ ∃ i, decodeWord o.cmd = .ok i) :
    immediateCode o = some .illegalCmd := by
  unfold immediateCode
  split
  · rfl
  · exact absurd ⟨_, ‹_›⟩ h

/-- A START while IDLE that the snapshot alone decides is accepted and completed (40_control.md rule R151). -/
theorem requestStart_of_immediateCode {s : State} {code : CompletionCode} (hidle : s.phase = .idle)
    (hcode : immediateCode s.ops = some code) : requestStart s = complete code (acceptStart s) := by
  simp only [requestStart, hidle, hcode]

/-- Settles O2: the legal words are the encodings, and START looks the word up before anything else. -/
theorem legalExactlyThirteenWords : Obligations.LegalExactlyThirteenWords := by
  refine ⟨fun w => decodes_iff_mem_opcodeWords, fun s hidle hword => ⟨?_, ?_⟩⟩
  · have hillegal : ¬ ∃ i, decodeWord s.ops.cmd = .ok i := mt decodes_iff_mem_opcodeWords.1 hword
    exact requestStart_of_immediateCode hidle (immediateCode_of_illegal hillegal)
  · obtain ⟨-, -, hmem, -⟩ := requestStart_frame s
    exact hmem

end Sys2Proof.Machine
end

section
/-! The register window (obligation O5). -/

namespace Sys2Proof.Machine

/-- CORE_BASE is the first byte of its page. -/
theorem coreBase_toNat (p : Platform) : p.coreBase.toNat = p.corePage.toNat * 256 := by
  rw [Platform.coreBase, page_append_toNat, BitVec.ofNat_eq_ofNat, BitVec.toNat_ofNat, Nat.zero_mod, Nat.add_zero]

/-- An address lies in the window when its offset from CORE_BASE is below 0x100 (30_encoding.md rule R121). -/
theorem inWindow_iff_offset_lt (p : Platform) (a : Word) : p.inWindow a = true ↔ (a - p.coreBase).toNat < 0x100 := by
  have ha := a.isLt
  have hpage := p.corePage.isLt
  rw [Platform.inWindow_iff, BitVec.toNat_sub, coreBase_toNat]
  omega

/-- In the window, the index is the offset in words (rule R121). -/
theorem windowIndex_toNat {p : Platform} {a : Word} (h : p.inWindow a = true) :
    (windowIndex a).toNat = (a - p.coreBase).toNat / 4 := by
  have ha := a.isLt
  rw [Platform.inWindow_iff] at h
  rw [windowIndex, BitVec.extractLsb'_toNat, Nat.shiftRight_eq_div_pow, BitVec.toNat_sub, coreBase_toNat]
  omega

/-- The registers in the order of their offsets (rule R121). -/
def registerOrder : List RegName :=
  [.id, .ctrl, .status, .cmd, .src0, .src1, .bias, .out, .thr, .col, .scrb, .mmDim, .dwCh, .dwDim, .dwKs, .dwPad, .zp,
    .foldM, .foldN, .thrStride, .unpackCnt, .unpackOfs, .result, .faultAddr]

/-- Each register stands at its offset over four (10_state.md rule R30). -/
theorem registerOrder_offset : ∀ i (h : i < registerOrder.length), registerOrder[i].offset.toNat = 4 * i := by decide

/-- A register's offset over four selects it; the converse of `ofIndex_eq_some`. -/
theorem ofIndex_of_offset {x : BitVec 6} {r : RegName} (h : r.offset.toNat = 4 * x.toNat) :
    RegName.ofIndex x = some r := by
  have hx : x.toNat = r.offset.toNat / 4 := by omega
  unfold RegName.ofIndex
  rw [hx]
  cases r <;> rfl

/-- An index selects the register that stands there in the order, and none from 0x18 on. -/
theorem ofIndex_eq_registerOrder (x : BitVec 6) : RegName.ofIndex x = registerOrder[x.toNat]? := by
  rcases lt_or_ge x.toNat registerOrder.length with hx | hx
  · rw [List.getElem?_eq_getElem hx]
    exact ofIndex_of_offset (registerOrder_offset _ hx)
  · rw [ofIndex_reserved hx, List.getElem?_eq_none hx]

/-- Settles O5: offset, alignment and index by the address as a number, the selection by the order of the registers. -/
theorem windowSelectsRegister : Obligations.WindowSelectsRegister :=
  ⟨inWindow_iff_offset_lt, fun p r => ⟨regAddr_inWindow p r, regAddr_aligned p r, ofIndex_regAddr p r⟩,
    fun _ _ => windowIndex_toNat, ofIndex_eq_registerOrder⟩

end Sys2Proof.Machine
end

section
/-! The register operations of the window (obligations O10 to O15) and the HOST's wait for `irq` (O22). -/

namespace Sys2Proof.Machine

open Sys2Proof.Reference

/-! Operand writes (40_control.md rule R155). -/

/-- A register stands in the order at its offset over four (10_state.md rule R30). -/
theorem registerOrder_getElem?_offset (r : RegName) : registerOrder[r.offset.toNat / 4]? = some r := by
  cases r <;> rfl

/-- What the registers read, in the order of their offsets. -/
def registerFile (s : State) : List Word := registerOrder.map (regRead s)

/-- A register's value stands where the register does. -/
theorem registerFile_getElem?_offset (s : State) (r : RegName) :
    (registerFile s)[r.offset.toNat / 4]? = some (regRead s r) := by
  rw [registerFile, List.getElem?_map, registerOrder_getElem?_offset, Option.map_some]

/-- An operand write replaces one of the values read. -/
theorem registerFile_regWrite {q : RegName} (h : writableBits q ≠ 0) (v : Word) (s : State) :
    registerFile (regWrite q v s) = (registerFile s).set (q.offset.toNat / 4) (v &&& writableBits q) := by
  cases q
  case id | ctrl | status | result | faultAddr => exact absurd rfl h
  all_goals rfl

/-- An operand register reads as written, its reserved fields 0. -/
theorem regRead_regWrite_same {q : RegName} (h : writableBits q ≠ 0) (v : Word) (s : State) :
    regRead (regWrite q v s) q = v &&& writableBits q := by
  have hread := registerFile_getElem?_offset (regWrite q v s) q
  rw [registerFile_regWrite h, List.getElem?_set_self', registerFile_getElem?_offset] at hread
  exact (Option.some.inj hread).symm

/-- An operand write keeps what every other register reads. -/
theorem regRead_regWrite_other {q r : RegName} (h : writableBits q ≠ 0) (hne : r ≠ q) (v : Word) (s : State) :
    regRead (regWrite q v s) r = regRead s r := by
  have hplace : q.offset.toNat / 4 ≠ r.offset.toNat / 4 := fun heq => hne <| Option.some.inj <| by
    rw [← registerOrder_getElem?_offset r, ← heq, registerOrder_getElem?_offset]
  have hread := registerFile_getElem?_offset (regWrite q v s) r
  rw [registerFile_regWrite h, List.getElem?_set_ne hplace, registerFile_getElem?_offset] at hread
  exact (Option.some.inj hread).symm

/-- An operand write reaches the live registers alone. -/
theorem regWrite_of_operand {q : RegName} (h : writableBits q ≠ 0) (v : Word) (s : State) :
    regWrite q v s = { s with ops := s.ops.put q v } := by
  rcases regWrite_cases q v s with ⟨rfl, -⟩ | ⟨rfl, -⟩ | ⟨-, -, e⟩
  · exact absurd rfl h
  · exact absurd rfl h
  · exact e

/-- The reference's masks are those of the model, and none is empty. -/
theorem operandRegisters_mask : ∀ e ∈ operandRegisters, e.2 = writableBits e.1 ∧ writableBits e.1 ≠ 0 := by decide

/-- Settles O10, by the list of what all registers read: the write sets one entry of it. -/
theorem operandWriteReadsBack : Obligations.OperandWriteReadsBack := by
  intro e he s v
  obtain ⟨hmask, hwritable⟩ := operandRegisters_mask e he
  refine ⟨?_, fun r hr => regRead_regWrite_other hwritable hr v s, ?_⟩
  · rw [hmask, regRead_regWrite_same hwritable]
  · rw [regWrite_of_operand hwritable]

/-! Ignored writes and the acknowledge (rules R154, R156). -/

/-- A write of the window at an index that selects no writable register does nothing. -/
theorem windowWrite_ignored {x : BitVec 6}
    (hx : RegName.ofIndex x ∈ [some .id, some .result, some .faultAddr, none]) (v : Word) (s : State) :
    windowWrite x v s = s := by
  simp only [List.mem_cons, List.not_mem_nil, or_false] at hx
  unfold windowWrite
  rcases hx with h | h | h | h <;> rw [h] <;> rfl

/-- Words with a field in common agree on its bits. -/
theorem getLsbD_eq_of_field_eq {v w : Word} {lo n : Nat} (h : v.extractLsb' lo n = w.extractLsb' lo n) {i : Nat}
    (hi : i < n) : v.getLsbD (lo + i) = w.getLsbD (lo + i) := by
  simpa [BitVec.getLsbD_extractLsb', hi] using congrArg (·.getLsbD i) h

/-- The acknowledge looks at bits [2:1] of the value alone. -/
theorem acknowledge_congr {v w : Word} (h : v.extractLsb' 1 2 = w.extractLsb' 1 2) (s : State) :
    acknowledge v s = acknowledge w s := by
  have hdone : v.getLsbD 1 = w.getLsbD 1 := getLsbD_eq_of_field_eq h (i := 0) (by decide)
  have hoverrun : v.getLsbD 2 = w.getLsbD 2 := getLsbD_eq_of_field_eq h (i := 1) (by decide)
  rw [acknowledge, hdone, hoverrun, acknowledge]

/-- A write to CTRL looks at bits [1:0] of the value alone. -/
theorem writeCtrl_congr {v w : Word} (h : v.extractLsb' 0 2 = w.extractLsb' 0 2) (s : State) :
    writeCtrl v s = writeCtrl w s := by
  have hstart : v.getLsbD 0 = w.getLsbD 0 := getLsbD_eq_of_field_eq h (i := 0) (by decide)
  have hirqEn : v.getLsbD 1 = w.getLsbD 1 := getLsbD_eq_of_field_eq h (i := 1) (by decide)
  rw [writeCtrl, hstart, hirqEn, writeCtrl]

/-- Settles O11, register by register. -/
theorem readOnlyWritesIgnored : Obligations.ReadOnlyWritesIgnored :=
  fun s v _ => ⟨fun _ hx => windowWrite_ignored hx v s, fun h => acknowledge_congr h s, fun h => writeCtrl_congr h s⟩

/-- A status bit ANDed with the complement of the acknowledge bit is cleared by that bit. -/
theorem and_not_eq_ite (flag clear : Bool) : (flag && !clear) = if clear then false else flag := by
  cases clear <;> simp

/-- Settles O12: the write is the acknowledge, and `irq` needs DONE. -/
theorem statusAcknowledge : Obligations.StatusAcknowledge := by
  intro s v
  refine ⟨and_not_eq_ite s.done _, and_not_eq_ite s.overrun _, rfl, fun hv => ?_⟩
  have hdone : (acknowledge v s).done = false := by rw [acknowledge_done, hv, Bool.not_true, Bool.and_false]
  rw [regWrite, State.irq, hdone, Bool.and_false]

/-! Writes to CTRL (rules R151 to R153). -/

/-- Any write to CTRL sets IRQ_EN from bit 1 (rule R153). -/
theorem writeCtrl_irqEn (v : Word) (s : State) : (writeCtrl v s).irqEn = v.getLsbD 1 := by
  cases hstart : v.getLsbD 0 with
  | false => rw [writeCtrl_without_start hstart]
  | true =>
    obtain ⟨-, hirqEn, -⟩ := requestStart_frame { s with irqEn := v.getLsbD 1 }
    rw [writeCtrl_with_start hstart, hirqEn]

/-- Settles O13, by whether bit 0 is set. -/
theorem ctrlWriteSetsInterruptEnable : Obligations.CtrlWriteSetsInterruptEnable := by
  intro s v
  refine ⟨writeCtrl_irqEn v s, fun hstart => ?_, fun hstart => writeCtrl_with_start hstart s⟩
  rw [regWrite, writeCtrl_without_start hstart]
  exact ⟨rfl, rfl⟩

/-- A START request while BUSY sets OVERRUN alone (rule R152). -/
theorem requestStart_of_busy {s : State} (hbusy : s.phase = .busy) : requestStart s = { s with overrun := true } := by
  simp only [requestStart, hbusy]

/-- Settles O14: IRQ_EN is written first, then the request finds the CORE BUSY. -/
theorem startWhileBusyIgnored : Obligations.StartWhileBusyIgnored := by
  intro s v hbusy hstart
  rw [regWrite, writeCtrl_with_start hstart]
  exact requestStart_of_busy hbusy

/-- DW with mismatched channels completes at once (60_exceptions.md rule R294). -/
theorem immediateCode_of_mismatch {o : OperandRegs} (hdecode : decodeWord o.cmd = .ok .dwThrO2)
    (hch : o.chIn ≠ o.chOut) : immediateCode o = some .sizeMismatch := by
  simp only [immediateCode, hdecode]
  exact if_pos ⟨rfl, hch⟩

/-- A legal word, for DW with matching channels, is not decided by the snapshot alone (40_control.md rule R151). -/
theorem immediateCode_of_legal {o : OperandRegs} {i : Instr} (hdecode : decodeWord o.cmd = .ok i)
    (hch : i = .dwThrO2 → o.chIn = o.chOut) : immediateCode o = none := by
  simp only [immediateCode, hdecode]
  exact if_neg fun ⟨hdw, hne⟩ => hne (hch (operationOf_eq_dw hdw))

/-- A START while IDLE that the snapshot alone decides ends IDLE with DONE and that code (60_exceptions.md rules R293,
R294). -/
theorem requestStart_completed {s : State} {code : CompletionCode} (hidle : s.phase = .idle)
    (hcode : immediateCode s.ops = some code) :
    (requestStart s).phase = .idle ∧ (requestStart s).done = true ∧ (requestStart s).errcode = code := by
  rw [requestStart_of_immediateCode hidle hcode]
  exact ⟨rfl, rfl, rfl⟩

/-- A START while IDLE that the snapshot does not decide leaves the CORE BUSY, DONE and ERRCODE cleared (rule R151). -/
theorem requestStart_running {s : State} (hidle : s.phase = .idle) (hcode : immediateCode s.ops = none) :
    (requestStart s).phase = .busy ∧ (requestStart s).done = false ∧ (requestStart s).errcode = .ok := by
  simp only [requestStart, hidle, hcode]
  exact ⟨rfl, rfl, rfl⟩

/-- Every START while IDLE takes the snapshot and keeps OVERRUN, also one that completes at once (rule R151). -/
theorem requestStart_idle_frame {s : State} (hidle : s.phase = .idle) :
    (requestStart s).snap = s.ops ∧ (requestStart s).overrun = s.overrun := by
  rcases requestStart_cases s with ⟨hbusy, -⟩ | ⟨-, code, -, e⟩ | ⟨-, -, e⟩
  · cases hidle.symm.trans hbusy
  · rw [e]
    exact ⟨rfl, rfl⟩
  · rw [e]
    exact ⟨rfl, rfl⟩

/-- Settles O15: what every accepted START leaves, then the code its snapshot gives, word by word. -/
theorem startAccepted : Obligations.StartAccepted := by
  intro s v hidle hstart
  have hwrite : regWrite .ctrl v s = requestStart { s with irqEn := v.getLsbD 1 } := writeCtrl_with_start hstart s
  obtain ⟨hops, hirqEn, hmem, hresult, hfault, -⟩ := requestStart_frame { s with irqEn := v.getLsbD 1 }
  obtain ⟨hsnap, hoverrun⟩ := requestStart_idle_frame (s := { s with irqEn := v.getLsbD 1 }) hidle
  rw [hwrite]
  refine ⟨hsnap, hops, hirqEn, hmem, hresult, hfault, hoverrun, fun hillegal => ?_, fun hdecode hch => ?_,
    fun i hdecode hch => ?_⟩
  · exact requestStart_completed hidle (immediateCode_of_illegal fun ⟨i, hi⟩ => hillegal i hi)
  · exact requestStart_completed hidle (immediateCode_of_mismatch hdecode hch)
  · exact requestStart_running hidle (immediateCode_of_legal hdecode hch)

/-! The HOST's wait (rule R159). -/

/-- A line is asserted when it is IRQ_LINE and `irq` is (60_exceptions.md rule R300; log entry 28). -/
theorem irqAt_iff (s : State) (line : Nat) :
    s.irqAt line = true ↔ line = s.platform.irqLine ∧ s.irqEn = true ∧ s.done = true := by
  simp [State.irqAt, State.irq]

/-- A waiting HOST goes on when its line is asserted, and else stays (log entry 26). -/
theorem hostStep_of_waitIrq {s : State} {line : Nat} (h : nextHostStep s = some (.waitIrq line)) :
    hostStep s = .next (if s.irqAt line then advance (observe s) else s) := by
  simp only [hostStep, h]

/-- Settles O22: the HOST looks at its line in the state it acts on, which has the same registers. -/
theorem hostWaitPassesOnIrq : Obligations.HostWaitPassesOnIrq := by
  intro s s' line hturn hnext
  rw [step_of_hostTurn hturn]
  obtain ⟨d, rfl⟩ := eq_of_hostTurn hturn
  rw [hostStep_of_waitIrq (s := { s with delay := d }) hnext]
  refine ⟨fun hirq => ?_, fun hirq => ?_⟩
  · rw [if_pos ((irqAt_iff { s with delay := d } line).2 hirq)]
  · rw [if_neg (mt (irqAt_iff { s with delay := d } line).1 hirq)]

end Sys2Proof.Machine
end

section
/-! Every running operation completes (obligation O55; 40_control.md rule R157, 70_reset_and_hazards.md rule R333). -/

namespace Sys2Proof.Machine

open Sys2Proof.Reference

/-- With no buffer on memory with read side effects the CORE's step answers, whatever the command. -/
theorem exists_coreStep_next {s : State} (hside : touchesSideEffect (snapshotSets s.snap) s = false) :
    ∃ t, coreStep s = .next t := by
  rcases coreStep_cases s with ⟨i, hdecode, e⟩ | ⟨-, -, e⟩
  · rw [snapshotSets_of_decode hdecode] at hside
    rcases exec_outcomes i s with ⟨-, -, e'⟩ | ⟨hrefuse, -⟩ | ⟨-, -, e'⟩ | ⟨-, -, -, w, hid, -, -, e'⟩
    · exact ⟨_, e.trans e'⟩
    · cases hside.symm.trans hrefuse
    · exact ⟨_, e.trans e'⟩
    · exact ⟨_, e.trans e'⟩
  · exact ⟨_, e⟩

/-- The due step of such an operation answers an IDLE CORE with DONE set. -/
theorem exists_step_completed {s : State} (hreset : s.resetIn = false) (hbusy : s.phase = .busy) (hdelay : s.delay = 0)
    (hside : touchesSideEffect (snapshotSets s.snap) s = false) :
    ∃ t, step s = .next t ∧ t.phase = .idle ∧ t.done = true := by
  obtain ⟨t, hcore⟩ := exists_coreStep_next hside
  refine ⟨t, (step_of_due hreset hbusy hdelay).trans hcore, ?_⟩
  obtain ⟨_, _, _, _, _, _, _, _, _, _, -, rfl⟩ := coreStep_next hcore
  exact ⟨rfl, rfl⟩

/-- A BUSY CORE with a HOST step left gives the HOST its turn, one step nearer to the completion. -/
theorem hostTurn_of_busy {s : State} {d : Nat} (hreset : s.resetIn = false) (hbusy : s.phase = .busy)
    (hdelay : s.delay = d + 1) : HostTurn s { s with delay := d } :=
  ⟨hreset, .inr ⟨hbusy, d, hdelay, rfl⟩⟩

/-- A HOST whose program has ended does nothing. -/
theorem hostStep_of_ended {s : State} (h : HostEnded s) : hostStep s = .next s := by
  simp only [hostStep, h]

/-- A step before a run. -/
theorem RunsTo.cons {n : Nat} {s t u : State} (hstep : step s = .next t) (hrun : RunsTo n t u) : RunsTo (n + 1) s u := by
  simpa only [RunsTo, Host.Core.run, hstep] using hrun

/-- With its HOST's program ended an operation runs to its completion, by induction on the HOST steps left. -/
theorem exists_runsTo_completed {d : Nat} {s : State} (hreset : s.resetIn = false) (hbusy : s.phase = .busy)
    (hdelay : s.delay = d) (hended : HostEnded s) (hside : touchesSideEffect (snapshotSets s.snap) s = false) :
    ∃ t, RunsTo (d + 1) s t ∧ t.phase = .idle ∧ t.done = true := by
  induction d generalizing s with
  | zero =>
    obtain ⟨t, hstep, hcompleted⟩ := exists_step_completed hreset hbusy hdelay hside
    exact ⟨t, .cons hstep rfl, hcompleted⟩
  | succ d ih =>
    have hstep : step s = .next { s with delay := d } := by
      rw [step_of_hostTurn (hostTurn_of_busy hreset hbusy hdelay)]
      exact hostStep_of_ended hended
    obtain ⟨t, hrun, hcompleted⟩ := ih (s := { s with delay := d }) hreset hbusy rfl hended hside
    exact ⟨t, .cons hstep hrun, hcompleted⟩

/-- Settles O55: a HOST step keeps the delay it was left, and the due step answers a completion. -/
theorem everyOperationCompletes : Obligations.EveryOperationCompletes := by
  intro s hreset hbusy
  refine ⟨fun t d hdelay hstep => ?_, exists_step_completed hreset hbusy, exists_runsTo_completed hreset hbusy rfl⟩
  rw [step_of_hostTurn (hostTurn_of_busy hreset hbusy hdelay)] at hstep
  exact hostStep_busy hstep hbusy

end Sys2Proof.Machine
end

section
/-! The packed elements: what the packer puts into a region and what the decoder takes from it (obligation O31). -/

namespace Sys2Proof.Machine

/-! One output element (41_decoder.md rule R174). -/

/-- A field is part of a byte. -/
theorem packedField_le (m : Memory) (p : Word) (k e : Nat) : packedField m p k e ≤ 255 := by
  have hbyte := (m.read (addr p (e * k / 8))).isLt
  calc packedField m p k e
      ≤ (m.read (addr p (e * k / 8))).toNat / 2 ^ (e * k % 8) := Nat.mod_le _ _
    _ ≤ (m.read (addr p (e * k / 8))).toNat := Nat.div_le_self _ _
    _ ≤ 255 := by omega

/-- An element's field is the `k` bits of its byte from its slot up (rule R172). -/
theorem packedField_of_place (m : Memory) (p : Word) {k e byte slot : Nat} (hplace : e * k = 8 * byte + slot)
    (hslot : slot < 8) : packedField m p k e = (m.read (addr p byte)).toNat / 2 ^ slot % 2 ^ k := by
  have hdiv : e * k / 8 = byte := by omega
  have hmod : e * k % 8 = slot := by omega
  rw [packedField, hdiv, hmod]

/-- OFFSET is a byte (10_state.md rule R52). -/
theorem offset_le (o : OperandRegs) : o.offset ≤ 255 := Nat.le_of_lt_succ (BitVec.isLt _)

/-- The difference of two bytes fits 16 bits, so nothing wraps (rule R174). -/
theorem unpackValue_toInt (v : UnpackVariant) (m : Memory) (o : OperandRegs) (i : Nat) :
    (unpackValue v m o i).toInt = (packedField m o.src1 v.width.bits (laneIndex v.reo i) : Int) - o.offset := by
  have hfield := packedField_le m o.src1 v.width.bits (laneIndex v.reo i)
  have hoffset := offset_le o
  rw [unpackValue, BitVec.toInt_ofInt, Int.bmod_eq_of_le] <;> omega

/-! The slots of a packed byte (44_packer.md rule R231). -/

/-- A slot ORed in above a filled part is added to it. -/
theorem ofNat_or_slot {n x : Nat} (hx : x < 2 ^ n) (y : Nat) :
    BitVec.ofNat 8 x ||| BitVec.ofNat 8 (y * 2 ^ n) = BitVec.ofNat 8 (x + y * 2 ^ n) := by
  rw [← BitVec.ofNat_or, Nat.or_comm, Nat.mul_comm, ← Nat.two_pow_add_eq_or_of_lt hx, Nat.add_comm]

/-- The slots of a byte do not overlap, so their OR is their sum. -/
theorem nibbleByte_toNat (a b : Nat) : (nibbleByte a b).toNat = a % 16 + b % 16 * 16 := by
  rw [nibbleByte, ofNat_or_slot (by omega), BitVec.toNat_ofNat]
  omega

theorem crumbByte_toNat (a b c e : Nat) : (crumbByte a b c e).toNat = a % 4 + b % 4 * 4 + c % 4 * 16 + e % 4 * 64 := by
  rw [crumbByte, ofNat_or_slot (by omega), ofNat_or_slot (by omega), ofNat_or_slot (by omega), BitVec.toNat_ofNat]
  omega

/-- A region of nibbles that is not empty is a byte of the first two, an absent one 0, and the region of the others. -/
theorem packRegion4_cons {l : List Nat} (hl : l ≠ []) (p : PackBuf) :
    ∃ q, (packRegion 4 l p).2 = nibbleByte (l.getD 0 0) (l.getD 1 0) :: (packRegion 4 (l.drop 2) q).2 := by
  match l with
  | [] => exact absurd rfl hl
  | [a] => exact ⟨p, by rw [packRegion4_one]; simp [packRegion_nil]⟩
  | a :: b :: l => exact ⟨_, by rw [packRegion4_pair]; rfl⟩

/-- A region of crumbs that is not empty is a byte of the first four, an absent one 0, and the region of the others. -/
theorem packRegion2_cons {l : List Nat} (hl : l ≠ []) (p : PackBuf) :
    ∃ q, (packRegion 2 l p).2
      = crumbByte (l.getD 0 0) (l.getD 1 0) (l.getD 2 0) (l.getD 3 0) :: (packRegion 2 (l.drop 4) q).2 := by
  match l with
  | [] => exact absurd rfl hl
  | [a] => exact ⟨p, by rw [packRegion2_one]; simp [packRegion_nil]⟩
  | [a, b] => exact ⟨p, by rw [packRegion2_two]; simp [packRegion_nil]⟩
  | [a, b, c] => exact ⟨p, by rw [packRegion2_three]; simp [packRegion_nil]⟩
  | a :: b :: c :: e :: l => exact ⟨_, by rw [packRegion2_four]; rfl⟩

/-- For both widths: a region that is not empty begins with a byte whose slots hold the first `8/k` levels. -/
theorem packRegion_cons {k : Nat} (hk : k = 4 ∨ k = 2) {l : List Nat} (hl : l ≠ []) (p : PackBuf) :
    ∃ x q, (packRegion k l p).2 = x :: (packRegion k (l.drop (8 / k)) q).2 ∧
      ∀ e < 8 / k, x.toNat / 2 ^ (e * k) % 2 ^ k = l.getD e 0 % 2 ^ k := by
  rcases hk with rfl | rfl
  · obtain ⟨q, hq⟩ := packRegion4_cons hl p
    refine ⟨_, q, hq, fun e he => ?_⟩
    rw [nibbleByte_toNat]
    interval_cases e <;> omega
  · obtain ⟨q, hq⟩ := packRegion2_cons hl p
    refine ⟨_, q, hq, fun e he => ?_⟩
    rw [crumbByte_toNat]
    interval_cases e <;> omega

/-! A packed region read back (41_decoder.md rules R172, R183). -/

/-- The field of element `e` of the bytes that the packer made holds level `e`, and 0 past the last level; by induction on
the bytes of the region. -/
theorem packRegion_field {k : Nat} (hk : k = 4 ∨ k = 2) (l : List Nat) (p : PackBuf) (e : Nat) :
    ((packRegion k l p).2.getD (e * k / 8) 0).toNat / 2 ^ (e * k % 8) % 2 ^ k = l.getD e 0 % 2 ^ k := by
  induction hn : l.length using Nat.strong_induction_on generalizing l p e with
  | _ n ih =>
    by_cases hl : l = []
    · simp [hl, packRegion_nil]
    · obtain ⟨x, q, hregion, hslot⟩ := packRegion_cons hk hl p
      rw [hregion]
      by_cases he : e < 8 / k
      · have hbyte : e * k / 8 = 0 ∧ e * k % 8 = e * k := by rcases hk with rfl | rfl <;> omega
        obtain ⟨hdiv, hmod⟩ := hbyte
        rw [hdiv, hmod, List.getD_cons_zero, hslot e he]
      · obtain ⟨d, rfl⟩ := Nat.exists_eq_add_of_le (Nat.le_of_not_lt he)
        have hbyte : (8 / k + d) * k / 8 = d * k / 8 + 1 ∧ (8 / k + d) * k % 8 = d * k % 8 := by
          rcases hk with rfl | rfl <;> omega
        obtain ⟨hdiv, hmod⟩ := hbyte
        have hshorter : (l.drop (8 / k)).length < n := by
          have hpos := List.length_pos_of_ne_nil hl
          rw [List.length_drop]
          rcases hk with rfl | rfl <;> omega
        rw [hdiv, hmod, List.getD_cons_succ, ih _ hshorter _ q d rfl]
        simp [List.getD_eq_getElem?_getD]

/-- The decoder's field of a packed region in memory is the level, for every slot of the region's bytes. -/
theorem packedField_packRegion {k : Nat} (hk : k = 4 ∨ k = 2) {m : Memory} {base : Word} {levels : List Nat} {p : PackBuf}
    (hlevels : ∀ l ∈ levels, l < 2 ^ k)
    (hm : ∀ b (h : b < (packRegion k levels p).2.length), m.read (addr base b) = (packRegion k levels p).2[b])
    {e : Nat} (he : e * k / 8 * 8 < levels.length * k) : packedField m base k e = levels.getD e 0 := by
  have hlen : (packRegion k levels p).2.length = cdiv (levels.length * k) 8 := by
    rcases hk with rfl | rfl
    · exact packRegion4_length _ _
    · exact packRegion2_length _ _
  have hbyte : e * k / 8 < (packRegion k levels p).2.length := by rwa [hlen, cdiv_le_iff (by decide)]
  have hlevel : levels.getD e 0 < 2 ^ k := by
    rw [List.getD_eq_getElem?_getD]
    cases hget : levels[e]? with
    | none => exact Nat.two_pow_pos k
    | some l => exact hlevels l (List.mem_of_getElem? hget)
  rw [packedField, hm _ hbyte, ← List.getD_eq_getElem _ 0 hbyte, packRegion_field hk, Nat.mod_eq_of_lt hlevel]

/-- Settles O31: both lane orders decode the level whose index they take, and the index stays in the region's bytes. -/
theorem packUnpackRoundTrip : Obligations.PackUnpackRoundTrip := by
  intro m o p levels w hw hlevels hoffset hm
  have hk : w.bits = 4 ∨ w.bits = 2 := by
    rcases hw with rfl | rfl
    · exact .inr rfl
    · exact .inl rfl
  have hvalue (reo : Bool) (i : Nat) (hi : laneIndex reo i * w.bits / 8 * 8 < levels.length * w.bits) :
      (unpackValue ⟨w, reo⟩ m o i).toInt = levels.getD (laneIndex reo i) 0 := by
    rw [unpackValue_toInt, hoffset, packedField_packRegion hk hlevels hm hi]
    simp
  refine ⟨fun i hi => ?_, ?_⟩
  · have hfirst : i * w.bits / 8 * 8 < levels.length * w.bits := by rcases hk with hk | hk <;> rw [hk] <;> omega
    rw [hvalue false i hfirst, laneIndex, if_neg Bool.false_ne_true, List.getD_eq_getElem _ 0 hi]
  · rintro rfl i hi
    have hgroup : (4 * (i / 4) + 3 - i % 4) * 2 / 8 * 8 < levels.length * 2 := by omega
    exact hvalue true i hgroup

end Sys2Proof.Machine
end

section
/-! The UNPACK commands run to their completion (obligations O38, O39). -/

namespace Sys2Proof.Machine

open Sys2Proof.Reference

/-! The writes of the decode (41_decoder.md rule R177). -/

/-- No range of WS of an operation without a refused byte reaches all addresses, since the CORE's own window is refused
(20_memory.md rule R82). -/
theorem len_lt_of_not_refused {p : Platform} {c : OpSets} (h : refusedBytes p c = []) {r : ByteRange} (hr : r ∈ c.ws) :
    r.len < 2 ^ 32 := by
  by_contra hlen
  have hmem : p.coreBase ∈ r.bytes :=
    ByteRange.mem_bytes.2 ⟨(p.coreBase - r.base).toNat, by omega, addr_of_sub _ _⟩
  have hok := refusedBytes_eq_nil.1 h _ (mem_allBytes.2 ⟨r, List.mem_append_right _ hr, hmem⟩)
  have hwindow : p.inWindow p.coreBase = true := (inWindow_iff_offset_lt p _).2 (by simp)
  simp [Platform.memOk, hwindow] at hok

/-- The writes are byte `j` of output element `i`, the least significant first. -/
theorem mem_unpackWrites {v : UnpackVariant} {m : Memory} {o : OperandRegs} {w : Word × Byte} :
    w ∈ unpackWrites v m o ↔ ∃ i < o.count, ∃ j < 2,
      w = (addr o.out (2 * i + j), (unpackValue v m o i >>> (8 * j)).setWidth 8) := by
  simp [unpackWrites, halfWrites, byteWrites, addr_addr, Nat.le_one_iff_eq_zero_or_eq_one, or_and_right, exists_or]

/-- Where the elements do not wrap onto each other, each byte holds what its element's write gave it. -/
theorem read_writeAll_unpackWrites {v : UnpackVariant} {m : Memory} {o : OperandRegs} (hfit : 2 * o.count < 2 ^ 32)
    {i j : Nat} (hi : i < o.count) (hj : j < 2) :
    (m.writeAll (unpackWrites v m o)).read (addr o.out (2 * i + j)) = (unpackValue v m o i >>> (8 * j)).setWidth 8 := by
  refine Memory.read_writeAll_of_mem m (fun w hw heq => ?_) ⟨_, mem_unpackWrites.2 ⟨i, hi, j, hj, rfl⟩, rfl⟩
  obtain ⟨i', hi', j', hj', rfl⟩ := mem_unpackWrites.1 hw
  have hoff := addr_inj (by omega) (by omega) heq
  obtain rfl : i' = i := by omega
  obtain rfl : j' = j := by omega
  rfl

/-- A half is its upper byte before its lower one. -/
theorem append_bytes_of_half (x : Half) : (x >>> 8).setWidth 8 ++ x.setWidth 8 = x := by
  rw [← BitVec.toNat_inj]
  refine (append_byte_toNat _ _).trans ?_
  rw [BitVec.toNat_setWidth, BitVec.toNat_setWidth, BitVec.toNat_ushiftRight, Nat.shiftRight_eq_div_pow]
  omega

/-- After the decode a loaded output element is its value. -/
theorem loadHalf_writeAll_unpackWrites {v : UnpackVariant} {m : Memory} {o : OperandRegs} (hfit : 2 * o.count < 2 ^ 32)
    {i : Nat} (hi : i < o.count) :
    (m.writeAll (unpackWrites v m o)).loadHalf (addr o.out (2 * i)) = unpackValue v m o i := by
  have hlow := read_writeAll_unpackWrites (v := v) (m := m) hfit hi (j := 0) (by decide)
  have hhigh := read_writeAll_unpackWrites (v := v) (m := m) hfit hi (j := 1) (by decide)
  rw [Nat.add_zero, Nat.mul_zero, BitVec.ushiftRight_zero] at hlow
  rw [Memory.loadHalf, addr_addr, hlow, hhigh, append_bytes_of_half]

/-! The commands. -/

/-- A clean UNPACK command completes with the fields that its variant takes, minus the offset. -/
theorem unpackCompletes_of_operation {i : Instr} {v : UnpackVariant} (hop : operationOf i = .unpack v)
    {f : Memory → Word → Nat → Nat} (hfield : ∀ m p n, packedField m p v.width.bits (laneIndex v.reo n) = f m p n) :
    UnpackCompletes i f := by
  intro s hclean
  have ⟨hside, hrefused, _⟩ := hclean
  have hsets : setsOf i s = unpackSets v s.snap := by rw [setsOf, hop]; rfl
  have hfit : 2 * s.snap.count < 2 ^ 32 := by
    rw [hsets] at hrefused
    exact len_lt_of_not_refused hrefused (List.mem_singleton_self (ByteRange.mk s.snap.out _))
  have hnotDw : i = .dwThrO2 → s.snap.chIn = s.snap.chOut := by
    rintro rfl
    cases hop
  obtain ⟨t, hexec, hmem, hresult, hfault, hcode⟩ := exec_ok hnotDw hside hrefused
  obtain ⟨hframe, hother⟩ := noCommandWritesOutsideWriteSet i s t hexec
  rw [okMemory_clean hclean, hop] at hmem
  rw [hop] at hresult
  refine ⟨t, hexec, hframe, hcode, hfault, hresult, fun n hn => ?_, fun a ha => hother a ?_⟩
  · rw [hmem, operationWrites, loadHalf_writeAll_unpackWrites hfit hn, unpackValue_toInt, hfield]
  · rw [hsets, covers_eq_false, mem_allBytes]
    rintro ⟨r, hr, hin⟩
    obtain rfl := List.mem_singleton.1 hr
    obtain ⟨x, hx, heq⟩ := ByteRange.mem_bytes.1 hin
    exact ha x hx heq

/-- Settles O38: a natural-order variant takes element `n` itself, and its slot lies where its rule says. -/
theorem unpackNaturalCommandsComplete : Obligations.UnpackNaturalCommandsComplete := by
  refine ⟨unpackCompletes_of_operation (v := ⟨.b2, false⟩) rfl fun m p n => ?_,
    unpackCompletes_of_operation (v := ⟨.b4, false⟩) rfl fun m p n => ?_,
    unpackCompletes_of_operation (v := ⟨.b8, false⟩) rfl fun m p n => ?_⟩
  · have hplace : n * 2 = 8 * (n / 4) + 2 * (n % 4) := by omega
    exact packedField_of_place m p hplace (by omega)
  · have hplace : n * 4 = 8 * (n / 2) + 4 * (n % 2) := by omega
    exact packedField_of_place m p hplace (by omega)
  · have hplace : n * 8 = 8 * n + 0 := by omega
    refine (packedField_of_place m p hplace (by decide)).trans ?_
    rw [pow_zero, Nat.div_one, Nat.mod_eq_of_lt (BitVec.isLt _)]

/-- Settles O39: the reordered index stays in its byte and counts the slots from the top. -/
theorem unpackReorderedCommandCompletes : Obligations.UnpackReorderedCommandCompletes := by
  refine unpackCompletes_of_operation (v := ⟨.b2, true⟩) rfl fun m p n => ?_
  have hplace : (4 * (n / 4) + 3 - n % 4) * 2 = 8 * (n / 4) + 2 * (3 - n % 4) := by omega
  exact packedField_of_place m p hplace (by omega)

end Sys2Proof.Machine
end

section
/-! The dual multiply-accumulate and the MAC array (42_mac.md; obligations O23, O24). -/

namespace Sys2Proof.Machine

open Sys2Proof.Reference

/-! Sums modulo 2^32. -/

/-- A wrapped number, as a number. -/
theorem wrap32_toInt_eq_bmod (v : Int) : (wrap32 v).toInt = Int.bmod v (2 ^ 32) := BitVec.toInt_ofInt v

/-- Wrapping keeps a number of 32 bits signed. -/
theorem wrap32_toInt_of_fits {v : Int} (hlo : -2 ^ 31 ≤ v) (hhi : v < 2 ^ 31) : (wrap32 v).toInt = v := by
  rw [wrap32_toInt_eq_bmod, Int.bmod_eq_of_le] <;> omega

/-- A running sum that wraps at every step is the exact sum wrapped once. -/
theorem foldl_wrap32_add {α : Type} (f : α → Int) (l : List α) (v : Int) :
    l.foldl (fun s c => wrap32 (s.toInt + f c)) (wrap32 v) = wrap32 (v + (l.map f).sum) := by
  induction l generalizing v with
  | nil => simp
  | cons c l ih =>
    have hstep : wrap32 ((wrap32 v).toInt + f c) = wrap32 (v + f c) := by rw [wrap32_add, wrap32_toInt, ← wrap32_add]
    rw [List.foldl_cons, hstep, ih, List.map_cons, List.sum_cons, add_assoc]

/-- A dual multiply-accumulate on a wrapped sum extends the exact sum (rule R190). -/
theorem dmac_wrap32 (v : Int) (aLo aHi bLo bHi : Half) :
    dmac (wrap32 v) aLo aHi bLo bHi = wrap32 (v + aLo.toInt * bLo.toInt + aHi.toInt * bHi.toInt) := by
  simp only [dmac, wrap32_add, wrap32_toInt]

/-- The zero-point pre-sum, wrapped once (rule R196). -/
theorem zeroOffset_eq (m : Memory) (o : OperandRegs) (j : Nat) :
    zeroOffset m o j = wrap32 (o.zA * ((List.range o.cols).map fun c => (activation m o j c).toInt).sum) := by
  have hsum : columnSum m o j = wrap32 ((List.range o.cols).map fun c => (activation m o j c).toInt).sum := by
    rw [← zero_add (List.sum _)]
    exact foldl_wrap32_add _ _ 0
  rw [zeroOffset, hsum, wrap32_mul, wrap32_toInt, ← wrap32_mul]

/-! One accumulator along the columns. -/

/-- `sum_{c<n} W(r, c) * B_j[c]`, exact. -/
def mmProducts (wb : WeightWidth) (m : Memory) (o : OperandRegs) (r j n : Nat) : Int :=
  ((List.range n).map fun c => (weight wb m o r c : Int) * (activation m o j c).toInt).sum

@[simp] theorem mmProducts_zero (wb : WeightWidth) (m : Memory) (o : OperandRegs) (r j : Nat) :
    mmProducts wb m o r j 0 = 0 := rfl

theorem mmProducts_succ (wb : WeightWidth) (m : Memory) (o : OperandRegs) (r j n : Nat) :
    mmProducts wb m o r j (n + 1) = mmProducts wb m o r j n + weight wb m o r n * (activation m o j n).toInt :=
  List.sum_range_succ _ _

/-- The products of all columns less the zero point's share are the dot product of rule R199. -/
theorem mmDot_eq (wb : WeightWidth) (m : Memory) (o : OperandRegs) (r j : Nat) :
    mmDot wb m o r j = mmProducts wb m o r j o.cols
      - o.zA * ((List.range o.cols).map fun c => (activation m o j c).toInt).sum := by
  simp only [mmDot, mmProducts, sub_eq_add_neg, add_mul, List.sum_map_add, List.sum_map_mul_left, ← neg_mul]

/-- `acc(r, j)` once the columns `0 .. n-1` are accumulated. -/
def accAfter (wb : WeightWidth) (m : Memory) (o : OperandRegs) (r j n : Nat) : Word :=
  wrap32 ((bias m o r).toInt - (zeroOffset m o j).toInt + mmProducts wb m o r j n)

/-- The initial value (rule R195). -/
theorem accAfter_zero (wb : WeightWidth) (m : Memory) (o : OperandRegs) (r j : Nat) :
    accAfter wb m o r j 0 = wrap32 ((bias m o r).toInt - (zeroOffset m o j).toInt) := by
  rw [accAfter, mmProducts_zero, add_zero]

/-- One DMAC takes two columns (rule R197). -/
theorem dmac_accAfter (wb : WeightWidth) (m : Memory) (o : OperandRegs) (r j n : Nat) :
    dmac (accAfter wb m o r j n) (weightLane wb m o r n) (weightLane wb m o r (n + 1)) (activation m o j n)
      (activation m o j (n + 1)) = accAfter wb m o r j (n + 2) := by
  simp only [accAfter, dmac_wrap32, weightLane_toInt, mmProducts_succ, add_assoc]

/-- A DMAC with a zero lane takes one column (rule R198). -/
theorem dmac_accAfter_tail (wb : WeightWidth) (m : Memory) (o : OperandRegs) (r j n : Nat) :
    dmac (accAfter wb m o r j n) (weightLane wb m o r n) 0 (activation m o j n) 0 = accAfter wb m o r j (n + 1) := by
  simp [accAfter, dmac_wrap32, weightLane_toInt, mmProducts_succ, add_assoc]

/-- After all columns the accumulator holds the closed form: the pre-sum takes off what the zero point adds (rule R199). -/
theorem accAfter_cols (wb : WeightWidth) (m : Memory) (o : OperandRegs) (r j : Nat) :
    accAfter wb m o r j o.cols = mmAcc wb m o r j := by
  rw [accAfter, mmAcc, mmDot_eq, zeroOffset_eq]
  simp only [wrap32_add, wrap32_sub, wrap32_toInt]
  rw [sub_add_eq_add_sub, add_sub_assoc]

/-! The array over one row pair. -/

/-- The array with the accumulators of the rows that exist given, those of an absent row kept (rule R194). -/
def MacArray.setRows (o : OperandRegs) (r : Nat) (v : Nat → Nat → Word) : MacArray → MacArray :=
  MacArray.update fun i j a => if rowActive o r i then v i j else a

theorem MacArray.setRows_congr {o : OperandRegs} {r : Nat} {v w : Nat → Nat → Word} (h : ∀ i, ∀ j < 2, v i j = w i j) :
    MacArray.setRows o r v = MacArray.setRows o r w :=
  MacArray.update_congr fun i j hj a => by rw [h i j hj]

/-- An update of the rows that exist changes the values they were given. -/
theorem MacArray.update_setRows (o : OperandRegs) (r : Nat) (f : Nat → Nat → Word → Word) (v : Nat → Nat → Word)
    (a : MacArray) :
    MacArray.update (fun i j x => if rowActive o r i then f i j x else x) (MacArray.setRows o r v a)
      = MacArray.setRows o r (fun i j => f i j (v i j)) a := by
  have hcomp : ∀ i j x, (if rowActive o r i then f i j (if rowActive o r i then v i j else x)
      else (if rowActive o r i then v i j else x)) = if rowActive o r i then f i j (v i j) else x := by
    intro i j x
    split <;> rfl
  simp only [MacArray.setRows, MacArray.update, hcomp]

theorem macInit_eq_setRows (wb : WeightWidth) (m : Memory) (o : OperandRegs) (r : Nat) :
    macInit m o (zeroOffset m o 0) (zeroOffset m o 1) r
      = MacArray.setRows o r fun i j => accAfter wb m o (r + i) j 0 := by
  refine MacArray.setRows_congr fun i j hj => ?_
  rw [accAfter_zero]
  obtain rfl | rfl : j = 0 ∨ j = 1 := by omega
  · rfl
  · rfl

theorem macStep_setRows (wb : WeightWidth) (m : Memory) (o : OperandRegs) (r t : Nat) (a : MacArray) :
    macStep wb m o r t (MacArray.setRows o r (fun i j => accAfter wb m o (r + i) j (2 * t)) a)
      = MacArray.setRows o r (fun i j => accAfter wb m o (r + i) j (2 * (t + 1))) a := by
  rw [macStep, MacArray.update_setRows]
  simp only [dmac_accAfter, Nat.mul_succ]

/-- The steps `0 .. n-1` accumulate the columns `0 .. 2n-1`. -/
theorem foldl_macStep (wb : WeightWidth) (m : Memory) (o : OperandRegs) (r n : Nat) (a : MacArray) :
    (List.range n).foldl (fun a t => macStep wb m o r t a)
        (MacArray.setRows o r (fun i j => accAfter wb m o (r + i) j 0) a)
      = MacArray.setRows o r (fun i j => accAfter wb m o (r + i) j (2 * n)) a := by
  induction n with
  | zero => rfl
  | succ n ih => rw [List.range_succ, List.foldl_append, ih, List.foldl_cons, List.foldl_nil, macStep_setRows]

/-- The tail step takes the last column of an odd `N`, and an even `N` leaves none. -/
theorem macTail_setRows (wb : WeightWidth) (m : Memory) (o : OperandRegs) (r : Nat) (a : MacArray) :
    macTail wb m o r (MacArray.setRows o r (fun i j => accAfter wb m o (r + i) j (2 * (o.cols / 2))) a)
      = MacArray.setRows o r (fun i j => accAfter wb m o (r + i) j o.cols) a := by
  unfold macTail
  split
  · next hodd =>
    have hlast : 2 * (o.cols / 2) = o.cols - 1 := by omega
    have hcols : o.cols - 1 + 1 = o.cols := by omega
    rw [hlast, MacArray.update_setRows]
    simp only [dmac_accAfter_tail, hcols]
  · next heven =>
    have hall : 2 * (o.cols / 2) = o.cols := by omega
    rw [hall, id]

/-- A row pair leaves the closed form in the rows that exist and touches no other accumulator (rules R194, R199). -/
theorem macPair_eq_setRows (wb : WeightWidth) (m : Memory) (o : OperandRegs) (r : Nat) (a : MacArray) :
    macPair wb m o (zeroOffset m o 0) (zeroOffset m o 1) r a
      = MacArray.setRows o r (fun i j => mmAcc wb m o (r + i) j) a := by
  rw [macPair, macInit_eq_setRows wb, foldl_macStep, macTail_setRows]
  simp only [accAfter_cols]

/-- Settles O23: the accumulator is the wrapped sum, read as a number. -/
theorem dualMacExact : Obligations.DualMacExact :=
  fun _ _ _ _ _ => wrap32_toInt_eq_bmod _

/-- Settles O24: the array is the one with its existing rows set to the closed form, row by row. -/
theorem macArrayClosedForm : Obligations.MacArrayClosedForm := by
  refine ⟨fun wb m o r a => ?_, fun wb m o r j => wrap32_toInt_of_fits⟩
  have hkept (i : Nat) (h : ¬ r + i < o.rows) : rowActive o r i = false := decide_eq_false h
  have hset (i : Nat) (h : r + i < o.rows) : rowActive o r i = true := decide_eq_true h
  rw [macPair_eq_setRows]
  refine ⟨fun h => ?_, fun h => ?_, fun h => ?_⟩
  · exact ⟨if_pos (hset 0 h), if_pos (hset 0 h)⟩
  · exact ⟨if_pos (hset 1 h), if_pos (hset 1 h)⟩
  · simp [MacArray.setRows, MacArray.update, hkept 1 h]

end Sys2Proof.Machine
end

section
/-! The two requantizers: affine scale, shift and saturate, and the per-channel thresholds (43_requant.md; obligations O25 to
O29, O58). -/

namespace Sys2Proof.Machine

open Sys2Proof.Reference

/-! The shift split (rule R211) and the shifts. -/

theorem preShift_eq (nZero : Int) : preShift nZero = (-nZero).toNat := by
  unfold preShift
  split <;> omega

theorem postShift_eq (nZero : Int) : postShift nZero = nZero.toNat := by
  unfold postShift
  split <;> omega

theorem shl32_toInt_eq_bmod (s : Word) (n : Nat) : (shl32 s n).toInt = Int.bmod (s.toInt * 2 ^ n) (2 ^ 32) :=
  wrap32_toInt_eq_bmod _

/-- A right shift keeps "not positive". -/
theorem asr_nonpos {v : Int} (h : v ≤ 0) (n : Nat) : asr v n ≤ 0 :=
  (Int.ediv_le_ediv (by positivity) h).trans_eq (Int.zero_ediv _)

/-- A right shift past every bit of a number that is not negative leaves 0. -/
theorem asr_eq_zero {v : Int} {n : Nat} (h : 0 ≤ v) (hlt : v < 2 ^ n) : asr v n = 0 :=
  Int.ediv_eq_zero_of_lt h hlt

/-- A right shift past every bit of a negative number leaves the sign. -/
theorem asr_eq_neg_one {v : Int} {n : Nat} (h : v < 0) (hle : -2 ^ n ≤ v) : asr v n = -1 :=
  Int.ediv_eq_neg_one_of_neg_of_le h (neg_le.1 hle)

/-! The fixed-point multiply (rule R213). -/

/-- The product of two words has 63 bits with its sign. -/
theorem abs_toInt_mul_toInt_le (t m : Word) : |t.toInt * m.toInt| ≤ 2 ^ 62 := by
  have hword (w : Word) : |w.toInt| ≤ 2 ^ 31 := abs_le.2 ⟨w.le_toInt, w.toInt_lt.le⟩
  calc |t.toInt * m.toInt| = |t.toInt| * |m.toInt| := abs_mul _ _
    _ ≤ 2 ^ 31 * 2 ^ 31 := mul_le_mul (hword t) (hword m) (abs_nonneg _) (by norm_num)
    _ = 2 ^ 62 := by norm_num

/-- The upper half of a product lies in `-2^30 .. 2^30`. -/
theorem mulHigh_bounds (t m : Word) : -2 ^ 30 ≤ mulHigh t m.toInt ∧ mulHigh t m.toInt ≤ 2 ^ 30 := by
  obtain ⟨hlo, hhi⟩ := abs_le.1 (abs_toInt_mul_toInt_le t m)
  unfold mulHigh asr
  omega

/-- Factors of opposite signs have no positive upper half. -/
theorem mulHigh_nonpos {t : Word} {m : Int} (ht : 0 ≤ t.toInt) (hm : m ≤ 0) : mulHigh t m ≤ 0 :=
  asr_nonpos (mul_nonpos_of_nonneg_of_nonpos ht hm) 32

@[simp] theorem mulHigh_zero_left (m : Int) : mulHigh 0 m = 0 := by simp [mulHigh, asr]

@[simp] theorem mulHigh_zero_right (t : Word) : mulHigh t 0 = 0 := by simp [mulHigh, asr]

/-! The affine requantizer (rules R212, R214). -/

/-- `u` of rule R212, the scaled accumulator before saturation. -/
def affineScaled (s : Word) (m nZero : Int) : Int := asr (mulHigh (shl32 s (preShift nZero)) m) (postShift nZero)

theorem affineScaled_eq (s : Word) (m nZero : Int) :
    affineScaled s m nZero = Int.bmod (s.toInt * 2 ^ (-nZero).toNat) (2 ^ 32) * m / 2 ^ 32 / 2 ^ nZero.toNat := by
  rw [affineScaled, preShift_eq, postShift_eq, asr, mulHigh, asr, shl32_toInt_eq_bmod]

/-- Without a right shift the scaled accumulator is the upper half of the product. -/
theorem affineScaled_of_nonpos (s : Word) (m : Int) {nZero : Int} (h : nZero ≤ 0) :
    affineScaled s m nZero = mulHigh (shl32 s (-nZero).toNat) m := by
  rw [affineScaled, preShift_eq, postShift_eq, Int.toNat_of_nonpos h, asr, pow_zero, Int.ediv_one]

/-- Without a left shift the accumulator itself is multiplied. -/
theorem affineScaled_of_nonneg (s : Word) (m : Int) {nZero : Int} (h : 0 ≤ nZero) :
    affineScaled s m nZero = asr (mulHigh s m) (postShift nZero) := by
  rw [affineScaled, preShift_eq, Int.toNat_of_nonpos (Int.neg_nonpos_of_nonneg h), shl32_zero]

/-- The clamp of rule R214 as a maximum and a minimum. -/
theorem satU_eq (k : Nat) (u : Int) : satU k u = max 0 (min u (2 ^ k - 1)) := by
  have hpow : (1 : Int) ≤ 2 ^ k := one_le_pow₀ (by norm_num)
  unfold satU clamp
  split
  · omega
  · split <;> omega

/-- The level as a number: the clamp, then `z_out` modulo `2^k`. -/
theorem affine_toInt (s : Word) (m nZero : Int) (k zOut : Nat) :
    (affine s m nZero k zOut : Int) = (satU k (affineScaled s m nZero) + zOut) % 2 ^ k :=
  Int.toNat_of_nonneg (Int.emod_nonneg _ (by positivity))

/-- A scaled accumulator that is not positive leaves only the output zero point (rule R215). -/
theorem affine_of_nonpos {s : Word} {m nZero : Int} (h : affineScaled s m nZero ≤ 0) (k zOut : Nat) :
    satU k (affineScaled s m nZero) = 0 ∧ affine s m nZero k zOut = zOut % 2 ^ k := by
  have hsat : satU k (affineScaled s m nZero) = 0 := satU_of_nonpos h
  refine ⟨hsat, ?_⟩
  have hlevel := affine_toInt s m nZero k zOut
  rw [hsat, zero_add] at hlevel
  exact_mod_cast hlevel

/-- The identity setting undoes its own left shift (rule R216). -/
theorem affineScaled_identity {s : Word} (hlo : -2 ^ 29 < s.toInt) (hhi : s.toInt < 2 ^ 29) :
    affineScaled s (2 ^ 30) (-2) = s.toInt := by
  have hshl : (shl32 s 2).toInt = s.toInt * 2 ^ 2 := wrap32_toInt_of_fits (by omega) (by omega)
  rw [affineScaled_of_nonpos s _ (by norm_num)]
  show (shl32 s 2).toInt * 2 ^ 30 / 2 ^ 32 = s.toInt
  omega

/-- With `n_zero = 0` the scaled accumulator is the upper half of `s * m`. -/
theorem affineScaled_zero (s : Word) (m : Int) : affineScaled s m 0 = s.toInt * m / 2 ^ 32 := by
  rw [affineScaled_of_nonpos s m le_rfl]
  simp [mulHigh, asr]

/-- Settles O27: floor division, and the bounds of the product. -/
theorem fixedPointMultiplyRange : Obligations.FixedPointMultiplyRange := fun t m =>
  ⟨Int.ediv_mul_le _ (by norm_num), Int.lt_ediv_add_one_mul_self _ (by norm_num), mulHigh_bounds t m⟩

/-- Settles O58: each operation of the unit in integers. -/
theorem affineFormula : Obligations.AffineFormula := by
  intro s m n k zOut t u
  rw [affine_toInt, satU_eq, affineScaled_eq]

/-- Settles O25: the setting scales by one; without a left shift the accumulator 10 is scaled to 4 at most. -/
theorem affineIdentitySetting : Obligations.AffineIdentitySetting := by
  refine ⟨fun s k zOut _ _ hlo hhi => ?_, fun m hm => ?_, fun s => affineScaled_zero s _, by decide⟩
  · rw [affine_toInt, affineScaled_identity hlo hhi, satU]
  · have hscaled : affineScaled 10 m.toInt 0 ≤ 4 := by
      have hlt : m.toInt < 2 ^ 31 := m.toInt_lt
      have hten : (10 : Word).toInt = 10 := rfl
      rw [affineScaled_zero, hten]
      omega
    have hlevel := affine_toInt 10 m.toInt 0 4 0
    rw [hm, satU_eq] at hlevel
    omega

/-- Settles O26: in each case the scaled accumulator is not positive. -/
theorem affineCornerCases : Obligations.AffineCornerCases := by
  refine ⟨fun s n k zOut => affine_of_nonpos ?_ k zOut, fun s m n k zOut ht hm => affine_of_nonpos ?_ k zOut,
    fun s m n k zOut hn => ⟨shl32_of_le s hn, (affine_of_nonpos ?_ k zOut).2⟩, fun s m n k zOut hn => ?_, by decide⟩
  · exact asr_nonpos (mulHigh_zero_right _).le _
  · exact asr_nonpos (mulHigh_nonpos ht hm.le) _
  · rw [affineScaled, shl32_of_le s hn, mulHigh_zero_left]
    exact asr_nonpos le_rfl _
  · obtain ⟨hlo, hhi⟩ := mulHigh_bounds s m
    have hpow : (2 : Int) ^ 32 ≤ 2 ^ postShift n.toInt := pow_le_pow_right₀ (by norm_num) hn
    have hzero (hp : 0 ≤ mulHigh s m.toInt) : asr (mulHigh s m.toInt) (postShift n.toInt) = 0 :=
      asr_eq_zero hp (by omega)
    have hsign (hp : mulHigh s m.toInt < 0) : asr (mulHigh s m.toInt) (postShift n.toInt) = -1 :=
      asr_eq_neg_one hp (by omega)
    have hpos : 0 ≤ n.toInt := by
      rw [postShift_eq] at hn
      omega
    refine ⟨hzero, hsign, (affine_of_nonpos ?_ k zOut).2⟩
    rw [affineScaled_of_nonneg s _ hpos]
    obtain hp | hp := le_or_gt 0 (mulHigh s m.toInt)
    · exact (hzero hp).le
    · exact (hsign hp).le.trans (by norm_num)

/-! The threshold requantizer (rules R218, R221). -/

@[simp] theorem thresholds_length (m : Memory) (o : OperandRegs) (k ch : Nat) :
    (thresholds m o k ch).length = 2 ^ k - 1 := by simp [thresholds]

@[simp] theorem thresholds_getElem (m : Memory) (o : OperandRegs) (k ch : Nat) {i : Nat}
    (h : i < (thresholds m o k ch).length) : (thresholds m o k ch)[i] = threshold m o k ch i := by simp [thresholds]

/-- All that the threshold unit answers: no threshold below the level exceeds the cast accumulator, and the level's own
does, where there is one. -/
theorem thresh_spec (m : Memory) (o : OperandRegs) (s : Word) (ch k : Nat) :
    thresh m o s ch k ≤ 2 ^ k - 1 ∧
      (∀ i < thresh m o s ch k, (threshold m o k ch i).toInt ≤ (trunc16 s).toInt) ∧
      (thresh m o s ch k < 2 ^ k - 1 → (trunc16 s).toInt < (threshold m o k ch (thresh m o s ch k)).toInt) := by
  obtain ⟨hle, hbelow, hat⟩ := firstAbove_spec (trunc16 s) (thresholds m o k ch)
  simp only [thresholds_length, thresholds_getElem] at hle hbelow hat
  exact ⟨hle, fun i hi => hbelow i (hi.trans_le hle) hi, hat⟩

/-- A monotonic slice, threshold by threshold. -/
theorem threshold_le_of_monotone {m : Memory} {o : OperandRegs} {k ch : Nat} (hmono : Reference.Monotone (slice m o k ch))
    {i j : Nat} (hij : i ≤ j) (hj : j < 2 ^ k - 1) :
    (threshold m o k ch i).toInt ≤ (threshold m o k ch j).toInt := by
  have hlen : (slice m o k ch).length = 2 ^ k - 1 := thresholds_length m o k ch
  have hle := hmono i j (by omega) (by omega) hij
  simpa only [slice, List.getElem_map, List.getElem_range] using hle

/-- Settles O28: the answer of the threshold unit, its cast read as a number (rule R219). -/
theorem thresholdFirstIndex : Obligations.ThresholdFirstIndex := by
  intro m o s ch k _
  have hspec := thresh_spec m o s ch k
  rwa [trunc16_toInt] at hspec

/-- Settles O29: a bucket above the first index contradicts monotonicity there, and one below it contradicts that the
index is the first. -/
theorem thresholdBucketUnique : Obligations.ThresholdBucketUnique := by
  intro m o s ch k j hmono hj
  obtain ⟨hle, hbelow, hat⟩ := thresh_spec m o s ch k
  constructor
  · rintro rfl
    exact ⟨fun hpos => hbelow _ (Nat.sub_one_lt_of_lt hpos), hat⟩
  · rintro ⟨hlower, hupper⟩
    obtain hlt | heq | hgt := lt_trichotomy (thresh m o s ch k) j
    · have hstep := threshold_le_of_monotone hmono (Nat.le_sub_one_of_lt hlt) (by omega)
      have hexceeds := hat (by omega)
      have hreached := hlower (by omega)
      omega
    · exact heq
    · have hreached := hbelow j hgt
      have hexceeds := hupper (by omega)
      omega

end Sys2Proof.Machine
end

section
/-! The packer against PACK: the slots of each byte of a region are those of rule R231, so the bytes are (obligation O30). -/

namespace Sys2Proof.Machine

open Sys2Proof.Reference

/-- The lowest `n` slots of a number, each put back at its place, are its lowest `n * k` bits; by induction on the slots. -/
theorem sum_slots (k x n : Nat) :
    ((List.range n).map fun m => x / 2 ^ (k * m) % 2 ^ k * 2 ^ (k * m)).sum = x % 2 ^ (k * n) := by
  induction n with
  | zero => simp [Nat.mod_one]
  | succ n ih =>
    have hnext : x % 2 ^ (k * (n + 1)) = x % 2 ^ (k * n) + 2 ^ (k * n) * (x / 2 ^ (k * n) % 2 ^ k) := by
      rw [Nat.mul_succ, Nat.pow_add, Nat.mod_mul]
    rw [hnext, Nat.mul_comm (2 ^ (k * n))]
    simp [List.range_succ, ih]

/-- A byte is the sum of its `8/k` slots. -/
theorem byte_eq_sum_slots {k : Nat} (hk : k ∣ 8) (x : Byte) :
    x = BitVec.ofNat 8 (((List.range (8 / k)).map fun m => x.toNat / 2 ^ (k * m) % 2 ^ k * 2 ^ (k * m)).sum) := by
  rw [sum_slots, Nat.mul_div_cancel' hk, Nat.mod_eq_of_lt x.isLt, BitVec.ofNat_toNat, BitVec.setWidth_eq]

/-- PACK's byte for a list of levels: past the last level the list reads 0, so no slot needs the test `x < L`. -/
theorem packedByte_getD (k : Nat) (l : List Nat) (b : Nat) :
    packedByte k l.length (l.getD · 0) b
      = ((List.range (8 / k)).map fun m => l.getD (b * (8 / k) + m) 0 % 2 ^ k * 2 ^ (k * m)).sum := by
  have hslot (m : Nat) : (if b * (8 / k) + m < l.length then l.getD (b * (8 / k) + m) 0 % 2 ^ k * 2 ^ (k * m) else 0)
      = l.getD (b * (8 / k) + m) 0 % 2 ^ k * 2 ^ (k * m) := by
    split
    · rfl
    · next hpast => rw [List.getD_eq_default _ _ (Nat.le_of_not_lt hpast), Nat.zero_mod, Nat.zero_mul]
  simp only [packedByte, hslot]

/-- Slot `m` of byte `b` is the field of element `b*(8/k) + m` (rule R231). -/
theorem packRegion_slot {k : Nat} (hk : k = 4 ∨ k = 2) (l : List Nat) (p : PackBuf) (b : Nat) {m : Nat} (hm : m < 8 / k) :
    ((packRegion k l p).2.getD b 0).toNat / 2 ^ (k * m) % 2 ^ k = l.getD (b * (8 / k) + m) 0 % 2 ^ k := by
  have hplace : (b * (8 / k) + m) * k / 8 = b ∧ (b * (8 / k) + m) * k % 8 = k * m := by
    rcases hk with rfl | rfl <;> omega
  obtain ⟨hbyte, hslot⟩ := hplace
  have hfield := packRegion_field hk l p (b * (8 / k) + m)
  rwa [hbyte, hslot] at hfield

/-- Byte `b` of a region is the byte of PACK (rule R231), 0 past the region on both sides. -/
theorem packRegion_getD {k : Nat} (hk : k = 4 ∨ k = 2) (l : List Nat) (p : PackBuf) (b : Nat) :
    (packRegion k l p).2.getD b 0 = BitVec.ofNat 8 (packedByte k l.length (l.getD · 0) b) := by
  have hdvd : k ∣ 8 := by rcases hk with rfl | rfl <;> decide
  rw [byte_eq_sum_slots hdvd ((packRegion k l p).2.getD b 0), packedByte_getD]
  congr 2
  refine List.map_congr_left fun m hm => ?_
  rw [packRegion_slot hk l p b (List.mem_range.1 hm)]

/-- Settles O30: the region has as many bytes as PACK, each with PACK's slots, and its writes put byte `b` at `base + b`. -/
theorem packerMatchesPlacement : Obligations.PackerMatchesPlacement := by
  intro k levels p hk
  have hlen : (packRegion k levels p).2.length = cdiv (levels.length * k) 8 := by
    rcases hk with rfl | rfl
    · exact packRegion4_length levels p
    · exact packRegion2_length levels p
  have hbyte (b : Nat) (hb : b < (packRegion k levels p).2.length) :
      (packRegion k levels p).2[b] = BitVec.ofNat 8 (packedByte k levels.length (levels.getD · 0) b) := by
    rw [← List.getD_eq_getElem _ 0 hb, packRegion_getD hk]
  rw [← hlen]
  refine ⟨rfl, fun b hb => ?_, fun m base hfit b hb => ?_⟩
  · rw [List.getElem?_eq_getElem hb, hbyte b hb]
  · rw [Memory.read_writeAll_byteWrites m base hfit hb, hbyte b hb]

end Sys2Proof.Machine
end

section
/-! The matrix engine's commands run to their completion (45_matmul.md; obligations O35, O36). -/

namespace Sys2Proof.Machine

open Sys2Proof.Reference

/-! The levels of a column (rule R249). -/

/-- `level(r, j)` of a variant, from the closed form of its accumulator. -/
def mmLevel (v : MmVariant) (m : Memory) (o : OperandRegs) (j r : Nat) : Nat := requantize v m o (mmAcc v.wb m o r j) r

/-- The levels of column `j` for the rows `r .. r+n-1`. -/
def columnLevels (v : MmVariant) (m : Memory) (o : OperandRegs) (j r n : Nat) : List Nat :=
  (List.range' r n).map (mmLevel v m o j)

@[simp] theorem columnLevels_length (v : MmVariant) (m : Memory) (o : OperandRegs) (j r n : Nat) :
    (columnLevels v m o j r n).length = n := by simp [columnLevels]

theorem columnLevels_append (v : MmVariant) (m : Memory) (o : OperandRegs) (j n n' : Nat) :
    columnLevels v m o j 0 n ++ columnLevels v m o j n n' = columnLevels v m o j 0 (n + n') := by
  have hrows := List.range'_append_1 (s := 0) (m := n) (n := n')
  rw [Nat.zero_add] at hrows
  rw [columnLevels, columnLevels, columnLevels, ← List.map_append, hrows]

theorem columnLevels_getD (v : MmVariant) (m : Memory) (o : OperandRegs) (j : Nat) {r n : Nat} (h : r < n) :
    (columnLevels v m o j 0 n).getD r 0 = mmLevel v m o j r := by
  simp [columnLevels, h]

/-- A row pair appends the levels of its rows that exist to each column (rules R194, R251). -/
theorem mmPair_levels (v : MmVariant) (m : Memory) (o : OperandRegs) (e : MmRun) {r : Nat} (hr : r < o.rows) :
    (mmPair v m o (zeroOffset m o 0) (zeroOffset m o 1) e r).lv0 = e.lv0 ++ columnLevels v m o 0 r (min 2 (o.rows - r)) ∧
    (mmPair v m o (zeroOffset m o 0) (zeroOffset m o 1) e r).lv1
      = e.lv1 ++ columnLevels v m o 1 r (min 2 (o.rows - r)) := by
  obtain ⟨hfirst, hsecond, -⟩ := macArrayClosedForm.1 v.wb m o r e.mac
  obtain ⟨h00, h01⟩ := hfirst hr
  by_cases hpair : r + 1 < o.rows
  · obtain ⟨h10, h11⟩ := hsecond hpair
    have htwo : min 2 (o.rows - r) = 2 := by omega
    simp [mmPair, rowActive, hpair, htwo, h00, h01, h10, h11, columnLevels, mmLevel, List.range']
  · have hone : min 2 (o.rows - r) = 1 := by omega
    simp [mmPair, rowActive, hpair, hone, h00, h01, columnLevels, mmLevel]

/-- The engine after its first `n` row pairs. -/
def mmRowsAfter (v : MmVariant) (m : Memory) (o : OperandRegs) (a : MacArray) (n : Nat) : MmRun :=
  (List.range n).foldl (fun e i => mmPair v m o (zeroOffset m o 0) (zeroOffset m o 1) e (2 * i)) ⟨a, [], []⟩

theorem mmRows_eq (v : MmVariant) (m : Memory) (o : OperandRegs) (a : MacArray) :
    mmRows v m o a = mmRowsAfter v m o a (cdiv o.rows 2) := rfl

theorem mmRowsAfter_succ (v : MmVariant) (m : Memory) (o : OperandRegs) (a : MacArray) (n : Nat) :
    mmRowsAfter v m o a (n + 1)
      = mmPair v m o (zeroOffset m o 0) (zeroOffset m o 1) (mmRowsAfter v m o a n) (2 * n) := by
  rw [mmRowsAfter, List.range_succ, List.foldl_append]
  rfl

/-- After `n` row pairs each column holds the levels of the first `2n` rows, as far as they exist. -/
theorem mmRowsAfter_levels (v : MmVariant) (m : Memory) (o : OperandRegs) (a : MacArray) {n : Nat} (hn : n ≤ cdiv o.rows 2) :
    (mmRowsAfter v m o a n).lv0 = columnLevels v m o 0 0 (min (2 * n) o.rows) ∧
    (mmRowsAfter v m o a n).lv1 = columnLevels v m o 1 0 (min (2 * n) o.rows) := by
  induction n with
  | zero => simp [mmRowsAfter, columnLevels]
  | succ n ih =>
    have hlt : n * 2 < o.rows := (cdiv_le_iff (by decide)).1 hn
    have hbefore : min (2 * n) o.rows = 2 * n := by omega
    have hafter : 2 * n + min 2 (o.rows - 2 * n) = min (2 * (n + 1)) o.rows := by omega
    obtain ⟨h0, h1⟩ := ih (Nat.le_of_succ_le hn)
    obtain ⟨hstep0, hstep1⟩ := mmPair_levels v m o (mmRowsAfter v m o a n) (r := 2 * n) (by omega)
    rw [mmRowsAfter_succ, hstep0, hstep1, h0, h1, hbefore, columnLevels_append, columnLevels_append, hafter]
    exact ⟨rfl, rfl⟩

/-- The engine's two columns are the levels of all rows, whatever the array held before. -/
theorem mmRows_levels (v : MmVariant) (m : Memory) (o : OperandRegs) (a : MacArray) :
    (mmRows v m o a).lv0 = columnLevels v m o 0 0 o.rows ∧ (mmRows v m o a).lv1 = columnLevels v m o 1 0 o.rows := by
  have h := mmRowsAfter_levels v m o a (Nat.le_refl (cdiv o.rows 2))
  have hall : min (2 * cdiv o.rows 2) o.rows = o.rows := by unfold cdiv; omega
  rwa [hall, ← mmRows_eq] at h

/-! The bytes of the two regions (rule R247). -/

theorem packedByte_congr {k L : Nat} {l l' : Nat → Nat} (h : ∀ r < L, l r = l' r) (b : Nat) :
    packedByte k L l b = packedByte k L l' b := by
  unfold packedByte
  congr 1
  refine List.map_congr_left fun m _ => ?_
  split
  · next hrow => rw [h _ hrow]
  · rfl

/-- The bytes of region `j`: the packed levels of column `j`, each region with its own packer. -/
def regionBytes (v : MmVariant) (s : State) (j : Nat) : List Byte :=
  (packRegion v.width.bits (columnLevels v s.mem s.snap j 0 s.snap.rows) (if j = 0 then s.packer0 else s.packer1)).2

@[simp] theorem regionBytes_length (v : MmVariant) (s : State) (j : Nat) :
    (regionBytes v s j).length = mmRegionLen v s.snap := by
  rw [regionBytes, packRegion_length, columnLevels_length, mmRegionLen]

theorem regionBytes_getD (v : MmVariant) (s : State) (j b : Nat) :
    (regionBytes v s j).getD b 0 = BitVec.ofNat 8 (packedByte v.width.bits s.snap.rows (mmLevel v s.mem s.snap j) b) := by
  have hk : v.width.bits = 4 ∨ v.width.bits = 2 := by
    cases v.width
    · exact .inl rfl
    · exact .inr rfl
  rw [regionBytes, packRegion_getD hk, columnLevels_length]
  exact congrArg _ (packedByte_congr (fun r hr => columnLevels_getD _ _ _ _ hr) b)

/-- Both regions fit in the address space: `R` has 16 bits and a level at most 4. -/
theorem mmRegionLen_le (v : MmVariant) (o : OperandRegs) : 2 * mmRegionLen v o ≤ 2 ^ 32 := by
  have hrows : o.rows < 2 ^ 16 := BitVec.isLt _
  have hbits : v.width.bits ≤ 4 := by cases v.width <;> decide
  have hlevels := Nat.mul_le_mul (Nat.le_of_lt hrows) hbits
  unfold mmRegionLen cdiv
  omega

theorem byteWrites_append (base : Word) (l l' : List Byte) :
    byteWrites base (l ++ l') = byteWrites base l ++ byteWrites (addr base l.length) l' := by
  have hshift : l'.zipIdx l.length = l'.zipIdx.map (Prod.map id (· + l.length)) :=
    (List.map_snd_add_zipIdx_eq_zipIdx (k := 0)).symm
  simp [byteWrites, List.zipIdx_append, hshift, addr_addr, Nat.add_comm]

/-- The second region begins where the first ends, so MM writes one run of bytes from OUT. -/
theorem operationWrites_mm (v : MmVariant) (s : State) :
    operationWrites (.mm v) s = byteWrites s.snap.out (regionBytes v s 0 ++ regionBytes v s 1) := by
  obtain ⟨h0, h1⟩ := mmRows_levels v s.mem s.snap s.mac
  rw [byteWrites_append, regionBytes_length]
  simp only [operationWrites, h0, h1, mmRegion, regionBytes, Nat.zero_mul, Nat.one_mul, addr_zero, if_true, one_ne_zero,
    if_false]

/-- After the writes of MM byte `b` of region `j` is PACK's byte of the levels of column `j`. -/
theorem read_writeAll_mm (v : MmVariant) (s : State) {j b : Nat} (hj : j < 2) (hb : b < mmRegionLen v s.snap) :
    (s.mem.writeAll (operationWrites (.mm v) s)).read (addr s.snap.out (j * mmRegionLen v s.snap + b))
      = BitVec.ofNat 8 (packedByte v.width.bits s.snap.rows (mmLevel v s.mem s.snap j) b) := by
  have hlen : (regionBytes v s 0 ++ regionBytes v s 1).length = 2 * mmRegionLen v s.snap := by simp [Nat.two_mul]
  have hfit := mmRegionLen_le v s.snap
  have hj' : j = 0 ∨ j = 1 := by omega
  have hin : j * mmRegionLen v s.snap + b < 2 * mmRegionLen v s.snap := by rcases hj' with rfl | rfl <;> omega
  rw [operationWrites_mm, Memory.read_writeAll_byteWrites _ _ (by omega) (by omega), ← List.getD_eq_getElem _ 0,
    ← regionBytes_getD]
  rcases hj' with rfl | rfl
  · rw [Nat.zero_mul, Nat.zero_add, List.getD_append _ _ _ _ (by simpa using hb)]
  · rw [List.getD_append_right _ _ _ _ (by simp), regionBytes_length, Nat.one_mul, Nat.add_sub_cancel_left]

/-- A byte of neither region is not written. -/
theorem read_writeAll_mm_other (v : MmVariant) (s : State) {a : Word}
    (h : ∀ x < 2 * mmRegionLen v s.snap, addr s.snap.out x ≠ a) :
    (s.mem.writeAll (operationWrites (.mm v) s)).read a = s.mem.read a := by
  rw [operationWrites_mm]
  refine Memory.read_writeAll_byteWrites_other _ fun x hx => h x ?_
  simpa [Nat.two_mul] using hx

/-! The commands. -/

/-- A clean MM command completes with the packed levels of its variant. -/
theorem mmCompletes_of_operation {i : Instr} {v : MmVariant} (hop : operationOf i = .mm v) :
    MmCompletes i v.width.bits (mmLevel v) := by
  intro s hclean
  have ⟨hside, hrefused, _⟩ := hclean
  have hnotDw : i = .dwThrO2 → s.snap.chIn = s.snap.chOut := by
    rintro rfl
    cases hop
  obtain ⟨t, hexec, hmem, hresult, hfault, hcode⟩ := exec_ok hnotDw hside hrefused
  obtain ⟨hframe, -⟩ := noCommandWritesOutsideWriteSet i s t hexec
  rw [okMemory_clean hclean, hop] at hmem
  rw [hop] at hresult
  refine ⟨t, hexec, hframe, hcode, hfault, hresult, fun j hj b hb => ?_, fun a ha => ?_⟩
  · rw [hmem]
    exact read_writeAll_mm v s hj hb
  · rw [hmem]
    exact read_writeAll_mm_other v s ha

/-- Policy A: the level is the affine one (43_requant.md rule R212). -/
theorem mmLevel_fold (wb : WeightWidth) (w : LevelWidth) : mmLevel ⟨.fold, wb, w⟩ = mmFoldLevel wb w.bits := rfl

/-- Policy B: the level is the threshold one, with the row as channel id (43_requant.md rule R218). -/
theorem mmLevel_thr (wb : WeightWidth) (w : LevelWidth) : mmLevel ⟨.thr, wb, w⟩ = mmThrLevel wb w.bits := rfl

theorem mmCompletes_fold {i : Instr} {wb : WeightWidth} {w : LevelWidth} (hop : operationOf i = .mm ⟨.fold, wb, w⟩) :
    MmCompletes i w.bits (mmFoldLevel wb w.bits) :=
  mmLevel_fold wb w ▸ mmCompletes_of_operation (v := ⟨.fold, wb, w⟩) hop

theorem mmCompletes_thr {i : Instr} {wb : WeightWidth} {w : LevelWidth} (hop : operationOf i = .mm ⟨.thr, wb, w⟩) :
    MmCompletes i w.bits (mmThrLevel wb w.bits) :=
  mmLevel_thr wb w ▸ mmCompletes_of_operation (v := ⟨.thr, wb, w⟩) hop

/-- Settles O35: each fold word selects its variant of the one engine. -/
theorem mmFoldCommandsComplete : Obligations.MmFoldCommandsComplete :=
  ⟨mmCompletes_fold (w := .o4) rfl, mmCompletes_fold (w := .o2) rfl, mmCompletes_fold (w := .o4) rfl,
    mmCompletes_fold (w := .o2) rfl⟩

/-- Settles O36: each threshold word selects its variant of the one engine. -/
theorem mmThresholdCommandsComplete : Obligations.MmThresholdCommandsComplete :=
  ⟨mmCompletes_thr (w := .o4) rfl, mmCompletes_thr (w := .o2) rfl, mmCompletes_thr (w := .o4) rfl,
    mmCompletes_thr (w := .o2) rfl⟩

end Sys2Proof.Machine
end

section
/-! The depthwise engine's lanes and levels (46_depthwise.md; obligations O32 to O34), and its channel check (O40). -/

namespace Sys2Proof.Machine

open Sys2Proof.Reference

/-! The lanes of a channel group (rule R274). -/

/-- The lanes of group `g` with those of the channels that exist given, the others kept (log entry 11). -/
def LaneAccs.setChannels (o : OperandRegs) (g : Nat) (v : Nat → Word) : LaneAccs → LaneAccs :=
  LaneAccs.update fun l a => if 4 * g + l < o.chIn then v (4 * g + l) else a

/-- An update of the channels that exist changes the values they were given. -/
theorem LaneAccs.update_setChannels (o : OperandRegs) (g : Nat) (f : Nat → Word → Word) (v : Nat → Word) (a : LaneAccs) :
    LaneAccs.update (fun l x => if 4 * g + l < o.chIn then f (4 * g + l) x else x) (LaneAccs.setChannels o g v a)
      = LaneAccs.setChannels o g (fun c => f c (v c)) a := by
  have hcomp : ∀ l x, (if 4 * g + l < o.chIn then f (4 * g + l) (if 4 * g + l < o.chIn then v (4 * g + l) else x)
      else (if 4 * g + l < o.chIn then v (4 * g + l) else x))
        = if 4 * g + l < o.chIn then f (4 * g + l) (v (4 * g + l)) else x := by
    intro l x
    split <;> rfl
  simp only [LaneAccs.setChannels, LaneAccs.update, hcomp]

/-- Lane `l` of a group whose channels were given. -/
theorem LaneAccs.toList_setChannels (o : OperandRegs) (g : Nat) (v : Nat → Word) (a : LaneAccs) {l : Nat} (hl : l < 4) :
    (LaneAccs.setChannels o g v a).toList[l]?
      = if 4 * g + l < o.chIn then some (v (4 * g + l)) else a.toList[l]? := by
  match l, hl with
  | 0, _ | 1, _ | 2, _ | 3, _ => exact apply_ite some _ _ _

/-- One cell adds its term to every channel that exists, a padding cell nothing. -/
theorem laneCell_setChannels (m : Memory) (o : OperandRegs) (p : Nat × Nat) (g : Nat) (v : Nat → Word) (a : LaneAccs)
    (cell : Nat × Nat) :
    laneCell m o p g (LaneAccs.setChannels o g v a) cell
      = LaneAccs.setChannels o g (fun c => wrap32 ((v c).toInt + dwTerm m o p c cell)) a := by
  cases hin : dwInBounds o p cell with
  | true =>
    simp only [laneCell, hin, if_true, dwTerm]
    refine (LaneAccs.update_setChannels o g
      (fun c x => laneMac x (stagedByte m o p cell c) o.zIn (dwWeight m o cell.1 cell.2 c) o.zWt) v a).trans ?_
    simp only [laneMac, stagedByte, hin, if_true]
  | false => simp only [laneCell, hin, Bool.false_eq_true, if_false, dwTerm, add_zero, wrap32_toInt]

/-- A list of cells accumulates in each channel on its own. -/
theorem foldl_laneCell_setChannels (m : Memory) (o : OperandRegs) (p : Nat × Nat) (g : Nat) (a : LaneAccs)
    (cells : List (Nat × Nat)) (v : Nat → Word) :
    cells.foldl (laneCell m o p g) (LaneAccs.setChannels o g v a)
      = LaneAccs.setChannels o g
          (fun c => cells.foldl (fun s cell => wrap32 (s.toInt + dwTerm m o p c cell)) (v c)) a := by
  induction cells generalizing v with
  | nil => rfl
  | cons cell cells ih =>
    rw [List.foldl_cons, laneCell_setChannels, ih]
    rfl

/-- A channel group leaves the closed form in its channels and touches no other lane. -/
theorem laneGroup_eq_setChannels (m : Memory) (o : OperandRegs) (p : Nat × Nat) (g : Nat) (a : LaneAccs) :
    laneGroup m o p g a = LaneAccs.setChannels o g (dwAcc m o p) a := by
  have hsum (c : Nat) : (dwCells o).foldl (fun s cell => wrap32 (s.toInt + dwTerm m o p c cell)) (bias m o c)
      = dwAcc m o p c := by
    rw [dwAcc, ← foldl_wrap32_add, wrap32_toInt]
  refine (foldl_laneCell_setChannels m o p g a (dwCells o) (bias m o)).trans ?_
  simp only [hsum]

/-- Settles O32: bias and cells set the channels that exist, lane by lane. -/
theorem depthwiseLanesClosedForm : Obligations.DepthwiseLanesClosedForm := by
  intro m o p g a l hl
  rw [laneGroup_eq_setChannels]
  exact LaneAccs.toList_setChannels o g _ a hl

/-- Where no cell is in bounds, the sum of rule R274 is empty. -/
theorem dwAcc_of_padding {o : OperandRegs} {p : Nat × Nat} (h : ∀ cell ∈ dwCells o, dwInBounds o p cell = false)
    (m : Memory) (c : Nat) : dwAcc m o p c = bias m o c := by
  have hzero : ∀ x ∈ (dwCells o).map (dwTerm m o p c), x = 0 := by
    intro x hx
    obtain ⟨cell, hcell, rfl⟩ := List.mem_map.1 hx
    simp [dwTerm, h cell hcell]
  rw [dwAcc, List.sum_eq_zero hzero, add_zero, wrap32_toInt]

/-- Settles O33: the lane holds the closed form, which is the bias. -/
theorem depthwisePaddingLaw : Obligations.DepthwisePaddingLaw := by
  intro m o p g a hout l hl hc
  rw [depthwiseLanesClosedForm m o p g a l hl, if_pos hc, dwAcc_of_padding hout]

/-! The levels of a pixel (rule R275). -/

/-- The levels of the channels `0 .. n-1` of a pixel. -/
def channelLevels (m : Memory) (o : OperandRegs) (p : Nat × Nat) (n : Nat) : List Nat :=
  (List.range n).map (dwLevel m o p)

@[simp] theorem channelLevels_length (m : Memory) (o : OperandRegs) (p : Nat × Nat) (n : Nat) :
    (channelLevels m o p n).length = n := by simp [channelLevels]

theorem channelLevels_getElem? (m : Memory) (o : OperandRegs) (p : Nat × Nat) {c n : Nat} (h : c < n) :
    (channelLevels m o p n)[c]? = some (dwLevel m o p c) := by simp [channelLevels, h]

/-- A channel group answers the levels of its channels that exist. -/
theorem groupLevels_laneGroup (m : Memory) (o : OperandRegs) (p : Nat × Nat) (g : Nat) (a : LaneAccs) :
    groupLevels m o g (laneGroup m o p g a)
      = (List.range (min (o.chIn - 4 * g) 4)).map fun l => dwLevel m o p (4 * g + l) := by
  refine List.ext_getElem (by simp [groupLevels_length]) fun l hl _ => ?_
  rw [groupLevels_length] at hl
  have hlane := depthwiseLanesClosedForm m o p g a l (by omega)
  rw [if_pos (by omega)] at hlane
  obtain ⟨_, hacc⟩ := List.getElem?_eq_some_iff.1 hlane
  simp only [groupLevels, List.getElem_map, List.getElem_zipIdx, List.getElem_take, List.getElem_range, hacc, Nat.zero_add]
  rfl

/-- The engine after the first `n` channel groups of a pixel. -/
def pixelLevelsAfter (m : Memory) (o : OperandRegs) (p : Nat × Nat) (a : LaneAccs) (n : Nat) : LaneAccs × List Nat :=
  (List.range n).foldl (fun e g => let b := laneGroup m o p g e.1; (b, e.2 ++ groupLevels m o g b)) (a, [])

theorem pixelLevels_eq (m : Memory) (o : OperandRegs) (p : Nat × Nat) (a : LaneAccs) :
    pixelLevels m o p a = pixelLevelsAfter m o p a (cdiv o.chIn 4) := rfl

theorem pixelLevelsAfter_succ (m : Memory) (o : OperandRegs) (p : Nat × Nat) (a : LaneAccs) (n : Nat) :
    (pixelLevelsAfter m o p a (n + 1)).2
      = (pixelLevelsAfter m o p a n).2
          ++ groupLevels m o n (laneGroup m o p n (pixelLevelsAfter m o p a n).1) := by
  rw [pixelLevelsAfter, List.range_succ, List.foldl_append]
  rfl

/-- After `n` groups the levels are those of the first `4n` channels, as far as they exist. -/
theorem pixelLevelsAfter_levels (m : Memory) (o : OperandRegs) (p : Nat × Nat) (a : LaneAccs) {n : Nat}
    (hn : n ≤ cdiv o.chIn 4) : (pixelLevelsAfter m o p a n).2 = channelLevels m o p (min (4 * n) o.chIn) := by
  induction n with
  | zero => simp [pixelLevelsAfter, channelLevels]
  | succ n ih =>
    have hlt : n * 4 < o.chIn := (cdiv_le_iff (by decide)).1 hn
    have hbefore : min (4 * n) o.chIn = 4 * n := by omega
    have hafter : min (4 * (n + 1)) o.chIn = 4 * n + min (o.chIn - 4 * n) 4 := by omega
    rw [pixelLevelsAfter_succ, ih (Nat.le_of_succ_le hn), groupLevels_laneGroup, hbefore, hafter, channelLevels,
      channelLevels, List.range_add, List.map_append, List.map_map]
    rfl

/-- A pixel's levels are those of all its channels, whatever the lanes held before. -/
theorem pixelLevels_eq_channelLevels (m : Memory) (o : OperandRegs) (p : Nat × Nat) (a : LaneAccs) :
    (pixelLevels m o p a).2 = channelLevels m o p o.chIn := by
  have hall : min (4 * cdiv o.chIn 4) o.chIn = o.chIn := by unfold cdiv; omega
  rw [pixelLevels_eq, pixelLevelsAfter_levels m o p a le_rfl, hall]

/-! Channel independence (rule R272). -/

section
variable {m m' : Memory} {o : OperandRegs} {c : Nat}

/-- A cell's term uses one channel of the input and of the weights. -/
theorem dwTerm_congr (hinput : ∀ y < o.inDim, ∀ x < o.inDim, input m o y x c = input m' o y x c)
    (hweight : ∀ ky < o.kdim, ∀ kx < o.kdim, dwWeight m o ky kx c = dwWeight m' o ky kx c) (p : Nat × Nat)
    {cell : Nat × Nat} (hcell : cell ∈ dwCells o) : dwTerm m o p c cell = dwTerm m' o p c cell := by
  obtain ⟨hky, hkx⟩ := mem_dwCells.1 hcell
  unfold dwTerm
  split
  · next hin =>
    obtain ⟨hy0, hy, hx0, hx⟩ := of_decide_eq_true hin
    rw [hinput _ (by omega) _ (by omega), hweight _ hky _ hkx]
  · rfl

/-- A level uses one channel of the input, of the weights, of the bias and of the thresholds. -/
theorem dwLevel_congr (hinput : ∀ y < o.inDim, ∀ x < o.inDim, input m o y x c = input m' o y x c)
    (hweight : ∀ ky < o.kdim, ∀ kx < o.kdim, dwWeight m o ky kx c = dwWeight m' o ky kx c)
    (hbias : bias m o c = bias m' o c) (hthr : ∀ i < 3, threshold m o 2 c i = threshold m' o 2 c i) (p : Nat × Nat) :
    dwLevel m o p c = dwLevel m' o p c := by
  have hacc : dwAcc m o p c = dwAcc m' o p c := by
    rw [dwAcc, dwAcc, hbias, List.map_congr_left fun cell hcell => dwTerm_congr hinput hweight p hcell]
  have hslice : slice m o 2 c = slice m' o 2 c := List.map_congr_left fun i hi => hthr i (List.mem_range.1 hi)
  rw [dwLevel, dwLevel, hacc, hslice]

end

/-- Settles O34: entry `c` of the levels is the level of channel `c`, in closed form. -/
theorem depthwiseChannelsIndependent : Obligations.DepthwiseChannelsIndependent := by
  intro m m' o p a a' c hc hinput hweight hbias hthr
  rw [pixelLevels_eq_channelLevels, pixelLevels_eq_channelLevels, channelLevels_getElem? m o p hc,
    channelLevels_getElem? m' o p hc, dwLevel_congr hinput hweight hbias hthr]

/-! The channel check (rule R271). -/

/-- Settles O40: START and the engine each compare the channels before any data access. -/
theorem depthwiseMismatchCompletes : Obligations.DepthwiseMismatchCompletes := by
  refine ⟨fun s hidle hdecode hch => ?_, fun s hch => ⟨_, runDw_of_mismatch hch, ?_⟩⟩
  · have hcode := immediateCode_of_mismatch hdecode hch
    obtain ⟨-, -, hmem, hresult, hfault, -⟩ := requestStart_frame s
    obtain ⟨-, -, herrcode⟩ := requestStart_completed hidle hcode
    exact ⟨requestStart_of_immediateCode hidle hcode, herrcode, hmem, hresult, hfault⟩
  · exact ⟨completedFrame_complete _ s _ _ _ _, rfl, rfl, rfl, rfl⟩

end Sys2Proof.Machine
end

section
/-! The depthwise command runs to its completion (46_depthwise.md; obligation O37). -/

namespace Sys2Proof.Machine

open Sys2Proof.Reference

/-! The writes of a pixel (rules R275, R276, R280). -/

/-- The bytes of an output pixel: its levels, packed. -/
def pixelBytes (m : Memory) (o : OperandRegs) (p : Nat × Nat) : List Byte :=
  (List.range (dwPixelLen o)).map fun b => BitVec.ofNat 8 (packedByte 2 o.chIn (dwLevel m o p) b)

@[simp] theorem pixelBytes_length (m : Memory) (o : OperandRegs) (p : Nat × Nat) :
    (pixelBytes m o p).length = dwPixelLen o := by simp [pixelBytes]

/-- The packer emits a pixel's bytes, whatever the lanes and its buffer held before. -/
theorem packRegion_pixelLevels (m : Memory) (o : OperandRegs) (p : Nat × Nat) (a : LaneAccs) (b : PackBuf) :
    (packRegion 2 (pixelLevels m o p a).2 b).2 = pixelBytes m o p := by
  have hlen : (packRegion 2 (pixelLevels m o p a).2 b).2.length = (pixelBytes m o p).length := by
    rw [packRegion2_length, pixelLevels_length, pixelBytes_length, dwPixelLen]
    unfold cdiv
    omega
  refine List.ext_getElem hlen fun i hi _ => ?_
  rw [← List.getD_eq_getElem _ 0 hi, packRegion_getD (.inr rfl), pixelLevels_eq_channelLevels, channelLevels_length]
  simp only [pixelBytes, List.getElem_map, List.getElem_range]
  refine congrArg _ (packedByte_congr (fun c hc => ?_) i)
  rw [List.getD_eq_getElem?_getD, channelLevels_getElem? m o p hc, Option.getD_some]

/-- The writes of one pixel: its patch into the column buffer, then its bytes into the output. -/
def pixelWrites (m : Memory) (o : OperandRegs) (p : Nat × Nat) : List (Word × Byte) :=
  im2colWrites m o p ++ byteWrites (dwPixelAddr o p) (pixelBytes m o p)

theorem dwPixel_writes (m : Memory) (o : OperandRegs) (e : DwRun) (p : Nat × Nat) :
    (dwPixel m o e p).writes = e.writes ++ pixelWrites m o p := by
  simp only [dwPixel, packRegion_pixelLevels, pixelWrites, List.append_assoc]

theorem foldl_dwPixel_writes (m : Memory) (o : OperandRegs) (l : List (Nat × Nat)) (e : DwRun) :
    (l.foldl (dwPixel m o) e).writes = e.writes ++ l.flatMap (pixelWrites m o) := by
  induction l generalizing e with
  | nil => simp
  | cons p l ih => rw [List.foldl_cons, ih, dwPixel_writes, List.flatMap_cons, List.append_assoc]

/-- DW makes the writes of its pixels, row-major; no hidden register enters them. -/
theorem operationWrites_dw (s : State) : operationWrites .dw s = (dwPixels s.snap).flatMap (pixelWrites s.mem s.snap) :=
  foldl_dwPixel_writes s.mem s.snap (dwPixels s.snap) ⟨s.lanes, s.packer0, []⟩

/-- The writes of a patch: the staged byte of each channel of each cell. -/
theorem mem_im2colWrites {m : Memory} {o : OperandRegs} {p : Nat × Nat} {w : Word × Byte} :
    w ∈ im2colWrites m o p ↔ ∃ ky < o.kdim, ∃ kx < o.kdim, ∃ c < o.chIn,
      w = (addr o.col ((ky * o.kdim + kx) * o.chIn + c), dwStaged m o p (ky, kx) c) := by
  simp only [im2colWrites, List.mem_flatMap, List.mem_map, List.mem_range, Prod.exists, mem_dwCells]
  constructor
  · rintro ⟨ky, kx, ⟨hky, hkx⟩, c, hc, rfl⟩
    exact ⟨ky, hky, kx, hkx, c, hc, rfl⟩
  · rintro ⟨ky, hky, kx, hkx, c, hc, rfl⟩
    exact ⟨ky, kx, ⟨hky, hkx⟩, c, hc, rfl⟩

/-- The writes of a pixel's bytes: the packed bytes from the pixel's place in the output. -/
theorem mem_byteWrites_pixelBytes {m : Memory} {o : OperandRegs} {p : Nat × Nat} {w : Word × Byte} :
    w ∈ byteWrites (dwPixelAddr o p) (pixelBytes m o p) ↔ ∃ b < dwPixelLen o,
      w = (addr o.out ((p.1 * o.outDim + p.2) * dwPixelLen o + b),
        BitVec.ofNat 8 (packedByte 2 o.chIn (dwLevel m o p) b)) := by
  simp [mem_byteWrites, pixelBytes, dwPixelAddr, addr_addr]

/-! The two regions of WS (rule R278). -/

/-- The output and the column buffer fit in the address space and share no byte. -/
structure DwRegions (o : OperandRegs) : Prop where
  outFits : o.outDim * o.outDim * dwPixelLen o < 2 ^ 32
  colFits : o.kdim * o.kdim * o.chIn < 2 ^ 32
  disjoint : ∀ i < o.outDim * o.outDim * dwPixelLen o, ∀ j < o.kdim * o.kdim * o.chIn, addr o.out i ≠ addr o.col j

/-- A clean DW with something to compute has such regions. -/
theorem DwRegions.of_clean {s : State} (hclean : OpClean (dwSets s.snap) s) (hch : s.snap.chIn = s.snap.chOut)
    (hdim : 0 < s.snap.outDim) (hpos : 0 < s.snap.chIn) : DwRegions s.snap := by
  obtain ⟨-, hrefused, hoverlap, -⟩ := hclean
  have hws : (dwSets s.snap).ws = [⟨s.snap.out, s.snap.outDim * s.snap.outDim * dwPixelLen s.snap⟩,
      ⟨s.snap.col, s.snap.kdim * s.snap.kdim * s.snap.chIn⟩] := by
    rw [dwSets, if_neg (by omega)]
  simp only [OpSets.overlap, Bool.or_eq_false_iff, hws] at hoverlap
  obtain ⟨-, hmeet⟩ := hoverlap
  refine ⟨len_lt_of_not_refused hrefused (hws ▸ List.mem_cons_self),
    len_lt_of_not_refused hrefused (hws ▸ List.mem_cons_of_mem _ List.mem_cons_self), fun i hi j hj heq => ?_⟩
  exact regionsMeet_pair hmeet (ByteRange.mem_bytes.2 ⟨i, hi, rfl⟩) (ByteRange.mem_bytes.2 ⟨j, hj, heq.symm⟩)

/-- A row-major index of a square with `n` elements a cell names its row, its column and its element. -/
theorem square_index_inj {d n y x c y' x' c' : Nat} (hx : x < d) (hx' : x' < d) (hc : c < n) (hc' : c' < n)
    (h : (y * d + x) * n + c = (y' * d + x') * n + c') : y = y' ∧ x = x' ∧ c = c' := by
  have digits {k a b a' b' : Nat} (hb : b < k) (hb' : b' < k) (e : a * k + b = a' * k + b') : a = a' ∧ b = b' := by
    have hquot := congrArg (· / k) e
    have hrem := congrArg (· % k) e
    simp only [Nat.mul_add_mod', Nat.mod_eq_of_lt hb, Nat.mod_eq_of_lt hb'] at hrem
    subst hrem
    exact ⟨Nat.eq_of_mul_eq_mul_right (Nat.zero_lt_of_lt hb) (Nat.add_right_cancel e), rfl⟩
  obtain ⟨hcell, rfl⟩ := digits hc hc' h
  obtain ⟨rfl, rfl⟩ := digits hx hx' hcell
  exact ⟨rfl, rfl, rfl⟩

/-- After the writes of DW every output byte is the packed byte of its pixel's levels: no other pixel's byte and no byte of a
patch has its address. -/
theorem read_writeAll_dw_out {s : State} (hr : DwRegions s.snap) {oy ox b : Nat} (hy : oy < s.snap.outDim)
    (hx : ox < s.snap.outDim) (hb : b < dwPixelLen s.snap) :
    (s.mem.writeAll (operationWrites .dw s)).read (addr s.snap.out ((oy * s.snap.outDim + ox) * dwPixelLen s.snap + b))
      = BitVec.ofNat 8 (packedByte 2 s.snap.chIn (dwLevel s.mem s.snap (oy, ox)) b) := by
  have hlt := square_index_lt hy hx hb
  rw [operationWrites_dw]
  refine Memory.read_writeAll_of_mem _ (fun w hw heq => ?_) ⟨_, List.mem_flatMap.2 ⟨(oy, ox), mem_dwPixels.2 ⟨hy, hx⟩,
    List.mem_append_right _ (mem_byteWrites_pixelBytes.2 ⟨b, hb, rfl⟩)⟩, rfl⟩
  obtain ⟨⟨oy', ox'⟩, hp, hw⟩ := List.mem_flatMap.1 hw
  obtain ⟨hy', hx'⟩ := mem_dwPixels.1 hp
  rcases List.mem_append.1 hw with hcol | hout
  · obtain ⟨ky, hky, kx, hkx, c, hc, rfl⟩ := mem_im2colWrites.1 hcol
    exact absurd heq.symm (hr.disjoint _ hlt _ (square_index_lt hky hkx hc))
  · obtain ⟨b', hb', rfl⟩ := mem_byteWrites_pixelBytes.1 hout
    have hindex := addr_inj ((square_index_lt hy' hx' hb').trans hr.outFits) (hlt.trans hr.outFits) heq
    obtain ⟨rfl, rfl, rfl⟩ := square_index_inj hx' hx hb' hb hindex
    rfl

/-- The last pixel of a row-major run (rule R280). -/
theorem dwPixels_eq_concat {o : OperandRegs} (h : 0 < o.outDim) :
    ∃ l, dwPixels o = l ++ [(o.outDim - 1, o.outDim - 1)] := by
  obtain ⟨n, hn⟩ := Nat.exists_eq_add_one.2 h
  refine ⟨((List.range n).flatMap fun oy => (List.range (n + 1)).map fun ox => (oy, ox))
    ++ (List.range n).map fun ox => (n, ox), ?_⟩
  simp only [dwPixels, hn, Nat.add_sub_cancel, List.range_succ, List.flatMap_append, List.flatMap_cons, List.flatMap_nil,
    List.map_append, List.map_cons, List.map_nil, List.append_assoc, List.append_nil]

/-- After the writes of DW the column buffer holds the last pixel's patch: only the last pixel's own bytes are written after
it, and none of them goes there. -/
theorem read_writeAll_dw_col {s : State} (hr : DwRegions s.snap) (hdim : 0 < s.snap.outDim) {ky kx c : Nat}
    (hy : ky < s.snap.kdim) (hx : kx < s.snap.kdim) (hc : c < s.snap.chIn) :
    (s.mem.writeAll (operationWrites .dw s)).read (addr s.snap.col ((ky * s.snap.kdim + kx) * s.snap.chIn + c))
      = dwStaged s.mem s.snap (s.snap.outDim - 1, s.snap.outDim - 1) (ky, kx) c := by
  have hlt := square_index_lt hy hx hc
  have hlast : s.snap.outDim - 1 < s.snap.outDim := Nat.sub_one_lt_of_lt hdim
  obtain ⟨l, hl⟩ := dwPixels_eq_concat hdim
  rw [operationWrites_dw, hl, List.flatMap_append, List.flatMap_cons, List.flatMap_nil, List.append_nil, pixelWrites,
    Memory.writeAll_append, Memory.writeAll_append, Memory.read_writeAll_of_not_mem]
  · refine Memory.read_writeAll_of_mem _ (fun w hw heq => ?_) ⟨_, mem_im2colWrites.2 ⟨ky, hy, kx, hx, c, hc, rfl⟩, rfl⟩
    obtain ⟨ky', hy', kx', hx', c', hc', rfl⟩ := mem_im2colWrites.1 hw
    have hindex := addr_inj ((square_index_lt hy' hx' hc').trans hr.colFits) (hlt.trans hr.colFits) heq
    obtain ⟨rfl, rfl, rfl⟩ := square_index_inj hx' hx hc' hc hindex
    rfl
  · intro w hw
    obtain ⟨b, hb, rfl⟩ := mem_byteWrites_pixelBytes.1 hw
    exact hr.disjoint _ (square_index_lt hlast hlast hb) _ hlt

/-! The command. -/

/-- A pixel of no channel has no byte (rule R275). -/
theorem chIn_pos_of_lt_dwPixelLen {o : OperandRegs} {b : Nat} (h : b < dwPixelLen o) : 0 < o.chIn :=
  Nat.zero_lt_of_lt ((cdiv_le_iff (by decide)).1 h)

/-- Settles O37: a clean DW leaves its own writes in memory, read back region by region. -/
theorem depthwiseCommandCompletes : Obligations.DepthwiseCommandCompletes := by
  intro s hch hclean
  have ⟨hside, hrefused, _⟩ := hclean
  obtain ⟨t, hexec, hmem, hresult, hfault, hcode⟩ := exec_ok (fun _ => hch) hside hrefused
  obtain ⟨hframe, hother⟩ := noCommandWritesOutsideWriteSet _ s t hexec
  rw [okMemory_clean hclean] at hmem
  refine ⟨t, hexec, hframe, hcode, hfault, hresult, fun oy hy ox hx b hb => ?_, fun hdim ky hy kx hx c hc => ?_, hother⟩
  · have hdim : 0 < s.snap.outDim := Nat.zero_lt_of_lt hy
    rw [hmem]
    exact read_writeAll_dw_out (.of_clean hclean hch hdim (chIn_pos_of_lt_dwPixelLen hb)) hy hx hb
  · rw [hmem]
    exact read_writeAll_dw_col (.of_clean hclean hch hdim (Nat.zero_lt_of_lt hc)) hdim hy hx hc

end Sys2Proof.Machine
end

section
/-! Reset (obligations O8, O9, O56; 70_reset_and_hazards.md rules R320 to R322). -/

namespace Sys2Proof.Machine

open Sys2Proof.Reference

/-- What the HOST can read of the CORE stands at its reset value (10_state.md rule R67; rule R322). -/
structure RegistersReset (s : State) : Prop where
  ops : s.ops = OperandRegs.zero
  irqEn : s.irqEn = false
  phase : s.phase = .idle
  done : s.done = false
  overrun : s.overrun = false
  errcode : s.errcode = .ok
  result : s.result = 0
  faultAddr : s.faultAddr = 0

theorem registersReset_reset : RegistersReset State.reset := ⟨rfl, rfl, rfl, rfl, rfl, rfl, rfl, rfl⟩

/-- The reset input leaves the same registers, whatever they held. -/
theorem registersReset_coreReset (s : State) : RegistersReset (coreReset s) := ⟨rfl, rfl, rfl, rfl, rfl, rfl, rfl, rfl⟩

theorem RegistersReset.ctrlWord {s : State} (h : RegistersReset s) : s.ctrlWord = 0 := by
  rw [State.ctrlWord, h.irqEn]
  rfl

theorem RegistersReset.statusWord {s : State} (h : RegistersReset s) : s.statusWord = 0 := by
  rw [State.statusWord, State.busy, h.errcode, h.overrun, h.done, h.phase]
  rfl

/-- After reset every register but ID reads 0. -/
theorem RegistersReset.regRead {s : State} (h : RegistersReset s) (r : RegName) :
    regRead s r = if r = .id then 0x51544E49 else 0 := by
  cases r
  case id => rfl
  case ctrl => exact h.ctrlWord
  case status => exact h.statusWord
  case result => exact h.result
  case faultAddr => exact h.faultAddr
  all_goals
    simp only [Machine.regRead, h.ops]
    rfl

theorem RegistersReset.irq {s : State} (h : RegistersReset s) : s.irq = false := by
  rw [State.irq, h.irqEn, Bool.false_and]

/-- Reserved offsets read 0 in every state (10_state.md rule R55). -/
theorem windowRead_reserved {x : BitVec 6} (h : 0x18 ≤ x.toNat) (s : State) : windowRead s x = 0 := by
  rw [windowRead, ofIndex_reserved h]

/-- Settles O8: the state after reset has its registers at their reset values. -/
theorem resetRegisterValues : Obligations.ResetRegisterValues :=
  ⟨registersReset_reset.regRead, fun _ hx => windowRead_reserved hx _, registersReset_reset.phase,
    registersReset_reset.irq⟩

/-- Settles O56: IDLE with every register 0 and nothing listed. -/
theorem resetMeetsInvariant : Obligations.ResetMeetsInvariant :=
  .of_idle rfl reset_mem_wf ⟨List.Pairwise.nil, nofun⟩ zero_reservedZero zero_reservedZero ⟨rfl, rfl, rfl⟩

/-- An asserted reset input comes before the CORE and the HOST (rule R320). -/
theorem step_of_resetIn {s : State} (h : s.resetIn = true) : step s = .next (coreReset s) := if_pos h

/-- Reset frees the bytes of WS of a running operation and keeps every other (rule R321). -/
theorem read_coreReset {s : State} {a : Word} (h : s.phase = .idle ∨ covers (snapshotSets s.snap).ws a = false) :
    (coreReset s).mem.read a = s.mem.read a := by
  unfold coreReset
  cases hphase : s.phase with
  | idle => rfl
  | busy =>
    have hout : covers (snapshotSets s.snap).ws a = false := h.resolve_left (by rw [hphase]; nofun)
    exact (Memory.read_havoc _ _ _ a).trans (if_neg (covers_eq_false.1 hout))

/-- Settles O9: the step is the reset, which keeps the HOST, the platform and the bytes outside WS. -/
theorem resetInputWins : Obligations.ResetInputWins := by
  intro s hreset
  have hregs := registersReset_coreReset s
  exact ⟨coreReset s, step_of_resetIn hreset, hregs.regRead, hregs.phase, hregs.irq, coreReset_resetIn s,
    coreReset_platform s, coreReset_host s, fun _ => read_coreReset⟩

end Sys2Proof.Machine
end

section
/-! Completions: `irq` and BUS_ERROR (obligations O41, O47; 60_exceptions.md rules R296, R300). -/

namespace Sys2Proof.Machine

open Sys2Proof.Reference

/-- After a completion, which sets DONE, `irq` follows IRQ_EN alone, at the output and at input IRQ_LINE (rule R300). -/
theorem irq_of_completed {s t : State} (hirqEn : t.irqEn = s.irqEn) (hplatform : t.platform = s.platform)
    (hdone : t.done = true) : t.irq = s.irqEn ∧ t.irqAt s.platform.irqLine = s.irqEn := by
  have hirq : t.irq = s.irqEn := by rw [State.irq, hdone, Bool.and_true, hirqEn]
  refine ⟨hirq, ?_⟩
  rw [State.irqAt, hplatform, decide_eq_true rfl, Bool.true_and, hirq]

/-- Settles O47: both kinds of completion set DONE and keep IRQ_EN and the platform. -/
theorem completionRaisesIrq : Obligations.CompletionRaisesIrq := by
  refine ⟨fun i s t hexec => ?_, fun s c hidle hcode => ?_⟩
  · obtain ⟨⟨-, hirqEn, -, -, hplatform, -, -, -, -, -, hdone⟩, -⟩ := noCommandWritesOutsideWriteSet i s t hexec
    exact irq_of_completed hirqEn hplatform hdone
  · obtain ⟨-, hdone, herrcode⟩ := requestStart_completed hidle hcode
    obtain ⟨-, hirqEn, -, -, -, hplatform, -⟩ := requestStart_frame s
    exact ⟨herrcode, irq_of_completed hirqEn hplatform hdone⟩

/-- A byte is refused when RS or WS covers it and it fails MEM_OK. -/
theorem mem_refusedBytes_iff_covers {p : Platform} {c : OpSets} {a : Word} :
    a ∈ refusedBytes p c ↔ covers (c.rs ++ c.ws) a = true ∧ p.memOk a = false := by
  rw [mem_refusedBytes, covers_iff]

/-- With a refused byte an operation past the checks of START completes with BUS_ERROR (rule R296). -/
theorem exec_busError {i : Instr} {s : State} (hch : i = .dwThrO2 → s.snap.chIn = s.snap.chOut)
    (hside : touchesSideEffect (setsOf i s) s = false) (hrefused : refusedBytes s.platform (setsOf i s) ≠ []) :
    exec i s = .next (completeBusError (setsOf i s) s) := by
  rw [exec_eq_runOp hch]
  simp only [runOp, hside, hrefused, Bool.false_eq_true, if_false]

/-- Settles O41, by whether a byte is refused: `runOp` looks for one before it completes with OK. -/
theorem busErrorExactlyOnRefusedByte : Obligations.BusErrorExactlyOnRefusedByte := by
  intro i s hch hside
  by_cases hrefused : refusedBytes s.platform (setsOf i s) = []
  · obtain ⟨t, hexec, -, -, hfault, hcode⟩ := exec_ok hch hside hrefused
    obtain ⟨hframe, -⟩ := noCommandWritesOutsideWriteSet i s t hexec
    have hne : t.errcode ≠ .busError := by rw [hcode]; nofun
    refine ⟨t, hexec, hframe, ⟨fun h => absurd h hne, fun ⟨a, ha⟩ => ?_⟩, fun h => absurd h hne,
      fun _ => ⟨hcode, hfault⟩⟩
    have hmem := mem_refusedBytes_iff_covers.2 ha
    rw [hrefused] at hmem
    cases hmem
  · have hexec := exec_busError hch hside hrefused
    obtain ⟨hframe, -⟩ := noCommandWritesOutsideWriteSet i s _ hexec
    obtain ⟨hcover, hbad⟩ := mem_refusedBytes_iff_covers.1 (completeBusError_faultAddr_mem hrefused)
    exact ⟨_, hexec, hframe, ⟨fun _ => ⟨_, hcover, hbad⟩, fun _ => rfl⟩,
      fun _ => ⟨hcover, hbad, rfl, read_completeBusError _ s⟩, fun h => absurd rfl h⟩

end Sys2Proof.Machine
end

section
/-! The hidden working registers are never read (obligation O49; 70_reset_and_hazards.md rule R322,
93_implementation_defined.md U16). -/

namespace Sys2Proof.Machine

open Sys2Proof.Reference

/-- A region begins a byte, so its bytes do not depend on what the buffer held (44_packer.md rule R233). -/
theorem packRegion_ignores_buffer (k : Nat) (l : List Nat) (p q : PackBuf) :
    (packRegion k l p).2 = (packRegion k l q).2 := by
  cases l with
  | nil => rw [packRegion_nil, packRegion_nil]
  | cons x xs => rfl

section
variable {f : State → State} (hf : HiddenOnly f)
include hf

/-- Hidden working registers are no part of the snapshot, the platform and memory, which an operation reads. -/
theorem HiddenOnly.inputs (s : State) : (f s).snap = s.snap ∧ (f s).platform = s.platform ∧ (f s).mem = s.mem := by
  obtain ⟨_, _, _, _, _, e⟩ := hf s
  rw [e]
  exact ⟨rfl, rfl, rfl⟩

theorem HiddenOnly.regionBytes_eq (v : MmVariant) (s : State) (j : Nat) : regionBytes v (f s) j = regionBytes v s j := by
  obtain ⟨hsnap, -, hmem⟩ := hf.inputs s
  rw [regionBytes, hsnap, hmem]
  exact packRegion_ignores_buffer _ _ _ _

/-- Every accumulator is initialised and every packer byte begun before it is read, so an operation makes the same writes
whatever the hidden registers hold. -/
theorem HiddenOnly.operationWrites_eq (p : Operation) (s : State) : operationWrites p (f s) = operationWrites p s := by
  obtain ⟨hsnap, -, hmem⟩ := hf.inputs s
  cases p with
  | mm v => rw [operationWrites_mm, operationWrites_mm, hsnap, hf.regionBytes_eq, hf.regionBytes_eq]
  | dw => rw [operationWrites_dw, operationWrites_dw, hsnap, hmem]
  | unpack v => rw [operationWrites, operationWrites, hsnap, hmem]

variable (a : MacArray) (l : LaneAccs) (p0 p1 : PackBuf) (q : Sequencer)

/-- Giving the hidden registers forgets any update of them. -/
theorem HiddenOnly.withHidden_eq (t : State) : withHidden a l p0 p1 q (f t) = withHidden a l p0 p1 q t := by
  obtain ⟨_, _, _, _, _, e⟩ := hf t
  rw [e]
  rfl

/-- The same at a completion with no data access. -/
theorem HiddenOnly.complete_eq (code : CompletionCode) (s : State) :
    withHidden a l p0 p1 q (complete code (f s)) = withHidden a l p0 p1 q (complete code s) := by
  obtain ⟨_, _, _, _, _, e⟩ := hf s
  rw [e]
  rfl

/-- Up to the hidden registers `runOp` does not depend on what they hold before, nor on what its engine leaves in them. -/
theorem HiddenOnly.mapNext_runOp {hid hid' : State → State} (hhid : HiddenOnly hid) (hhid' : HiddenOnly hid') (c : OpSets)
    (w : List (Word × Byte)) (r : Word) (s : State) :
    mapNext (withHidden a l p0 p1 q) (runOp c w r hid (f s)) = mapNext (withHidden a l p0 p1 q) (runOp c w r hid' s) := by
  obtain ⟨-, hplatform, -⟩ := hf.inputs s
  obtain ⟨_, _, _, _, _, e⟩ := hf s
  have hside : touchesSideEffect c (f s) = touchesSideEffect c s := by
    rw [touchesSideEffect, touchesSideEffect, hplatform]
  have hok : withHidden a l p0 p1 q (completeOk c w r (f s)) = withHidden a l p0 p1 q (completeOk c w r s) := by
    rw [e]; rfl
  have hbus : withHidden a l p0 p1 q (completeBusError c (f s)) = withHidden a l p0 p1 q (completeBusError c s) := by
    rw [e]; rfl
  unfold runOp
  rw [hside, hplatform]
  split
  · rfl
  · split
    · simp only [mapNext, hhid.withHidden_eq, hhid'.withHidden_eq, hok]
    · simp only [mapNext, hbus]

/-- Up to the hidden registers every command does the same whatever they hold: a channel mismatch completes at once, and
any other command is one `runOp` with the same writes. -/
theorem HiddenOnly.mapNext_exec (i : Instr) (s : State) :
    mapNext (withHidden a l p0 p1 q) (exec i (f s)) = mapNext (withHidden a l p0 p1 q) (exec i s) := by
  obtain ⟨hsnap, -, -⟩ := hf.inputs s
  by_cases hch : i = .dwThrO2 → s.snap.chIn = s.snap.chOut
  · have hch' : i = .dwThrO2 → (f s).snap.chIn = (f s).snap.chOut := hsnap.symm ▸ hch
    rw [exec_eq_runOp hch, exec_eq_runOp hch', setsOf, hsnap, hf.operationWrites_eq]
    exact hf.mapNext_runOp a l p0 p1 q (leaveOperation_hiddenOnly _ _) (leaveOperation_hiddenOnly _ _) _ _ _ s
  · obtain ⟨rfl, hne⟩ := Classical.not_imp.1 hch
    have hne' : (f s).snap.chIn ≠ (f s).snap.chOut := hsnap.symm ▸ hne
    have hexec : exec .dwThrO2 s = .next (complete .sizeMismatch s) := runDw_of_mismatch hne
    have hexec' : exec .dwThrO2 (f s) = .next (complete .sizeMismatch (f s)) := runDw_of_mismatch hne'
    rw [hexec, hexec', mapNext, mapNext, hf.complete_eq]

end

theorem withHidden_hiddenOnly (a : MacArray) (l : LaneAccs) (p0 p1 : PackBuf) (q : Sequencer) :
    HiddenOnly (withHidden a l p0 p1 q) :=
  fun _ => ⟨a, l, p0, p1, q, rfl⟩

/-- Settles O49: giving the hidden registers other contents is an update of them alone. -/
theorem hiddenStateNeverRead : Obligations.HiddenStateNeverRead := by
  intro i s a a' l l' p0 p0' p1 p1' q q'
  exact (withHidden_hiddenOnly a l p0 p1 q).mapNext_exec a' l' p0' p1' q' i s

end Sys2Proof.Machine
end
